-- ==== Sys2Proof/Word.lean ====
section
/-! DEFINITION. The value types of CORE (10_state.md R21): symbol and phrase. A codeword is a
non-negative integer with no declared upper bound (R21, R107): it is a `Nat` wherever it stands. -/

namespace Sys2Proof

/-- A symbol: one element of the fixed alphabet of size 256, an unsigned number 0 to 255 (R4, R21). CORE never
adds, shifts or masks a symbol; it compares symbols and uses a codeword below 256 as one. -/
abbrev Symbol := Fin 256

/-- A sequence of symbols. A phrase of the spec is a non-empty one; `[]` occurs only as the value of a prefix
register and of an output buffer (R21). Equality is structural. -/
abbrev Phrase := List Symbol

end Sys2Proof
end

