-- ==== Sys2Proof/Config.lean ====
section
/-! DEFINITION. What is fixed for one realisation of CORE: the constants of R4, the three parameters of R5, and the
one free value of the model. -/

namespace Sys2Proof

/-- `ALPHABET_SIZE` (R4). -/
def Config.alphabetSize : Nat := 256

/-- `FIRST_CODE` (R4): new codewords are assigned starting here. -/
def Config.firstCode : Nat := 256

/-- "Natural number or infinity" (R5). -/
inductive Cap where
  | infinite
  | finite (n : Nat)
deriving DecidableEq, Repr

/-- The three parameters the document leaves to the implementation (R5). ENC and DEC take the same three values. -/
structure Params where
  /-- `DICT_CAP`: greatest number of entries a table can hold, the 256 preloaded ones included. -/
  dictCap : Cap
  /-- `OUT_CAP`: greatest number of elements an output buffer can hold. -/
  outCap : Cap
  /-- `OPW`: width in bits of the operand field of a command word and of the data field of a response word. -/
  opw : Cap
deriving DecidableEq, Repr

/-- The normative values: all three infinite (R5). -/
def Params.normative : Params := { dictCap := .infinite, outCap := .infinite, opw := .infinite }

/-- The constraints of R5 on finite values: `DICT_CAP >= 256`, `OUT_CAP >= 1`, `OPW >= 9`,
`DICT_CAP <= 2^OPW`, `OUT_CAP < 2^OPW`. -/
def Params.valid (p : Params) : Bool :=
  (match p.dictCap with | .infinite => true | .finite d => decide (256 ≤ d)) &&
  (match p.outCap with | .infinite => true | .finite o => decide (1 ≤ o)) &&
  (match p.opw, p.dictCap, p.outCap with
    | .infinite, _, _ => true
    | .finite w, .finite d, .finite o => decide (9 ≤ w) && decide (d ≤ 2 ^ w) && decide (o < 2 ^ w)
    | .finite _, _, _ => false)

/-- FREE VALUE (log 3, DESIGN CHOICE). `dataOutsideField opw v` is what the data field of a response holds, before it is
cut to the field's `opw` bits, when the value `v` to be returned does not fit the field: R31 and R124 state the value, R72
the width, and for NEXT_CODE = 2^OPW = DICT_CAP the two do not agree. No body: nothing can be proved of its value. -/
opaque Config.dataOutsideField : Nat → Nat → Nat

end Sys2Proof
end

