-- ==== Sys2Proof/Syntax.lean ====
section
/-! DEFINITION. The instructions of CORE: the ten host commands (30_encoding.md R74, R75) and the six internal table
operations (R80), one constructor for each row of spec/opcode_table.json; and the ports they arrive on (R70, R80). -/

namespace Sys2Proof

/-- The two command ports of R70. -/
inductive CmdPort where
  | encCmd
  | decCmd
deriving DecidableEq, Repr

/-- The two internal table ports of R80. -/
inductive TablePort where
  | p2c
  | c2p
deriving DecidableEq, Repr

/-- The argument lines of a table port (R80): none, a phrase, or a codeword. -/
inductive TableArg where
  | none
  | phrase (p : Phrase)
  | code (c : Nat)
deriving DecidableEq, Repr

/-- What stands on a port: a command word of format H on a command port (R71), or an operation select `t_op` with its
argument on a table port (format T, R80). -/
inductive Wire where
  | command (port : CmdPort) (w : Nat)
  | table (port : TablePort) (tOp : BitVec 2) (arg : TableArg)
deriving DecidableEq, Repr

/-- One constructor per row of the opcode table. Operands of host commands are the operand field as it stands, an
unsigned number (R73): a symbol operand of 256 or more is a well-formed command that the engine answers with a raise. -/
inductive Instr where
  | encStart
  | encSym (s : Nat)
  | encEnd
  | encRd (i : Nat)
  | encStat (n : Nat)
  | decStart
  | decCode (c : Nat)
  | decEnd
  | decRd (i : Nat)
  | decStat (n : Nat)
  | p2cInit
  | p2cLookup (p : Phrase)
  | p2cInsert (p : Phrase)
  | c2pInit
  | c2pLookup (c : Nat)
  | c2pInsert (p : Phrase)
deriving DecidableEq, Repr

/-- The host commands, which arrive on a command port (R74, R75); the other six rows are operations of the internal table
ports (R80). -/
def Instr.isHostCommand (i : Instr) : Bool :=
  match i with
  | .encStart => true
  | .encSym _ => true
  | .encEnd => true
  | .encRd _ => true
  | .encStat _ => true
  | .decStart => true
  | .decCode _ => true
  | .decEnd => true
  | .decRd _ => true
  | .decStat _ => true
  | .p2cInit => false
  | .p2cLookup _ => false
  | .p2cInsert _ => false
  | .c2pInit => false
  | .c2pLookup _ => false
  | .c2pInsert _ => false

/-- The commands of the port `enc_cmd` (R74). -/
def Instr.isEncCommand (i : Instr) : Bool :=
  match i with
  | .encStart => true
  | .encSym _ => true
  | .encEnd => true
  | .encRd _ => true
  | .encStat _ => true
  | .decStart => false
  | .decCode _ => false
  | .decEnd => false
  | .decRd _ => false
  | .decStat _ => false
  | .p2cInit => false
  | .p2cLookup _ => false
  | .p2cInsert _ => false
  | .c2pInit => false
  | .c2pLookup _ => false
  | .c2pInsert _ => false

/-- The commands of the port `dec_cmd` (R75). -/
def Instr.isDecCommand (i : Instr) : Bool := i.isHostCommand && !i.isEncCommand

end Sys2Proof
end

