-- ==== Sys2Proof/WellFormed.lean ====
section
/-! DEFINITION. Which instructions can be written down on a realisation with given parameters. -/

namespace Sys2Proof

/-- A value the `OPW`-bit operand field can carry; every natural number when `OPW` is infinite (R71, R73). -/
def Params.operandFits (p : Params) (v : Nat) : Bool :=
  match p.opw with
  | .infinite => true
  | .finite n => decide (v < 2 ^ n)

/-- A phrase is a non-empty sequence (R21): INSERT takes a phrase (R102, R105). -/
def Phrase.isPhrase (q : Phrase) : Bool := !q.isEmpty

/-- Operands fit the operand field (R71, R73); a codeword on the C2P port is one the operand field can carry (R104);
INSERT takes a phrase (R102, R105); LOOKUP on the P2C port takes any sequence (R101). -/
def Instr.wf (p : Params) (i : Instr) : Bool :=
  match i with
  | .encStart => true
  | .encSym s => p.operandFits s
  | .encEnd => true
  | .encRd i => p.operandFits i
  | .encStat n => p.operandFits n
  | .decStart => true
  | .decCode c => p.operandFits c
  | .decEnd => true
  | .decRd i => p.operandFits i
  | .decStat n => p.operandFits n
  | .p2cInit => true
  | .p2cLookup _ => true
  | .p2cInsert q => Phrase.isPhrase q
  | .c2pInit => true
  | .c2pLookup c => p.operandFits c
  | .c2pInsert q => Phrase.isPhrase q

end Sys2Proof
end

