-- ==== Sys2Proof/Decode.lean ====
section
/-! DEFINITION. Decoding a command word (30_encoding.md R71, R73 to R77, R83 steps 1 to 3) and a table-port operation
(R80), total, rejecting by name; and the encoder. -/

namespace Sys2Proof

/-- Why what stands on a port is no instruction. -/
inductive DecodeReject where
  /-- The opcode is reserved on the port it arrives on (R76). -/
  | reservedOpcode
  /-- A START or END command with a non-zero operand (R77). -/
  | operandNotZero
  /-- `t_op = 00`, the idle value of a table port, which is no operation (R80). -/
  | tableIdle
  /-- A table operation whose argument lines do not carry the operand the operation takes (R80). -/
  | tableArgument
deriving DecidableEq, Repr

/-- `w[OPW+3:4]` (R7, R73): `w div 16` when `OPW` is infinite, else `(w div 16) mod 2^OPW`. -/
def operandField (p : Params) (w : Nat) : Nat :=
  match p.opw with
  | .infinite => w / 16
  | .finite n => w / 16 % 2 ^ n

/-- A command that takes no operand requires the operand field to be 0 (R77). -/
def withoutOperand (operand : Nat) (i : Instr) : Except DecodeReject Instr :=
  if operand = 0 then .ok i else .error .operandNotZero

/-- The opcode map of `enc_cmd` (R74, R76). -/
def decodeEnc (p : Params) (w : Nat) : Except DecodeReject Instr :=
  match w % 16 with
  | 1 => withoutOperand (operandField p w) .encStart
  | 2 => .ok (.encSym (operandField p w))
  | 3 => withoutOperand (operandField p w) .encEnd
  | 4 => .ok (.encRd (operandField p w))
  | 5 => .ok (.encStat (operandField p w))
  | _ => .error .reservedOpcode

/-- The opcode map of `dec_cmd` (R75, R76). -/
def decodeDec (p : Params) (w : Nat) : Except DecodeReject Instr :=
  match w % 16 with
  | 9 => withoutOperand (operandField p w) .decStart
  | 10 => .ok (.decCode (operandField p w))
  | 11 => withoutOperand (operandField p w) .decEnd
  | 12 => .ok (.decRd (operandField p w))
  | 13 => .ok (.decStat (operandField p w))
  | _ => .error .reservedOpcode

/-- Steps 1 to 3 of the handling of a command word (R83). -/
def decodeCommand (port : CmdPort) (p : Params) (w : Nat) : Except DecodeReject Instr :=
  match port with
  | .encCmd => decodeEnc p w
  | .decCmd => decodeDec p w

/-- The P2C column of format T (R80). The argument of INIT is unused. -/
def decodeP2c (tOp : BitVec 2) (arg : TableArg) : Except DecodeReject Instr :=
  match tOp.toNat, arg with
  | 0, _ => .error .tableIdle
  | 1, _ => .ok .p2cInit
  | 2, .phrase q => .ok (.p2cLookup q)
  | 3, .phrase q => if Phrase.isPhrase q then .ok (.p2cInsert q) else .error .tableArgument
  | _, _ => .error .tableArgument

/-- The C2P column of format T (R80). -/
def decodeC2p (p : Params) (tOp : BitVec 2) (arg : TableArg) : Except DecodeReject Instr :=
  match tOp.toNat, arg with
  | 0, _ => .error .tableIdle
  | 1, _ => .ok .c2pInit
  | 2, .code c => if p.operandFits c then .ok (.c2pLookup c) else .error .tableArgument
  | 3, .phrase q => if Phrase.isPhrase q then .ok (.c2pInsert q) else .error .tableArgument
  | _, _ => .error .tableArgument

/-- The instruction that stands on a port. -/
def decode (p : Params) (x : Wire) : Except DecodeReject Instr :=
  match x with
  | .command port w => decodeCommand port p w
  | .table .p2c tOp arg => decodeP2c tOp arg
  | .table .c2p tOp arg => decodeC2p p tOp arg

/-- Format H (R71): `w = operand * 16 + opcode`. -/
def commandWord (operand opcode : Nat) : Nat := operand * 16 + opcode

/-- The wire of an instruction, from the opcode maps R74 and R75 and the select table R80. -/
def encode (i : Instr) : Wire :=
  match i with
  | .encStart => .command .encCmd (commandWord 0 1)
  | .encSym s => .command .encCmd (commandWord s 2)
  | .encEnd => .command .encCmd (commandWord 0 3)
  | .encRd i => .command .encCmd (commandWord i 4)
  | .encStat n => .command .encCmd (commandWord n 5)
  | .decStart => .command .decCmd (commandWord 0 9)
  | .decCode c => .command .decCmd (commandWord c 10)
  | .decEnd => .command .decCmd (commandWord 0 11)
  | .decRd i => .command .decCmd (commandWord i 12)
  | .decStat n => .command .decCmd (commandWord n 13)
  | .p2cInit => .table .p2c 1#2 .none
  | .p2cLookup q => .table .p2c 2#2 (.phrase q)
  | .p2cInsert q => .table .p2c 3#2 (.phrase q)
  | .c2pInit => .table .c2p 1#2 .none
  | .c2pLookup c => .table .c2p 2#2 (.code c)
  | .c2pInsert q => .table .c2p 3#2 (.phrase q)

/-- The command port whose opcodes are of the word's kind: bit 3 of the opcode tells the engine (R75, D3). -/
def portOfWord (w : Nat) : CmdPort :=
  if w % 16 < 8 then .encCmd else .decCmd

/-- What the decoder reads from a row's word of spec/opcode_table.json, on the port of its opcode, with the normative
parameters. A format T row's two bits are not a command word and have no number of their own here (log 6). -/
def decodeTableWord (nbits w : Nat) : Option Instr :=
  match decodeCommand (portOfWord (w % 2 ^ nbits)) .normative (w % 2 ^ nbits) with
  | .ok i => some i
  | .error _ => none

end Sys2Proof
end

