-- ==== Sys2Proof/Machine/State.lean ====
section
/-! DEFINITION. The state of CORE (10_state.md): two engines with disjoint state, the ports, and reset. -/

namespace Sys2Proof.Machine

/-- The phase register (R25): a 3-bit field with five legal values. -/
inductive Phase where
  /-- 0: no run since reset. -/
  | idle
  /-- 1: DEC only, a run has started and no codeword has been consumed yet. -/
  | waitFirst
  /-- 2: a run is in progress. -/
  | run
  /-- 3: the last run completed. -/
  | done
  /-- 4: the last run ended with an error. -/
  | fault
deriving DecidableEq, Repr

/-- The error field (R26) and the errors of R180. -/
inductive Err where
  | none
  | emptyInput
  | invalidCodeword
  | unsupportedSymbol
  | illegalCommand
  | capacityExhausted
deriving DecidableEq, Repr

/-- One engine (R20): the six components of its state, the whole of it (R40). `α` is the type of an element of the
output buffer, `τ` that of the table. -/
structure Engine (α τ : Type) where
  /-- `X.phase` (R25). -/
  phase : Phase
  /-- `X.err` (R26). -/
  err : Err
  /-- `X.prefix` (R22, R23). -/
  prefixReg : Phrase
  /-- `X.next_code` (R24). -/
  nextCode : Nat
  /-- `X.out` (R28), the space `EOUT` or `DOUT` (R53): index 0 is the first element produced (R55). -/
  out : List α
  /-- The dictionary table the engine owns (R29, R30). -/
  table : τ
deriving DecidableEq, Repr

/-- P2C (R29, R51), a finite partial function from phrases to codewords, as its set of pairs. Canonical form: codewords
strictly rising, no phrase twice (`Memory.wf`). A phrase that is not listed reads as `none`. -/
abbrev P2cTable := List (Phrase × Nat)

/-- C2P (R30, R52), a finite sequence of phrases indexed by codeword. -/
abbrev C2pTable := List Phrase

/-- The encoder engine. -/
abbrev Enc := Engine Nat P2cTable

/-- The decoder engine. -/
abbrev Dec := Engine Symbol C2pTable

/-- Who moves next. The spec leaves the interleaving of the two ports and of `rst` open (R61, R210); this is plain data,
so that a statement about every state is one about every interleaving (log 1). -/
inductive Turn where
  /-- ENC consumes the next word of its command port, if there is one. -/
  | enc
  /-- DEC consumes the next word of its command port, if there is one. -/
  | dec
  /-- The host drives the `rst` line to a level (R210). -/
  | rst (level : Bool)
deriving DecidableEq, Repr

/-- The result lines of the P2C port (R80, R100 to R102). -/
inductive P2cResult where
  | none
  | lookup (hit : Bool) (code : Option Nat)
  | assigned (code : Nat)
deriving DecidableEq, Repr

/-- The result lines of the C2P port (R80, R103 to R105). -/
inductive C2pResult where
  | none
  | lookup (hit : Bool) (phrase : Option Phrase)
  | assigned (code : Nat)
deriving DecidableEq, Repr

/-- CORE and what its ports carry. -/
structure State where
  /-- The parameters of R5, fixed for a machine: no step writes them (log 2). -/
  params : Params
  /-- ENC's private state (R20). -/
  enc : Enc
  /-- DEC's private state (R20). -/
  dec : Dec
  /-- The level of the port `rst` (R70, R210). -/
  rst : Bool
  /-- Command words presented on `enc_cmd` and not yet consumed, the next one first (R33, R70). -/
  encCmd : List Nat
  /-- Command words presented on `dec_cmd` and not yet consumed, the next one first (R33, R70). -/
  decCmd : List Nat
  /-- Response words returned on `enc_rsp`, the first one first (R70, R72; log 12). -/
  encRsp : List Nat
  /-- Response words returned on `dec_rsp`, the first one first (R70, R72; log 12). -/
  decRsp : List Nat
  /-- The next moves, the next one first (log 1). -/
  turns : List Turn
  /-- The P2C port's result lines after an operation executed as an instruction of its own (R80; log 6). -/
  p2cResult : P2cResult
  /-- The C2P port's result lines after an operation executed as an instruction of its own (R80; log 6). -/
  c2pResult : C2pResult
deriving DecidableEq, Repr

/-- Why a step of the model stops. The errors of the spec (R180) are no faults of this kind: a raise is a next state. Each
reason here is a read the spec says never happens; no state that meets the machine's invariant reaches one (log 7). -/
inductive Fault where
  /-- ENC_SYM or ENC_END looks up E.prefix to emit its codeword and the table has no such key: excluded by R125. Raised by
  ENC_SYM, ENC_END. Safe. -/
  | unboundPhrase
  /-- DEC_CODE reads C2P below D.next_code at an address that holds nothing: excluded by R30 and R52. Raised by DEC_CODE.
  Safe. -/
  | unboundCodeword
  /-- DEC_CODE takes the first symbol of an empty sequence, for which first_symbol is not defined (R109): excluded by R147
  and R36. Raised by DEC_CODE. Safe. -/
  | noFirstSymbol
deriving DecidableEq, Repr

/-- Why an instruction has no meaning in the model. -/
inductive Refusal where
  /-- The instruction has no meaning yet. Raised by an arm of exec; no arm does so. Safe. -/
  | notModelled (mnemonic : String)
deriving DecidableEq, Repr

/-- The preload of P2C (R35 (a), R39): exactly the 256 pairs (`[k]`, `k`). -/
def p2cPreload : P2cTable := (List.finRange 256).map fun k => ([k], k.val)

/-- The preload of C2P (R35 (a), R39): exactly the 256 entries `C2P[k] = [k]`. -/
def c2pPreload : C2pTable := (List.finRange 256).map fun k => [k]

/-- ENC after reset (R39). -/
def encReset : Enc :=
  { phase := .idle, err := .none, prefixReg := [], nextCode := 256, out := [], table := p2cPreload }

/-- DEC after reset (R39). -/
def decReset : Dec :=
  { phase := .idle, err := .none, prefixReg := [], nextCode := 256, out := [], table := c2pPreload }

/-- The machine with parameters `p` right after reset (R39), `rst` released and nothing presented by the host. -/
def State.resetWith (p : Params) : State :=
  { params := p, enc := encReset, dec := decReset, rst := false, encCmd := [], decCmd := [], encRsp := [], decRsp := [],
    turns := [], p2cResult := .none, c2pResult := .none }

/-- The machine right after reset, with the normative parameters (R5, R39). -/
def State.reset : State := State.resetWith Params.normative

end Sys2Proof.Machine
end

