-- ==== Sys2Proof/Machine/Operands.lean ====
section
/-! DEFINITION. How a command reads its operand (30_encoding.md R73), the phrase operations (40_dictionary_tables.md R109)
and the element reads of the output spaces (20_memory.md R53). -/

namespace Sys2Proof.Machine

/-- The operand of ENC_SYM as a symbol; 256 and above is none (R73, R183). -/
def symbolOf (operand : Nat) : Option Symbol :=
  if h : operand < 256 then some ⟨operand, h⟩ else none

/-- Append one symbol, `p ++ [s]` (R109 (a)). -/
def appendSymbol (p : Phrase) (s : Symbol) : Phrase := p ++ [s]

/-- `first_symbol(p) = p[0]`, defined for a phrase (R7, R109 (b)). -/
def firstSymbol (p : Phrase) : Option Symbol := p.head?

/-- `MemRead(EOUT:i, 1)` and `MemRead(DOUT:i, 1)`: the element at index `i`, if `i` is below the length (R50, R53). -/
def elementAt {α : Type} (out : List α) (i : Nat) : Option α := out[i]?

end Sys2Proof.Machine
end

