-- ==== Sys2Proof/Machine/Flags.lean ====
section
/-! DEFINITION. CORE has no condition codes (10_state.md R34). Its flag-like state is the error field; this file holds the
numbers of phases and errors, the status registers, the phase and capacity tests. -/

namespace Sys2Proof.Machine

/-- The value of the 3-bit phase field (R25). -/
def Phase.code (x : Phase) : Nat :=
  match x with
  | .idle => 0
  | .waitFirst => 1
  | .run => 2
  | .done => 3
  | .fault => 4

/-- The value of the 3-bit error field, and the code of a response (R26, R180). -/
def Err.code (e : Err) : Nat :=
  match e with
  | .none => 0
  | .emptyInput => 1
  | .invalidCodeword => 2
  | .unsupportedSymbol => 3
  | .illegalCommand => 4
  | .capacityExhausted => 5

/-- `STATUS`, CSR 0: phase in bits 2:0, err in bits 6:4, all other bits 0 (R31, R32). -/
def Engine.status {α τ : Type} (x : Engine α τ) : Nat := x.phase.code + 16 * x.err.code

/-- The control and status registers (R31, R54): views of the state; numbers 3 and above are reserved. -/
def Engine.csr {α τ : Type} (x : Engine α τ) (n : Nat) : Option Nat :=
  match n with
  | 0 => some x.status
  | 1 => some x.out.length
  | 2 => some x.nextCode
  | _ => none

/-- `n >= cap` (R5, R8 check_cap). -/
def reaches (n : Nat) (cap : Cap) : Bool :=
  match cap with
  | .infinite => false
  | .finite c => decide (c ≤ n)

/-- `n > cap` (R5, R8 check_cap). -/
def exceeds (n : Nat) (cap : Cap) : Bool :=
  match cap with
  | .infinite => false
  | .finite c => decide (c < n)

/-- The capacity test of ENC_SYM on a miss (R121). -/
def encSymFull (p : Params) (x : Enc) : Bool :=
  reaches x.out.length p.outCap || reaches x.nextCode p.dictCap

/-- The capacity test of ENC_END (R122). -/
def encEndFull (p : Params) (x : Enc) : Bool := reaches x.out.length p.outCap

/-- The capacity test of DEC_CODE in phase RUN, for the phrase decoded (R141). -/
def decCodeFull (p : Params) (x : Dec) (phrase : Phrase) : Bool :=
  exceeds (x.out.length + phrase.length) p.outCap || reaches x.nextCode p.dictCap

/-- The table of legal phases (R83 step 4). A table operation is no command and has no phase condition. -/
def legalIn (i : Instr) (x : Phase) : Bool :=
  match i, x with
  | .encStart, .idle => true
  | .encStart, .done => true
  | .encStart, .fault => true
  | .encStart, _ => false
  | .encSym _, .run => true
  | .encSym _, _ => false
  | .encEnd, .run => true
  | .encEnd, _ => false
  | .encRd _, .done => true
  | .encRd _, _ => false
  | .encStat _, _ => true
  | .decStart, .idle => true
  | .decStart, .done => true
  | .decStart, .fault => true
  | .decStart, _ => false
  | .decCode _, .waitFirst => true
  | .decCode _, .run => true
  | .decCode _, _ => false
  | .decEnd, .waitFirst => true
  | .decEnd, .run => true
  | .decEnd, _ => false
  | .decRd _, .done => true
  | .decRd _, _ => false
  | .decStat _, _ => true
  | .p2cInit, _ => true
  | .p2cLookup _, _ => true
  | .p2cInsert _, _ => true
  | .c2pInit, _ => true
  | .c2pLookup _, _ => true
  | .c2pInsert _, _ => true

end Sys2Proof.Machine
end

