-- ==== Sys2Proof/Machine/Ops.lean ====
section
/-! DEFINITION. The shared operations: the response word (30_encoding.md R72), the table memories and their six
operations (20_memory.md R51, R52; 40_dictionary_tables.md R100 to R105), the one error entry (60_exceptions.md R186),
reset (70_reset_and_hazards.md R210), and how a command's transition is put into the machine. -/

namespace Sys2Proof.Machine

/-! ## The response word -/

/-- The data field of a response. A value that does not fit a finite `OPW`-bit field is a free value, cut to the field
(log 3). -/
def dataField (p : Params) (data : Nat) : Nat :=
  match p.opw with
  | .infinite => data
  | .finite n => if data < 2 ^ n then data else Config.dataOutsideField n data % 2 ^ n

/-- `respond(err, data)`: the word `data * 16 + err` (R8, R72). -/
def respond (p : Params) (e : Err) (data : Nat) : Nat := dataField p data * 16 + e.code

/-! ## The error entry and the way a command ends -/

/-- Error entry, "raise" (R186): the engine and the response after it. In phase FAULT the sticky error is reported and
nothing changes (R187); otherwise the output is discarded, the cause stored and the phase FAULT. -/
def Engine.raise {α τ : Type} (p : Params) (e : Err) (x : Engine α τ) : Engine α τ × Nat :=
  if x.phase = .fault then (x, respond p x.err 0)
  else ({ x with out := [], err := e, phase := .fault }, respond p e 0)

/-- A transition that ends by a raise. -/
def raised {α τ : Type} (p : Params) (e : Err) (x : Engine α τ) : Except Fault (Engine α τ × Nat) :=
  .ok (x.raise p e)

/-- A transition that ends with success and returns `data`. -/
def answered {α τ : Type} (p : Params) (data : Nat) (x : Engine α τ) : Except Fault (Engine α τ × Nat) :=
  .ok (x, respond p .none data)

/-- The machine after ENC has ended a transition as `x` with response `w`: one word on `enc_rsp` (R70), nothing else. -/
def State.replyEnc (s : State) (x : Enc) (w : Nat) : State := { s with enc := x, encRsp := s.encRsp ++ [w] }

/-- The machine after DEC has ended a transition as `x` with response `w`: one word on `dec_rsp` (R70), nothing else. -/
def State.replyDec (s : State) (x : Dec) (w : Nat) : State := { s with dec := x, decRsp := s.decRsp ++ [w] }

/-- The effect of an ENC transition on the machine. -/
def State.finishEnc (s : State) (r : Except Fault (Enc × Nat)) : Host.Outcome State Fault Refusal :=
  match r with
  | .ok (x, w) => .next (s.replyEnc x w)
  | .error f => .fault f

/-- The effect of a DEC transition on the machine. -/
def State.finishDec (s : State) (r : Except Fault (Dec × Nat)) : Host.Outcome State Fault Refusal :=
  match r with
  | .ok (x, w) => .next (s.replyDec x w)
  | .error f => .fault f

/-- Steps 4 and 5 of the handling of an ENC command (R83): the phase test, then the command's own rule. -/
def encCommand (i : Instr) (s : State) (rule : Except Fault (Enc × Nat)) : Host.Outcome State Fault Refusal :=
  s.finishEnc (if legalIn i s.enc.phase then rule else raised s.params .illegalCommand s.enc)

/-- Steps 4 and 5 of the handling of a DEC command (R83). -/
def decCommand (i : Instr) (s : State) (rule : Except Fault (Dec × Nat)) : Host.Outcome State Fault Refusal :=
  s.finishDec (if legalIn i s.dec.phase then rule else raised s.params .illegalCommand s.dec)

/-! ## The table memories -/

/-- `MemRead(P2C:p, 1)` (R51): structural equality of phrases. -/
def p2cRead (p : Phrase) (t : P2cTable) : Option Nat :=
  match t with
  | [] => none
  | (q, c) :: rest => if q = p then some c else p2cRead p rest

/-- `MemWrite(P2C:p, 1, c)` (R51): binds `p` to `c`. -/
def p2cWrite (p : Phrase) (c : Nat) (t : P2cTable) : P2cTable :=
  t.filter (fun e => e.1 ≠ p) ++ [(p, c)]

/-- `MemRead(C2P:c, 1)` (R52): the address is the codeword itself. -/
def c2pRead (c : Nat) (t : C2pTable) : Option Phrase := t[c]?

/-- `MemWrite(C2P:c, 1, p)` (R52): at the first free address the sequence grows by one entry (log 9). -/
def c2pWrite (c : Nat) (p : Phrase) (t : C2pTable) : C2pTable :=
  if c < t.length then t.set c p else t ++ [p]

/-- The canonical form of P2C: codewords strictly rising and all below the counter, no phrase twice. -/
def p2cCanonical (next : Nat) (t : P2cTable) : Bool :=
  decide (t.Pairwise fun a b => a.2 < b.2 ∧ a.1 ≠ b.1) && decide (∀ e ∈ t, e.2 < next)

/-- The machine's memories are in canonical form, so that equal contents are equal data: P2C as above, C2P holding entries
at exactly the addresses 0 to `next_code - 1` (R30). EOUT and DOUT are sequences addressed by position (R50, R53) and have
no other form; CORE has no other memory (log 8). -/
def Memory.wf (s : State) : Bool :=
  p2cCanonical s.enc.nextCode s.enc.table && decide (s.dec.table.length = s.dec.nextCode)

/-! ## The table operations -/

/-- `P2C_INIT` (R100). -/
def p2cInit (x : Enc) : Enc := { x with table := p2cPreload, nextCode := 256 }

/-- `P2C_LOOKUP p` (R101): the pair `(hit, code)`. -/
def p2cLookup (p : Phrase) (x : Enc) : Bool × Option Nat :=
  match p2cRead p x.table with
  | none => (false, none)
  | some c => (true, some c)

/-- `P2C_INSERT p` (R102): the table with the new entry, and the codeword assigned. -/
def p2cInsert (p : Phrase) (x : Enc) : Enc × Nat :=
  ({ x with table := p2cWrite p x.nextCode x.table, nextCode := x.nextCode + 1 }, x.nextCode)

/-- `C2P_INIT` (R103). -/
def c2pInit (x : Dec) : Dec := { x with table := c2pPreload, nextCode := 256 }

/-- `C2P_LOOKUP c` (R104): the pair `(hit, phrase)`; the bound is tested first. -/
def c2pLookup (c : Nat) (x : Dec) : Bool × Option Phrase :=
  if c < x.nextCode then (true, c2pRead c x.table) else (false, none)

/-- `C2P_INSERT p` (R105): no test whether `p` is already there. -/
def c2pInsert (p : Phrase) (x : Dec) : Dec × Nat :=
  ({ x with table := c2pWrite x.nextCode p x.table, nextCode := x.nextCode + 1 }, x.nextCode)

/-! ## Reset -/

/-- The host drives `rst` to a level (R210). Asserting it gives both engines their reset values, whatever they were doing;
no response word is produced. -/
def State.driveRst (s : State) (level : Bool) : State :=
  if level then { s with rst := true, enc := encReset, dec := decReset } else { s with rst := false }

end Sys2Proof.Machine
end

