-- ==== Sys2Proof/Machine/DecCommands.lean ====
section
/-! DEFINITION. The five commands of the decoder engine (42_decoder.md R140, R141, R144 to R146). -/

namespace Sys2Proof.Machine

/-- `DEC_START` (R140). -/
def execDecStart (s : State) : Host.Outcome State Fault Refusal :=
  decCommand .decStart s
    (answered s.params 0 { c2pInit s.dec with prefixReg := [], out := [], err := .none, phase := .waitFirst })

/-- The first codeword of a run (R141 step 2): it must be below 256; no table access. -/
def decFirst (p : Params) (c : Nat) (x : Dec) : Except Fault (Dec × Nat) :=
  match symbolOf c with
  | none => raised p .invalidCodeword x
  | some sym => answered p 0 { x with out := [sym], prefixReg := [sym], phase := .run }

/-- A later codeword whose phrase is known (R141 step 3): append the phrase to the output, insert the old prefix with the
first symbol of the phrase, make the phrase the prefix. -/
def decPhrase (p : Params) (phrase : Phrase) (x : Dec) : Except Fault (Dec × Nat) :=
  if decCodeFull p x phrase then raised p .capacityExhausted x
  else
    match firstSymbol phrase with
    | none => .error .noFirstSymbol
    | some f =>
      answered p 0
        { (c2pInsert (appendSymbol x.prefixReg f) { x with out := x.out ++ phrase }).1 with prefixReg := phrase }

/-- The special case (R141, R142): the codeword is the next one to be assigned. -/
def decSpecial (p : Params) (x : Dec) : Except Fault (Dec × Nat) :=
  match firstSymbol x.prefixReg with
  | none => .error .noFirstSymbol
  | some f => decPhrase p (appendSymbol x.prefixReg f) x

/-- A later codeword (R141 step 3): bound, special or invalid. -/
def decLater (p : Params) (c : Nat) (x : Dec) : Except Fault (Dec × Nat) :=
  match c2pLookup c x with
  | (true, some q) => decPhrase p q x
  | (true, none) => .error .unboundCodeword
  | (false, _) => if c = x.nextCode then decSpecial p x else raised p .invalidCodeword x

/-- `DEC_CODE c` (R141). -/
def execDecCode (c : Nat) (s : State) : Host.Outcome State Fault Refusal :=
  decCommand (.decCode c) s
    (if s.dec.phase = .waitFirst then decFirst s.params c s.dec else decLater s.params c s.dec)

/-- `DEC_END` (R144). -/
def execDecEnd (s : State) : Host.Outcome State Fault Refusal :=
  decCommand .decEnd s
    (if s.dec.phase = .waitFirst then raised s.params .emptyInput s.dec
      else answered s.params s.dec.out.length { s.dec with phase := .done })

/-- `DEC_RD i` (R145). -/
def execDecRd (i : Nat) (s : State) : Host.Outcome State Fault Refusal :=
  decCommand (.decRd i) s
    (match elementAt s.dec.out i with
      | none => raised s.params .illegalCommand s.dec
      | some sym => answered s.params sym.val s.dec)

/-- `DEC_STAT n` (R146). -/
def execDecStat (n : Nat) (s : State) : Host.Outcome State Fault Refusal :=
  decCommand (.decStat n) s
    (match s.dec.csr n with
      | none => raised s.params .illegalCommand s.dec
      | some v => answered s.params v s.dec)

end Sys2Proof.Machine
end

