-- ==== Sys2Proof/Machine/EncCommands.lean ====
section
/-! DEFINITION. The five commands of the encoder engine (41_encoder.md R120 to R124). -/

namespace Sys2Proof.Machine

/-- `ENC_START` (R120). -/
def execEncStart (s : State) : Host.Outcome State Fault Refusal :=
  encCommand .encStart s
    (answered s.params 0 { p2cInit s.enc with prefixReg := [], out := [], err := .none, phase := .run })

/-- The miss branch of `ENC_SYM` (R121 step 3): emit the codeword of the prefix, insert the candidate, restart the prefix. -/
def encMiss (p : Params) (sym : Symbol) (cand : Phrase) (x : Enc) : Except Fault (Enc × Nat) :=
  if encSymFull p x then raised p .capacityExhausted x
  else
    match (p2cLookup x.prefixReg x).2 with
    | none => .error .unboundPhrase
    | some pc =>
      answered p 0 { (p2cInsert cand { x with out := x.out ++ [pc] }).1 with prefixReg := [sym] }

/-- One pass of the encoder's loop on a symbol (R121 steps 1 to 3). -/
def encPass (p : Params) (sym : Symbol) (x : Enc) : Except Fault (Enc × Nat) :=
  let cand := appendSymbol x.prefixReg sym
  if (p2cLookup cand x).1 then answered p 0 { x with prefixReg := cand }
  else encMiss p sym cand x

/-- `ENC_SYM s` (R121). -/
def execEncSym (operand : Nat) (s : State) : Host.Outcome State Fault Refusal :=
  encCommand (.encSym operand) s
    (match symbolOf operand with
      | none => raised s.params .unsupportedSymbol s.enc
      | some sym => encPass s.params sym s.enc)

/-- The final emission of `ENC_END` (R122), when the prefix is not empty. -/
def encFlush (p : Params) (x : Enc) : Except Fault (Enc × Nat) :=
  if encEndFull p x then raised p .capacityExhausted x
  else
    match (p2cLookup x.prefixReg x).2 with
    | none => .error .unboundPhrase
    | some pc => answered p (x.out.length + 1) { x with out := x.out ++ [pc], phase := .done }

/-- `ENC_END` (R122). -/
def execEncEnd (s : State) : Host.Outcome State Fault Refusal :=
  encCommand .encEnd s
    (if s.enc.prefixReg = [] then answered s.params s.enc.out.length { s.enc with phase := .done }
      else encFlush s.params s.enc)

/-- `ENC_RD i` (R123). -/
def execEncRd (i : Nat) (s : State) : Host.Outcome State Fault Refusal :=
  encCommand (.encRd i) s
    (match elementAt s.enc.out i with
      | none => raised s.params .illegalCommand s.enc
      | some c => answered s.params c s.enc)

/-- `ENC_STAT n` (R124). -/
def execEncStat (n : Nat) (s : State) : Host.Outcome State Fault Refusal :=
  encCommand (.encStat n) s
    (match s.enc.csr n with
      | none => raised s.params .illegalCommand s.enc
      | some v => answered s.params v s.enc)

end Sys2Proof.Machine
end

