-- ==== Sys2Proof/Machine/TableOps.lean ====
section
/-! DEFINITION. The six internal table operations as instructions of their own (40_dictionary_tables.md R100 to R105,
30_encoding.md R80): each changes its table as its rule says and leaves its result on the port's result lines. The host
cannot reach them: no command word decodes to one (log 6). -/

namespace Sys2Proof.Machine

/-- `P2C_INIT` (R100). -/
def execP2cInit (s : State) : Host.Outcome State Fault Refusal :=
  .next { s with enc := p2cInit s.enc, p2cResult := .none }

/-- `P2C_LOOKUP p` (R101). -/
def execP2cLookup (p : Phrase) (s : State) : Host.Outcome State Fault Refusal :=
  .next { s with p2cResult := .lookup (p2cLookup p s.enc).1 (p2cLookup p s.enc).2 }

/-- `P2C_INSERT p` (R102). -/
def execP2cInsert (p : Phrase) (s : State) : Host.Outcome State Fault Refusal :=
  .next { s with enc := (p2cInsert p s.enc).1, p2cResult := .assigned (p2cInsert p s.enc).2 }

/-- `C2P_INIT` (R103). -/
def execC2pInit (s : State) : Host.Outcome State Fault Refusal :=
  .next { s with dec := c2pInit s.dec, c2pResult := .none }

/-- `C2P_LOOKUP c` (R104). -/
def execC2pLookup (c : Nat) (s : State) : Host.Outcome State Fault Refusal :=
  .next { s with c2pResult := .lookup (c2pLookup c s.dec).1 (c2pLookup c s.dec).2 }

/-- `C2P_INSERT p` (R105). -/
def execC2pInsert (p : Phrase) (s : State) : Host.Outcome State Fault Refusal :=
  .next { s with dec := (c2pInsert p s.dec).1, c2pResult := .assigned (c2pInsert p s.dec).2 }

end Sys2Proof.Machine
end

