-- ==== Sys2Proof/Machine/Dispatch.lean ====
section
/-! DEFINITION. One arm per instruction. -/

namespace Sys2Proof.Machine

def exec (i : Instr) (s : State) : Host.Outcome State Fault Refusal :=
  match i with
  | .encStart => Sys2Proof.Machine.execEncStart s
  | .encSym operand => Sys2Proof.Machine.execEncSym operand s
  | .encEnd => Sys2Proof.Machine.execEncEnd s
  | .encRd index => Sys2Proof.Machine.execEncRd index s
  | .encStat n => Sys2Proof.Machine.execEncStat n s
  | .decStart => Sys2Proof.Machine.execDecStart s
  | .decCode c => Sys2Proof.Machine.execDecCode c s
  | .decEnd => Sys2Proof.Machine.execDecEnd s
  | .decRd index => Sys2Proof.Machine.execDecRd index s
  | .decStat n => Sys2Proof.Machine.execDecStat n s
  | .p2cInit => Sys2Proof.Machine.execP2cInit s
  | .p2cLookup p => Sys2Proof.Machine.execP2cLookup p s
  | .p2cInsert p => Sys2Proof.Machine.execP2cInsert p s
  | .c2pInit => Sys2Proof.Machine.execC2pInit s
  | .c2pLookup c => Sys2Proof.Machine.execC2pLookup c s
  | .c2pInsert p => Sys2Proof.Machine.execC2pInsert p s

end Sys2Proof.Machine
end

