-- ==== Sys2Proof/Machine/Ports.lean ====
section
/-! DEFINITION. How commands arrive (30_encoding.md R70, R83) and who moves (20_memory.md R60, R61). -/

namespace Sys2Proof.Machine

/-- ENC handles a command word it has consumed (R83): a word that decodes runs the command; one that does not raises
IllegalCommand (R76, R77). -/
def encHandle (w : Nat) (s : State) : Host.Outcome State Fault Refusal :=
  match decodeCommand .encCmd s.params w with
  | .ok i => exec i s
  | .error _ => s.finishEnc (raised s.params .illegalCommand s.enc)

/-- DEC handles a command word it has consumed (R83). -/
def decHandle (w : Nat) (s : State) : Host.Outcome State Fault Refusal :=
  match decodeCommand .decCmd s.params w with
  | .ok i => exec i s
  | .error _ => s.finishDec (raised s.params .illegalCommand s.dec)

/-- ENC moves: it consumes the next word of `enc_cmd`. With no word presented it waits (R215); while `rst` is asserted a
command is not consumed (R210). -/
def encTurn (s : State) : Host.Outcome State Fault Refusal :=
  if s.rst then .next s
  else
    match s.encCmd with
    | [] => .next s
    | w :: ws => encHandle w { s with encCmd := ws }

/-- DEC moves: it consumes the next word of `dec_cmd`, likewise. -/
def decTurn (s : State) : Host.Outcome State Fault Refusal :=
  if s.rst then .next s
  else
    match s.decCmd with
    | [] => .next s
    | w :: ws => decHandle w { s with decCmd := ws }

/-- The next move. When `turns` names none, an engine that has a word to consume moves, ENC before DEC (log 1). -/
def advance (s : State) : Host.Outcome State Fault Refusal :=
  match s.turns with
  | .enc :: ts => encTurn { s with turns := ts }
  | .dec :: ts => decTurn { s with turns := ts }
  | .rst level :: ts => .next (State.driveRst { s with turns := ts } level)
  | [] => if s.encCmd = [] then decTurn s else encTurn s

end Sys2Proof.Machine
end

