-- ==== Sys2Proof/Machine/Step.lean ====
section
/-! DEFINITION. One step of the machine: one move of one engine, or of the `rst` line. -/

namespace Sys2Proof.Machine

/-- One step (R6): one command consumed and answered in one atomic transition, or one change of `rst`, or nothing when
nobody has anything to do. -/
def step (s : State) : Host.Outcome State Fault Refusal := advance s

/-- `s` with one command word presented as the very next thing to be consumed (log 11): the word goes to the front of the
command port of its opcode's kind, that engine moves next, and `rst` is released. -/
def State.withFetchWord (s : State) (nbits w : Nat) : State :=
  match portOfWord (w % 2 ^ nbits) with
  | .encCmd => { s with encCmd := (w % 2 ^ nbits) :: s.encCmd, turns := .enc :: s.turns, rst := false }
  | .decCmd => { s with decCmd := (w % 2 ^ nbits) :: s.decCmd, turns := .dec :: s.turns, rst := false }

end Sys2Proof.Machine
end

