-- ==== Sys2Proof/Machine/Runs.lean ====
section
/-! DEFINITION. Whole runs (43_run_contracts.md): the pseudo-instructions ENCODE and DECODE as command sequences
(30_encoding.md R82), the pure functions `enc` and `dec` they are held to (R160, R161), and which codeword sequences are
valid (R161 (b)). -/

namespace Sys2Proof.Machine

/-- The commands of a list, one after the other, stopping at the first that does not answer a next state. -/
def runCommands (is : List Instr) (s : State) : Host.Outcome State Fault Refusal :=
  match is with
  | [] => .next s
  | i :: rest =>
    match exec i s with
    | .next t => runCommands rest t
    | .fault r => .fault r
    | .refused r => .refused r

/-- The expansion of `ENCODE [s0, ..., s(n-1)]` (R82). -/
def encodeExpansion (syms : List Nat) : List Instr := .encStart :: (syms.map .encSym ++ [.encEnd])

/-- The expansion of `DECODE [c0, ..., c(n-1)]` (R82). -/
def decodeExpansion (codes : List Nat) : List Instr := .decStart :: (codes.map .decCode ++ [.decEnd])

/-- The word the assembler emits for a command (R81); a table operation has none. -/
def wordOf (i : Instr) : Option Nat :=
  match encode i with
  | .command _ w => some w
  | .table _ _ _ => none

/-- The words a list of commands is on its port (R81). -/
def wordsOf (is : List Instr) : List Nat := is.filterMap wordOf

/-- The loop of the document's encoder (R160): table, next unused codeword, prefix, output so far. -/
def encLoop (t : P2cTable) (next : Nat) (p : Phrase) (out : List Nat) (xs : List Symbol) : List Nat :=
  match xs with
  | [] => if p = [] then out else out ++ (p2cRead p t).toList
  | x :: rest =>
    if (p2cRead (p ++ [x]) t).isSome then encLoop t next (p ++ [x]) out rest
    else encLoop (t ++ [(p ++ [x], next)]) (next + 1) [x] (out ++ (p2cRead p t).toList) rest

/-- The pure function `enc` (R160). -/
def enc (xs : List Symbol) : List Nat := encLoop p2cPreload 256 [] [] xs

/-- The phrase a table binds to a codeword, `[]` where it binds none: `w_k` of R166 is that of `c_k`. -/
def phraseAt (t : C2pTable) (c : Nat) : Phrase := t[c]?.getD []

/-- The phrase a later codeword stands for in the pure decoder (R161): bound, or the prefix with its first symbol. -/
def decodedPhrase (t : C2pTable) (p : Phrase) (c : Nat) : Phrase :=
  if c < t.length then phraseAt t c else p ++ p.take 1

/-- The loop of the document's decoder (R161). -/
def decLoop (t : C2pTable) (p : Phrase) (out : List Symbol) (cs : List Nat) : List Symbol :=
  match cs with
  | [] => out
  | c :: rest =>
    decLoop (t ++ [p ++ (decodedPhrase t p c).take 1]) (decodedPhrase t p c) (out ++ decodedPhrase t p c) rest

/-- The pure function `dec` (R161), meant for a valid sequence; the empty sequence, for which R161 defines nothing, gives
the empty output. -/
def dec (cs : List Nat) : List Symbol :=
  match cs with
  | [] => []
  | c :: rest => decLoop c2pPreload (phraseAt c2pPreload c) (phraseAt c2pPreload c) rest

/-- Every codeword is at most the value `next_code` has when it is examined (R161 (b)). -/
def laterValid (next : Nat) (cs : List Nat) : Bool :=
  match cs with
  | [] => true
  | c :: rest => decide (c ≤ next) && laterValid (next + 1) rest

/-- A non-empty codeword sequence that a decoder run accepts: `c0 < 256` and `c_k <= 256 + k - 1` for every `k >= 1`
(R161). -/
def validCodes (cs : List Nat) : Bool :=
  match cs with
  | [] => false
  | c :: rest => decide (c < 256) && laterValid 256 rest

end Sys2Proof.Machine
end

