-- ==== Sys2Proof/Machine/Assembler.lean ====
section
/-! DEFINITION. The assembler syntax of 30_encoding.md R81 and the pseudo-instructions of R82 on lists of characters: one
command per line, decimal, hexadecimal or character operands, a semicolon starts a comment. What the rules leave open of
white space, of characters in quotes and of malformed lines is in log 13. -/

namespace Sys2Proof.Machine.Asm

/-- White space between the parts of a line. -/
def isBlank (ch : Char) : Bool := ch = ' ' || ch = '\t'

/-- The rest of a line after leading white space. -/
def skipBlanks (cs : List Char) : List Char := cs.dropWhile isBlank

/-- Nothing more on the line but white space and a comment (R81). -/
def atEnd (cs : List Char) : Bool :=
  match skipBlanks cs with
  | [] => true
  | ch :: _ => ch = ';'

/-- The value of a hexadecimal digit. -/
def hexDigit (ch : Char) : Option Nat :=
  if '0' ≤ ch ∧ ch ≤ '9' then some (ch.toNat - '0'.toNat)
  else if 'A' ≤ ch ∧ ch ≤ 'F' then some (ch.toNat - 'A'.toNat + 10)
  else if 'a' ≤ ch ∧ ch ≤ 'f' then some (ch.toNat - 'a'.toNat + 10)
  else none

/-- The value of a digit below the base. -/
def digit (base : Nat) (ch : Char) : Option Nat :=
  match hexDigit ch with
  | some v => if v < base then some v else none
  | none => none

/-- The number digits stand for, most significant first, continuing from `acc`. -/
def digits (base acc : Nat) (cs : List Char) : Option Nat :=
  match cs with
  | [] => some acc
  | ch :: rest =>
    match digit base ch with
    | some v => digits base (acc * base + v) rest
    | none => none

/-- A character that belongs to a number as written. -/
def isNumberChar (ch : Char) : Bool := ch.isAlphanum

/-- A decimal number (`97`) or a hexadecimal one (`0x61`), and the rest of the line (R81). -/
def number (cs : List Char) : Option (Nat × List Char) :=
  match cs.takeWhile isNumberChar with
  | [] => none
  | '0' :: 'x' :: h :: hs => (digits 16 0 (h :: hs)).map fun v => (v, cs.dropWhile isNumberChar)
  | d :: ds => (digits 10 0 (d :: ds)).map fun v => (v, cs.dropWhile isNumberChar)

/-- The byte value of a character in quotes (R81, R82): for one below 128 the 7-bit code of 93_implementation_defined.md GK1.
The spec gives none above (U7 leaves the mapping to the host). DESIGN CHOICE (log 13): from 128 to 255 the byte value is the
character's Unicode code point, and a character above 255 has none. -/
def byteOf (ch : Char) : Option Nat := if ch.toNat < 256 then some ch.toNat else none

/-- An operand: a number, or a character in single quotes meaning its byte value (R81). R81 does not say whether a semicolon in
single quotes starts a comment. DESIGN CHOICE (log 13): any character between two single quotes stands for its byte value, so
`';'` is 59, and a single quote between two of them is 39. -/
def operand (cs : List Char) : Option (Nat × List Char) :=
  match cs with
  | '\'' :: ch :: '\'' :: rest => (byteOf ch).map fun v => (v, rest)
  | _ => number cs

/-- A character a mnemonic is written with; upper case only (R81). -/
def isMnemonicChar (ch : Char) : Bool := ('A' ≤ ch ∧ ch ≤ 'Z') || ch = '_'

/-- The port and the opcode of a mnemonic: its prefix names the port (R74, R75, R81). -/
def opcodeOf (m : List Char) : Option (CmdPort × Nat) :=
  match m with
  | ['E', 'N', 'C', '_', 'S', 'T', 'A', 'R', 'T'] => some (.encCmd, 1)
  | ['E', 'N', 'C', '_', 'S', 'Y', 'M'] => some (.encCmd, 2)
  | ['E', 'N', 'C', '_', 'E', 'N', 'D'] => some (.encCmd, 3)
  | ['E', 'N', 'C', '_', 'R', 'D'] => some (.encCmd, 4)
  | ['E', 'N', 'C', '_', 'S', 'T', 'A', 'T'] => some (.encCmd, 5)
  | ['D', 'E', 'C', '_', 'S', 'T', 'A', 'R', 'T'] => some (.decCmd, 9)
  | ['D', 'E', 'C', '_', 'C', 'O', 'D', 'E'] => some (.decCmd, 10)
  | ['D', 'E', 'C', '_', 'E', 'N', 'D'] => some (.decCmd, 11)
  | ['D', 'E', 'C', '_', 'R', 'D'] => some (.decCmd, 12)
  | ['D', 'E', 'C', '_', 'S', 'T', 'A', 'T'] => some (.decCmd, 13)
  | _ => none

/-- The characters of a string argument up to the closing double quote, as byte values, and the rest of the line (R82). A
semicolon among them starts no comment, DESIGN CHOICE (log 13). -/
def quoted (cs : List Char) : Option (List Nat × List Char) :=
  match cs with
  | [] => none
  | '"' :: rest => some ([], rest)
  | ch :: rest =>
    match byteOf ch, quoted rest with
    | some v, some (vs, after) => some (v :: vs, after)
    | _, _ => none

/-- The operands of a list argument after its opening bracket, separated by commas, up to the closing bracket (R82). An
operand is any of the three forms of R81, DESIGN CHOICE (log 13). The fuel bounds the number of operands; a line has no more than characters. -/
def listed (fuel : Nat) (cs : List Char) : Option (List Nat × List Char) :=
  match fuel with
  | 0 => none
  | n + 1 =>
    match operand (skipBlanks cs) with
    | none => none
    | some (v, rest) =>
      match skipBlanks rest with
      | ']' :: after => some ([v], after)
      | ',' :: more => (listed n more).map fun r => (v :: r.1, r.2)
      | _ => none

/-- The argument of a pseudo-instruction: a string in double quotes or a list in square brackets (R82). -/
def argument (cs : List Char) : Option (List Nat × List Char) :=
  match cs with
  | '"' :: rest => quoted rest
  | '[' :: rest =>
    match skipBlanks rest with
    | ']' :: after => some ([], after)
    | more => listed more.length more
  | _ => none

/-- The words of a command list, with the port each goes to. -/
def emit (port : CmdPort) (is : List Instr) : List (CmdPort × Nat) :=
  (wordsOf is).map fun w => (port, w)

/-- The expansion of a pseudo-instruction as words on its port (R82). -/
def expand (m : List Char) (args : List Nat) : Option (List (CmdPort × Nat)) :=
  match m with
  | ['E', 'N', 'C', 'O', 'D', 'E'] => some (emit .encCmd (encodeExpansion args))
  | ['D', 'E', 'C', 'O', 'D', 'E'] => some (emit .decCmd (decodeExpansion args))
  | _ => none

/-- A line that starts with mnemonic `m` and goes on with `rest`: the word `operand * 16 + opcode`, 0 for an absent operand.
An operand is encoded as written, whatever the command: it is the engine that raises (R81). -/
def command (m rest : List Char) : Option (List (CmdPort × Nat)) :=
  match opcodeOf m with
  | some (port, op) =>
    if atEnd rest then some [(port, commandWord 0 op)]
    else
      match operand (skipBlanks rest) with
      | some (v, after) => if atEnd after then some [(port, commandWord v op)] else none
      | none => none
  | none =>
    match argument (skipBlanks rest) with
    | some (args, after) => if atEnd after then expand m args else none
    | none => none

/-- One line: the words it emits, in order; none when it is malformed (R81, R82). -/
def line (cs : List Char) : Option (List (CmdPort × Nat)) :=
  if atEnd cs then some []
  else command ((skipBlanks cs).takeWhile isMnemonicChar) ((skipBlanks cs).dropWhile isMnemonicChar)

/-- A program, line by line (R81). -/
def program (ls : List (List Char)) : Option (List (CmdPort × Nat)) :=
  match ls with
  | [] => some []
  | l :: rest =>
    match line l, program rest with
    | some a, some b => some (a ++ b)
    | _, _ => none

/-- What a port receives: its own lines' words, in the order written (R81). -/
def onPort (port : CmdPort) (ws : List (CmdPort × Nat)) : List Nat :=
  ws.filterMap fun x => if x.1 = port then some x.2 else none

end Sys2Proof.Machine.Asm
end

