-- ==== Sys2Proof/Safety.lean ====
section
/-! DEFINITION. What holds of the machine at every moment from reset on (10_state.md R35 to R37; 41_encoder.md R125, R126;
42_decoder.md R147): the invariant claims are stated with. -/

namespace Sys2Proof.Machine

/-- The machine after a raise of `e` in ENC, as R186 words it: in FAULT the sticky error is reported and nothing else changes;
otherwise the output is discarded, the cause stored, the phase FAULT, and the cause reported. -/
def raisedEnc (s : State) (e : Err) : State :=
  if s.enc.phase = .fault then { s with encRsp := s.encRsp ++ [s.enc.err.code] }
  else { s with enc := { s.enc with out := [], err := e, phase := .fault }, encRsp := s.encRsp ++ [e.code] }

/-- The machine after a raise of `e` in DEC, likewise (R186). -/
def raisedDec (s : State) (e : Err) : State :=
  if s.dec.phase = .fault then { s with decRsp := s.decRsp ++ [s.dec.err.code] }
  else { s with dec := { s.dec with out := [], err := e, phase := .fault }, decRsp := s.decRsp ++ [e.code] }

/-- The invariant of the encoder engine. -/
structure EncInv (p : Params) (x : Enc) : Prop where
  /-- `E.phase` is never `WAIT_FIRST` (R25). -/
  phase_ne_waitFirst : x.phase ≠ .waitFirst
  /-- `E.err` is not `NONE` exactly when the phase is `FAULT` (R26). -/
  err_iff_fault : x.err ≠ .none ↔ x.phase = .fault
  /-- The 256 preload bindings (R35 (a)). -/
  preload : x.table.take 256 = p2cPreload
  /-- The bound codewords are exactly 0 to `next_code - 1`, in the order assigned (R35 (b), (e), R24). -/
  codes : x.table.map Prod.snd = List.range x.nextCode
  /-- No phrase has two codewords (R37 (a)). -/
  keys_nodup : (x.table.map Prod.fst).Nodup
  /-- Prefix closure (R36). -/
  prefix_closed : ∀ q c, (q, c) ∈ x.table → 256 ≤ c → 2 ≤ q.length ∧ ∃ c', c' < c ∧ (q.dropLast, c') ∈ x.table
  /-- In `RUN` the prefix is `[]` or a key (R125). -/
  prefix_key : x.phase = .run → x.prefixReg = [] ∨ ∃ c, (x.prefixReg, c) ∈ x.table
  /-- In `RUN` an empty prefix means that no symbol has been consumed (R22, R125). -/
  fresh_run : x.phase = .run → x.prefixReg = [] → x.out = [] ∧ x.nextCode = 256
  /-- In `RUN` each emission came with one insertion (R121 (e), R126). -/
  run_count : x.phase = .run → x.prefixReg ≠ [] → x.nextCode = 256 + x.out.length
  /-- A completed run has one codeword more than it has new entries, or none of either (R126). -/
  done_count : x.phase = .done → (x.out = [] ∧ x.nextCode = 256) ∨ x.nextCode + 1 = 256 + x.out.length
  /-- `IDLE` is the state after reset (R25, R39). -/
  idle_reset : x.phase = .idle → x.prefixReg = [] ∧ x.out = [] ∧ x.nextCode = 256
  /-- After a raise the output is gone (R191). -/
  fault_out : x.phase = .fault → x.out = []
  /-- The codeword at index `k` is at most `255 + k` (R126). -/
  out_bound : ∀ k c, x.out[k]? = some c → c ≤ 255 + k
  /-- Every codeword emitted is bound (R126). -/
  out_codes : ∀ c ∈ x.out, c < x.nextCode
  /-- The table never exceeds `DICT_CAP`, the output buffer never `OUT_CAP` (R5, R185). -/
  caps : exceeds x.nextCode p.dictCap = false ∧ exceeds x.out.length p.outCap = false

/-- The invariant of the decoder engine. -/
structure DecInv (p : Params) (x : Dec) : Prop where
  /-- `D.err` is not `NONE` exactly when the phase is `FAULT` (R26). -/
  err_iff_fault : x.err ≠ .none ↔ x.phase = .fault
  /-- The 256 preload entries (R35 (a)). -/
  preload : x.table.take 256 = c2pPreload
  /-- The bound codewords are exactly 0 to `next_code - 1` (R30, R35 (b)). -/
  size : x.table.length = x.nextCode
  /-- Prefix closure (R36). -/
  prefix_closed : ∀ c q, x.table[c]? = some q → 256 ≤ c → 2 ≤ q.length ∧ ∃ c', c' < c ∧ x.table[c']? = some q.dropLast
  /-- In `RUN` the prefix is an entry (R147). -/
  prefix_entry : x.phase = .run → x.prefixReg ∈ x.table
  /-- Before the first codeword nothing has been produced (R23, R39, R140). -/
  early : x.phase = .idle ∨ x.phase = .waitFirst → x.prefixReg = [] ∧ x.out = [] ∧ x.nextCode = 256
  /-- From the first codeword on there is output (R144 (d)). -/
  out_nonempty : x.phase = .run ∨ x.phase = .done → x.out ≠ []
  /-- After a raise the output is gone (R191). -/
  fault_out : x.phase = .fault → x.out = []
  /-- The table never exceeds `DICT_CAP`, the output buffer never `OUT_CAP` (R5, R185). -/
  caps : exceeds x.nextCode p.dictCap = false ∧ exceeds x.out.length p.outCap = false

/-- The invariant of the machine: the parameters meet R5, each engine meets its own. It is one of the state alone, so it
speaks of every state that meets it, not only of those a run from reset reaches. -/
structure Inv (s : State) : Prop where
  params_valid : s.params.valid = true
  enc : EncInv s.params s.enc
  dec : DecInv s.params s.dec

end Sys2Proof.Machine
end

