-- ==== Sys2Proof/Certificates/Slice0/Obligations.lean ====
section
/-! DEFINITION. The statements for the provers. Each docstring names the rules of spec/ it formalises. -/

open Sys2Proof Sys2Proof.Machine

/-! ## Reset, the ports and the step -/

/-- R39: every piece of state of both engines after reset, the CSRs among it; for every realisation, and the normative one is
the reset state of the model. -/
def Obligations.ResetLeavesStatedValues : Prop :=
  State.reset = State.resetWith Params.normative ∧
  ∀ p : Params,
    ((State.resetWith p).enc.phase = .idle ∧ (State.resetWith p).enc.err = .none ∧
      (State.resetWith p).enc.prefixReg = [] ∧ (State.resetWith p).enc.nextCode = 256 ∧ (State.resetWith p).enc.out = [] ∧
      ∀ q c, (q, c) ∈ (State.resetWith p).enc.table ↔ ∃ k : Sys2Proof.Symbol, q = [k] ∧ c = k.val) ∧
    ((State.resetWith p).dec.phase = .idle ∧ (State.resetWith p).dec.err = .none ∧
      (State.resetWith p).dec.prefixReg = [] ∧ (State.resetWith p).dec.nextCode = 256 ∧ (State.resetWith p).dec.out = [] ∧
      ∀ c q, c2pRead c (State.resetWith p).dec.table = some q ↔ ∃ k : Sys2Proof.Symbol, c = k.val ∧ q = [k]) ∧
    ((State.resetWith p).enc.csr 0 = some 0 ∧ (State.resetWith p).enc.csr 1 = some 0 ∧
      (State.resetWith p).enc.csr 2 = some 256) ∧
    ((State.resetWith p).dec.csr 0 = some 0 ∧ (State.resetWith p).dec.csr 1 = some 0 ∧
      (State.resetWith p).dec.csr 2 = some 256)

/-- R210: asserting `rst` gives both engines their reset values and produces no response; releasing it changes only the line;
while it is asserted a command presented is not consumed and nothing changes. That `rst` is a level the host drives in turns
of its own is the model's choice (log 5). -/
def Obligations.ResetLineResetsBothEngines : Prop :=
  ∀ (s : State) (ts : List Turn),
    (s.turns = .rst true :: ts →
      step s = .next { s with turns := ts, rst := true, enc := (State.resetWith s.params).enc,
                              dec := (State.resetWith s.params).dec }) ∧
    (s.turns = .rst false :: ts → step s = .next { s with turns := ts, rst := false }) ∧
    (s.rst = true → s.turns = .enc :: ts ∨ s.turns = .dec :: ts → step s = .next { s with turns := ts }) ∧
    (s.rst = true → s.turns = [] → step s = .next s)

/-- R83: the word at the head of a command port is handled by the instruction it decodes to, and one that does not decode by
the raise of IllegalCommand. With it stands what the step adds around exec: the turn is used up and the word is taken off
its port. When no turn is named ENC moves before DEC, the model's choice (log 1). -/
def Obligations.StepHandlesTheNextWord : Prop :=
  ∀ (s : State) (w : Nat) (ws : List Nat) (ts : List Turn), s.rst = false →
    (s.encCmd = w :: ws →
      (∀ i, decodeCommand .encCmd s.params w = .ok i →
        (s.turns = .enc :: ts → step s = exec i { s with turns := ts, encCmd := ws }) ∧
        (s.turns = [] → step s = exec i { s with encCmd := ws })) ∧
      (∀ r, decodeCommand .encCmd s.params w = .error r →
        (s.turns = .enc :: ts → step s = .next (raisedEnc { s with turns := ts, encCmd := ws } .illegalCommand)) ∧
        (s.turns = [] → step s = .next (raisedEnc { s with encCmd := ws } .illegalCommand)))) ∧
    (s.decCmd = w :: ws →
      (∀ i, decodeCommand .decCmd s.params w = .ok i →
        (s.turns = .dec :: ts → step s = exec i { s with turns := ts, decCmd := ws }) ∧
        (s.turns = [] → s.encCmd = [] → step s = exec i { s with decCmd := ws })) ∧
      (∀ r, decodeCommand .decCmd s.params w = .error r →
        (s.turns = .dec :: ts → step s = .next (raisedDec { s with turns := ts, decCmd := ws } .illegalCommand)) ∧
        (s.turns = [] → s.encCmd = [] → step s = .next (raisedDec { s with decCmd := ws } .illegalCommand))))

/-- R215: an engine with no command presented waits, keeping all state. That the moves are named by turns is the model's choice
(log 1). -/
def Obligations.EngineWaitsForItsNextCommand : Prop :=
  ∀ (s : State) (ts : List Turn),
    (s.turns = .enc :: ts → s.encCmd = [] → step s = .next { s with turns := ts }) ∧
    (s.turns = .dec :: ts → s.decCmd = [] → step s = .next { s with turns := ts }) ∧
    (s.turns = [] → s.encCmd = [] → s.decCmd = [] → step s = .next s)

/-- R70: exactly one response for each command consumed, on the port of the engine that consumed it, after the responses
before it; no step changes the parameters (log 2). -/
def Obligations.OneResponsePerCommand : Prop :=
  ∀ s t : State, step s = .next t →
    (∃ ws rs, s.encCmd = ws ++ t.encCmd ∧ t.encRsp = s.encRsp ++ rs ∧ rs.length = ws.length) ∧
    (∃ ws rs, s.decCmd = ws ++ t.decCmd ∧ t.decRsp = s.decRsp ++ rs ∧ rs.length = ws.length) ∧
    t.params = s.params

/-- R70: no command is ever left unanswered. From a state that meets the invariant, with `rst` released and no turns named,
as many steps as there are commands presented answer them all. -/
def Obligations.EveryPresentedCommandIsAnswered : Prop :=
  ∀ s : State, Inv s → s.rst = false → s.turns = [] →
    ∃ t : State, Host.Core.run Sys2Proof.core (s.encCmd.length + s.decCmd.length) s = .next t ∧ t.encCmd = [] ∧ t.decCmd = [] ∧
      t.encRsp.length = s.encRsp.length + s.encCmd.length ∧ t.decRsp.length = s.decRsp.length + s.decCmd.length ∧ Inv t

/-- R72: the response word. Its err field, bit 3 and data field, for data the field can carry; and whatever the data, a word of
`OPW + 4` bits (the data of a value that does not fit is the free value of log 3). -/
def Obligations.ResponseWordLayout : Prop :=
  ∀ (p : Params) (e : Err) (d : Nat),
    (p.operandFits d = true → respond p e d = d * 16 + e.code) ∧
    respond p e d % 8 = e.code ∧ respond p e d / 8 % 2 = 0 ∧
    (∀ n, p.opw = .finite n → respond p e d < 2 ^ (n + 4)) ∧
    respond p e 0 = e.code

/-- R32, and R31: the three registers are views of the state; STATUS has the phase in bits 2:0, the error in bits 6:4 and zeros
elsewhere, and is 0 after reset; numbers 3 and above are reserved; and the numbers of the phases and of the errors. -/
def Obligations.StatusRegistersAreViews : Prop :=
  (∀ x : Enc, (∃ v, x.csr 0 = some v ∧ v % 8 = x.phase.code ∧ v / 8 % 2 = 0 ∧ v / 16 % 8 = x.err.code ∧ v / 128 = 0) ∧
    x.csr 1 = some x.out.length ∧ x.csr 2 = some x.nextCode ∧ ∀ n, 3 ≤ n → x.csr n = none) ∧
  (∀ x : Dec, (∃ v, x.csr 0 = some v ∧ v % 8 = x.phase.code ∧ v / 8 % 2 = 0 ∧ v / 16 % 8 = x.err.code ∧ v / 128 = 0) ∧
    x.csr 1 = some x.out.length ∧ x.csr 2 = some x.nextCode ∧ ∀ n, 3 ≤ n → x.csr n = none) ∧
  (Phase.idle.code = 0 ∧ Phase.waitFirst.code = 1 ∧ Phase.run.code = 2 ∧ Phase.done.code = 3 ∧ Phase.fault.code = 4) ∧
  (Err.none.code = 0 ∧ Err.emptyInput.code = 1 ∧ Err.invalidCodeword.code = 2 ∧ Err.unsupportedSymbol.code = 3 ∧
    Err.illegalCommand.code = 4 ∧ Err.capacityExhausted.code = 5) ∧
  (∀ p : Params, (State.resetWith p).enc.csr 0 = some 0 ∧ (State.resetWith p).dec.csr 0 = some 0)

/-! ## Encoding -/

/-- R71, R74, R75, R80: decoding what the encoder writes for a well-formed instruction gives the instruction back, for all
sixteen rows and on every realisation. -/
def Obligations.DecodeInvertsEncode : Prop :=
  ∀ (p : Params) (i : Instr), i.wf p = true → decode p (encode i) = .ok i

/-- R71, R79: a command word has no bit that decoding drops: what decodes encodes back to the same word on the same port, if the
word is one the port can carry. And what decodes is well-formed and a host command: no word reaches a table (R59, R80). -/
def Obligations.EncodeInvertsDecode : Prop :=
  ∀ (port : CmdPort) (p : Params) (w : Nat) (i : Instr), decodeCommand port p w = .ok i →
    i.wf p = true ∧ i.isHostCommand = true ∧ (p.operandFits (w / 16) = true → encode i = .command port w)

/-- R76, R77: a word whose opcode is reserved on its port, and a START or END word with a non-zero operand, are rejected, and the
engine raises IllegalCommand, whatever the operand and whatever the phase. -/
def Obligations.ReservedWordsRaiseIllegalCommand : Prop :=
  ∀ (s : State) (w : Nat),
    (w % 16 ∉ [1, 2, 3, 4, 5] → decodeCommand .encCmd s.params w = .error .reservedOpcode ∧
      encHandle w s = .next (raisedEnc s .illegalCommand)) ∧
    (w % 16 ∉ [9, 10, 11, 12, 13] → decodeCommand .decCmd s.params w = .error .reservedOpcode ∧
      decHandle w s = .next (raisedDec s .illegalCommand)) ∧
    (w % 16 ∈ [1, 3] → operandField s.params w ≠ 0 → decodeCommand .encCmd s.params w = .error .operandNotZero ∧
      encHandle w s = .next (raisedEnc s .illegalCommand)) ∧
    (w % 16 ∈ [9, 11] → operandField s.params w ≠ 0 → decodeCommand .decCmd s.params w = .error .operandNotZero ∧
      decHandle w s = .next (raisedDec s .illegalCommand))

/-- R71, R74, R75, V19, R80: words the spec writes out decode to the instructions it says they are. -/
def Obligations.SpecWordsDecode : Prop :=
  decodeCommand .encCmd .normative 0x1 = .ok .encStart ∧
  decodeCommand .encCmd .normative 0x612 = .ok (.encSym 97) ∧
  decodeCommand .encCmd .normative 0xFF2 = .ok (.encSym 255) ∧
  decodeCommand .encCmd .normative 0x14 = .ok (.encRd 1) ∧
  decodeCommand .encCmd .normative 0x25 = .ok (.encStat 2) ∧
  decodeCommand .decCmd .normative 0x9 = .ok .decStart ∧
  decodeCommand .decCmd .normative 0x100A = .ok (.decCode 256) ∧
  decodeCommand .decCmd .normative 0x270FA = .ok (.decCode 9999) ∧
  decodeCommand .decCmd .normative 0x3C = .ok (.decRd 3) ∧
  decode .normative (.table .p2c 0b10#2 (.phrase [97, 97])) = .ok (.p2cLookup [97, 97]) ∧
  decode .normative (.table .c2p 0b11#2 (.phrase [97, 97])) = .ok (.c2pInsert [97, 97])

/-- R81: for every mnemonic, a line of the mnemonic, a space and a decimal operand assembles to the one word
`operand * 16 + opcode` on the mnemonic's port, whatever the operand. -/
def Obligations.AssemblerEncodesDecimalOperands : Prop :=
  ∀ (m ds : List Char) (port : CmdPort) (op v : Nat), Asm.opcodeOf m = some (port, op) → ds ≠ [] →
    Asm.digits 10 0 ds = some v → Asm.line (m ++ ' ' :: ds) = some [(port, commandWord v op)]

/-! ## Invariants -/

/-- R35, R39: the invariant and the canonical form of memory hold right after reset, on every realisation R5 admits. -/
def Obligations.ResetMeetsTheInvariant : Prop :=
  (∀ p : Params, p.valid = true → Inv (State.resetWith p) ∧ Memory.wf (State.resetWith p) = true) ∧ Inv State.reset

/-- R35, R36, R37 (a), R125, R126, R147: the invariant is kept by every step, from every state that meets it. -/
def Obligations.EveryStepKeepsTheInvariant : Prop :=
  ∀ s t : State, Inv s → step s = .next t → Inv t

/-- R9, R78: a transition is total. From every state that meets the invariant a step answers a next state. -/
def Obligations.NoStepStops : Prop :=
  ∀ s : State, Inv s → ∃ t, step s = .next t

/-- R51, R52, R30: every step, and every instruction that is executed, keeps the memories in canonical form. -/
def Obligations.EveryStepKeepsMemoryCanonical : Prop :=
  (∀ s t : State, Memory.wf s = true → step s = .next t → Memory.wf t = true) ∧
  (∀ (i : Instr) (s t : State), Memory.wf s = true → exec i s = .next t → Memory.wf t = true)

/-- R36: every phrase in a table is non-empty; an entry with codeword `c >= 256` has length at least 2 and at most `c - 254`, and
all of it but its last symbol is in the table under a smaller codeword. -/
def Obligations.PhraseLengthIsBoundedByItsCodeword : Prop :=
  (∀ (p : Params) (x : Enc), EncInv p x → ∀ q c, p2cRead q x.table = some c → q ≠ [] ∧
    (256 ≤ c → 2 ≤ q.length ∧ q.length ≤ c - 254 ∧ ∃ c', c' < c ∧ p2cRead q.dropLast x.table = some c')) ∧
  (∀ (p : Params) (x : Dec), DecInv p x → ∀ c q, c2pRead c x.table = some q → q ≠ [] ∧
    (256 ≤ c → 2 ≤ q.length ∧ q.length ≤ c - 254 ∧ ∃ c', c' < c ∧ c2pRead c' x.table = some q.dropLast))

/-- The model's own stops (log 7): the reads R52, R125 and R147 say never happen end in a fault of their own name, and no
instruction is refused in any state. -/
def Obligations.ImpossibleReadsStopByName : Prop :=
  (∀ (s : State) (a : Sys2Proof.Symbol), s.enc.phase = .run → p2cRead (s.enc.prefixReg ++ [a]) s.enc.table = none →
    reaches s.enc.out.length s.params.outCap = false → reaches s.enc.nextCode s.params.dictCap = false →
    p2cRead s.enc.prefixReg s.enc.table = none → exec (.encSym a.val) s = .fault .unboundPhrase) ∧
  (∀ s : State, s.enc.phase = .run → s.enc.prefixReg ≠ [] → reaches s.enc.out.length s.params.outCap = false →
    p2cRead s.enc.prefixReg s.enc.table = none → exec .encEnd s = .fault .unboundPhrase) ∧
  (∀ (s : State) (c : Nat), s.dec.phase = .run → c < s.dec.nextCode → c2pRead c s.dec.table = none →
    exec (.decCode c) s = .fault .unboundCodeword) ∧
  (∀ s : State, s.dec.phase = .run → s.dec.prefixReg = [] → exec (.decCode s.dec.nextCode) s = .fault .noFirstSymbol) ∧
  (∀ (s : State) (c : Nat), s.dec.phase = .run → c < s.dec.nextCode → c2pRead c s.dec.table = some [] →
    exceeds s.dec.out.length s.params.outCap = false → reaches s.dec.nextCode s.params.dictCap = false →
    exec (.decCode c) s = .fault .noFirstSymbol) ∧
  (∀ (i : Instr) (s : State) (r : Refusal), exec i s ≠ .refused r)

/-! ## The commands of the encoder engine -/

/-- R120: ENC_START. -/
def Obligations.EncStartBeginsAFreshRun : Prop :=
  ∀ s : State,
    (s.enc.phase = .idle ∨ s.enc.phase = .done ∨ s.enc.phase = .fault →
      exec .encStart s = .next { s with
        enc := { phase := .run, err := .none, prefixReg := [], nextCode := 256, out := [],
                 table := (State.resetWith s.params).enc.table }
        encRsp := s.encRsp ++ [0] }) ∧
    (s.enc.phase = .waitFirst ∨ s.enc.phase = .run → exec .encStart s = .next (raisedEnc s .illegalCommand)) ∧
    (∀ w, w % 16 = 1 → operandField s.params w = 0 → encHandle w s = exec .encStart s) ∧
    (∀ w, w % 16 = 1 → operandField s.params w ≠ 0 → encHandle w s = .next (raisedEnc s .illegalCommand))

/-- R121: ENC_SYM, in every phase and on every operand: illegal phase, unsupported symbol, candidate found, capacity
exhausted, and candidate not found, in the order of R189. The lookup of the prefix always hits (R125), so its hypothesis
holds in every state that meets the invariant. -/
def Obligations.EncSymConsumesOneSymbol : Prop :=
  ∀ s : State,
    (∀ w, w % 16 = 2 → encHandle w s = exec (.encSym (operandField s.params w)) s) ∧
    (∀ a, s.enc.phase ≠ .run → exec (.encSym a) s = .next (raisedEnc s .illegalCommand)) ∧
    (∀ a, s.enc.phase = .run → 256 ≤ a → exec (.encSym a) s = .next (raisedEnc s .unsupportedSymbol)) ∧
    (∀ (a : Sys2Proof.Symbol) (c : Nat), s.enc.phase = .run → p2cRead (s.enc.prefixReg ++ [a]) s.enc.table = some c →
      exec (.encSym a.val) s = .next { s with
        enc := { s.enc with prefixReg := s.enc.prefixReg ++ [a] }
        encRsp := s.encRsp ++ [0] }) ∧
    (∀ a : Sys2Proof.Symbol, s.enc.phase = .run → p2cRead (s.enc.prefixReg ++ [a]) s.enc.table = none →
      reaches s.enc.out.length s.params.outCap = true ∨ reaches s.enc.nextCode s.params.dictCap = true →
      exec (.encSym a.val) s = .next (raisedEnc s .capacityExhausted)) ∧
    (∀ (a : Sys2Proof.Symbol) (c : Nat), s.enc.phase = .run → p2cRead (s.enc.prefixReg ++ [a]) s.enc.table = none →
      reaches s.enc.out.length s.params.outCap = false → reaches s.enc.nextCode s.params.dictCap = false →
      p2cRead s.enc.prefixReg s.enc.table = some c →
      exec (.encSym a.val) s = .next { s with
        enc := { s.enc with
          out := s.enc.out ++ [c]
          table := s.enc.table ++ [(s.enc.prefixReg ++ [a], s.enc.nextCode)]
          nextCode := s.enc.nextCode + 1
          prefixReg := [a] }
        encRsp := s.encRsp ++ [0] })

/-- R122: ENC_END, in every phase. (Here and below, the response of a value that does not fit a finite data field is the free
value of log 3; every value this command returns fits in a state that meets the invariant.) -/
def Obligations.EncEndCompletesTheRun : Prop :=
  ∀ s : State,
    (s.enc.phase ≠ .run → exec .encEnd s = .next (raisedEnc s .illegalCommand)) ∧
    (s.enc.phase = .run → s.enc.prefixReg = [] →
      exec .encEnd s = .next { s with
        enc := { s.enc with phase := .done }
        encRsp := s.encRsp ++ [respond s.params .none s.enc.out.length] }) ∧
    (s.enc.phase = .run → s.enc.prefixReg ≠ [] → reaches s.enc.out.length s.params.outCap = true →
      exec .encEnd s = .next (raisedEnc s .capacityExhausted)) ∧
    (∀ c, s.enc.phase = .run → s.enc.prefixReg ≠ [] → reaches s.enc.out.length s.params.outCap = false →
      p2cRead s.enc.prefixReg s.enc.table = some c →
      exec .encEnd s = .next { s with
        enc := { s.enc with out := s.enc.out ++ [c], phase := .done }
        encRsp := s.encRsp ++ [respond s.params .none (s.enc.out.length + 1)] }) ∧
    (∀ w, w % 16 = 3 → operandField s.params w = 0 → encHandle w s = exec .encEnd s) ∧
    (∀ w, w % 16 = 3 → operandField s.params w ≠ 0 → encHandle w s = .next (raisedEnc s .illegalCommand))

/-- R123: ENC_RD, in every phase and for every index (log 3 as for ENC_END). -/
def Obligations.EncRdReadsOneCodeword : Prop :=
  ∀ (s : State) (i : Nat),
    (∀ w, w % 16 = 4 → encHandle w s = exec (.encRd (operandField s.params w)) s) ∧
    (s.enc.phase ≠ .done → exec (.encRd i) s = .next (raisedEnc s .illegalCommand)) ∧
    (s.enc.phase = .done → s.enc.out.length ≤ i → exec (.encRd i) s = .next (raisedEnc s .illegalCommand)) ∧
    (∀ h : i < s.enc.out.length, s.enc.phase = .done →
      exec (.encRd i) s = .next { s with encRsp := s.encRsp ++ [respond s.params .none s.enc.out[i]] })

/-- R124: ENC_STAT, in every phase and for every number. NEXT_CODE = 2^OPW does not fit a finite data field: its response
is the model's free value (log 3). -/
def Obligations.EncStatReadsARegister : Prop :=
  ∀ s : State,
    (∀ w, w % 16 = 5 → encHandle w s = exec (.encStat (operandField s.params w)) s) ∧
    exec (.encStat 0) s = .next { s with
      encRsp := s.encRsp ++ [respond s.params .none (s.enc.phase.code + 16 * s.enc.err.code)] } ∧
    exec (.encStat 1) s = .next { s with encRsp := s.encRsp ++ [respond s.params .none s.enc.out.length] } ∧
    exec (.encStat 2) s = .next { s with encRsp := s.encRsp ++ [respond s.params .none s.enc.nextCode] } ∧
    ∀ n, 2 < n → exec (.encStat n) s = .next (raisedEnc s .illegalCommand)

/-! ## The commands of the decoder engine -/

/-- R140: DEC_START. -/
def Obligations.DecStartBeginsAFreshRun : Prop :=
  ∀ s : State,
    (s.dec.phase = .idle ∨ s.dec.phase = .done ∨ s.dec.phase = .fault →
      exec .decStart s = .next { s with
        dec := { phase := .waitFirst, err := .none, prefixReg := [], nextCode := 256, out := [],
                 table := (State.resetWith s.params).dec.table }
        decRsp := s.decRsp ++ [0] }) ∧
    (s.dec.phase = .waitFirst ∨ s.dec.phase = .run → exec .decStart s = .next (raisedDec s .illegalCommand)) ∧
    (∀ w, w % 16 = 9 → operandField s.params w = 0 → decHandle w s = exec .decStart s) ∧
    (∀ w, w % 16 = 9 → operandField s.params w ≠ 0 → decHandle w s = .next (raisedDec s .illegalCommand))

/-- R141: DEC_CODE, in every phase and on every codeword: illegal phase, the first codeword of a run, a later codeword that is
invalid, bound, or the next one to be assigned. C2P holds entries at exactly the addresses below `next_code` (R30). -/
def Obligations.DecCodeConsumesOneCodeword : Prop :=
  ∀ (s : State) (c : Nat), s.dec.table.length = s.dec.nextCode →
    (∀ w, w % 16 = 10 → decHandle w s = exec (.decCode (operandField s.params w)) s) ∧
    (s.dec.phase ≠ .waitFirst → s.dec.phase ≠ .run → exec (.decCode c) s = .next (raisedDec s .illegalCommand)) ∧
    (s.dec.phase = .waitFirst → 256 ≤ c → exec (.decCode c) s = .next (raisedDec s .invalidCodeword)) ∧
    (∀ h : c < 256, s.dec.phase = .waitFirst →
      exec (.decCode c) s = .next { s with
        dec := { s.dec with out := [⟨c, h⟩], prefixReg := [⟨c, h⟩], phase := .run }
        decRsp := s.decRsp ++ [0] }) ∧
    (s.dec.phase = .run → s.dec.nextCode < c → exec (.decCode c) s = .next (raisedDec s .invalidCodeword)) ∧
    (∀ (q : Phrase) (f : Sys2Proof.Symbol), s.dec.phase = .run → firstSymbol q = some f →
      (c < s.dec.nextCode ∧ c2pRead c s.dec.table = some q) ∨
        (c = s.dec.nextCode ∧ ∃ g, firstSymbol s.dec.prefixReg = some g ∧ q = s.dec.prefixReg ++ [g]) →
      (exceeds (s.dec.out.length + q.length) s.params.outCap = true ∨ reaches s.dec.nextCode s.params.dictCap = true →
        exec (.decCode c) s = .next (raisedDec s .capacityExhausted)) ∧
      (exceeds (s.dec.out.length + q.length) s.params.outCap = false → reaches s.dec.nextCode s.params.dictCap = false →
        exec (.decCode c) s = .next { s with
          dec := { s.dec with
            out := s.dec.out ++ q
            table := s.dec.table ++ [s.dec.prefixReg ++ [f]]
            nextCode := s.dec.nextCode + 1
            prefixReg := q }
          decRsp := s.decRsp ++ [0] }))

/-- R144: DEC_END, in every phase (log 3 as for ENC_END). -/
def Obligations.DecEndCompletesTheRunOrReportsEmptyInput : Prop :=
  ∀ s : State,
    (s.dec.phase ≠ .waitFirst → s.dec.phase ≠ .run → exec .decEnd s = .next (raisedDec s .illegalCommand)) ∧
    (s.dec.phase = .waitFirst → exec .decEnd s = .next (raisedDec s .emptyInput)) ∧
    (s.dec.phase = .run → exec .decEnd s = .next { s with
      dec := { s.dec with phase := .done }
      decRsp := s.decRsp ++ [respond s.params .none s.dec.out.length] }) ∧
    (∀ w, w % 16 = 11 → operandField s.params w = 0 → decHandle w s = exec .decEnd s) ∧
    (∀ w, w % 16 = 11 → operandField s.params w ≠ 0 → decHandle w s = .next (raisedDec s .illegalCommand)) ∧
    (∀ p, DecInv p s.dec → s.dec.phase = .run → s.dec.out ≠ [])

/-- R145: DEC_RD, in every phase and for every index (log 3 as for ENC_END). -/
def Obligations.DecRdReadsOneSymbol : Prop :=
  ∀ (s : State) (i : Nat),
    (∀ w, w % 16 = 12 → decHandle w s = exec (.decRd (operandField s.params w)) s) ∧
    (s.dec.phase ≠ .done → exec (.decRd i) s = .next (raisedDec s .illegalCommand)) ∧
    (s.dec.phase = .done → s.dec.out.length ≤ i → exec (.decRd i) s = .next (raisedDec s .illegalCommand)) ∧
    (∀ h : i < s.dec.out.length, s.dec.phase = .done →
      exec (.decRd i) s = .next { s with decRsp := s.decRsp ++ [respond s.params .none s.dec.out[i].val] })

/-- R146: DEC_STAT, in every phase and for every number (log 3 as for ENC_STAT). -/
def Obligations.DecStatReadsARegister : Prop :=
  ∀ s : State,
    (∀ w, w % 16 = 13 → decHandle w s = exec (.decStat (operandField s.params w)) s) ∧
    exec (.decStat 0) s = .next { s with
      decRsp := s.decRsp ++ [respond s.params .none (s.dec.phase.code + 16 * s.dec.err.code)] } ∧
    exec (.decStat 1) s = .next { s with decRsp := s.decRsp ++ [respond s.params .none s.dec.out.length] } ∧
    exec (.decStat 2) s = .next { s with decRsp := s.decRsp ++ [respond s.params .none s.dec.nextCode] } ∧
    ∀ n, 2 < n → exec (.decStat n) s = .next (raisedDec s .illegalCommand)

/-! ## The table operations -/

/-- R100, R101, R102: what the three operations of P2C do to the table and what they answer; they change nothing else. Three
clauses go beyond the rules and are the model's choices: the answer stands on result lines of the port in State (log 6); INIT is
decoded whatever the argument lines carry (log 15); INSERT is stated without R102's preconditions that `next_code < DICT_CAP` and
that the operand is a phrase (log 9). -/
def Obligations.P2cOperationsInitLookupInsert : Prop :=
  ∀ s : State,
    (∀ (p : Params) (arg : TableArg) (q : Phrase), decode p (.table .p2c 1#2 arg) = .ok .p2cInit ∧
      decode p (.table .p2c 2#2 (.phrase q)) = .ok (.p2cLookup q) ∧
      (q ≠ [] → decode p (.table .p2c 3#2 (.phrase q)) = .ok (.p2cInsert q))) ∧
    exec .p2cInit s = .next { s with
      enc := { s.enc with table := (State.resetWith s.params).enc.table, nextCode := 256 }, p2cResult := .none } ∧
    (∀ q, p2cRead q s.enc.table = none → exec (.p2cLookup q) s = .next { s with p2cResult := .lookup false none }) ∧
    (∀ q c, p2cRead q s.enc.table = some c → exec (.p2cLookup q) s = .next { s with p2cResult := .lookup true (some c) }) ∧
    (∀ q, p2cRead q s.enc.table = none → exec (.p2cInsert q) s = .next { s with
      enc := { s.enc with table := s.enc.table ++ [(q, s.enc.nextCode)], nextCode := s.enc.nextCode + 1 }
      p2cResult := .assigned s.enc.nextCode }) ∧
    (∀ p, EncInv p s.enc → ∀ k : Sys2Proof.Symbol, p2cRead [k] s.enc.table = some k.val)

/-- R103, R104, R105: what the three operations of C2P do to the table and what they answer; they change nothing else.
INSERT makes no test whether the phrase is there already. Three clauses go beyond the rules and are the model's choices: the
answer stands on result lines of the port in State (log 6); INIT is decoded whatever the argument lines carry (log 15); INSERT is
stated without R105's precondition `next_code < DICT_CAP` and for the empty sequence too (log 9). -/
def Obligations.C2pOperationsInitLookupInsert : Prop :=
  ∀ s : State,
    (∀ (p : Params) (arg : TableArg) (q : Phrase) (c : Nat), decode p (.table .c2p 1#2 arg) = .ok .c2pInit ∧
      (p.operandFits c = true → decode p (.table .c2p 2#2 (.code c)) = .ok (.c2pLookup c)) ∧
      (q ≠ [] → decode p (.table .c2p 3#2 (.phrase q)) = .ok (.c2pInsert q))) ∧
    exec .c2pInit s = .next { s with
      dec := { s.dec with table := (State.resetWith s.params).dec.table, nextCode := 256 }, c2pResult := .none } ∧
    (∀ c, s.dec.nextCode ≤ c → exec (.c2pLookup c) s = .next { s with c2pResult := .lookup false none }) ∧
    (∀ c q, c < s.dec.nextCode → c2pRead c s.dec.table = some q →
      exec (.c2pLookup c) s = .next { s with c2pResult := .lookup true (some q) }) ∧
    (∀ q, s.dec.table.length = s.dec.nextCode → exec (.c2pInsert q) s = .next { s with
      dec := { s.dec with table := s.dec.table ++ [q], nextCode := s.dec.nextCode + 1 }
      c2pResult := .assigned s.dec.nextCode }) ∧
    (∀ p, DecInv p s.dec → ∀ (c : Nat) (h : c < 256), c2pRead c s.dec.table = some [⟨c, h⟩])

/-- R51, R52, R60: after an INSERT the table reads the new entry at its address and every other address reads as before. The
table operation runs on every phrase, a key that is already there among them (log 9). -/
def Obligations.TableReadsAfterInsert : Prop :=
  (∀ (s : State) (q : Phrase), ∃ t, exec (.p2cInsert q) s = .next t ∧
    p2cRead q t.enc.table = some s.enc.nextCode ∧ ∀ r, r ≠ q → p2cRead r t.enc.table = p2cRead r s.enc.table) ∧
  (∀ (s : State) (q : Phrase), s.dec.table.length = s.dec.nextCode → ∃ t, exec (.c2pInsert q) s = .next t ∧
    c2pRead s.dec.nextCode t.dec.table = some q ∧
    ∀ c, c ≠ s.dec.nextCode → c2pRead c t.dec.table = c2pRead c s.dec.table)

/-! ## Frames -/

/-- R20: a command of an engine writes that engine's state and its response port only, and what it does to them depends on
that engine's state only (and on the parameters). -/
def Obligations.CommandsAreLocalToTheirEngine : Prop :=
  (∀ (i : Instr) (s t : State), i.isEncCommand = true → exec i s = .next t →
    (∃ r, t = { s with enc := t.enc, encRsp := s.encRsp ++ [r] } ∧
      ∀ s' : State, s'.enc = s.enc → s'.params = s.params →
        exec i s' = .next { s' with enc := t.enc, encRsp := s'.encRsp ++ [r] })) ∧
  (∀ (i : Instr) (s t : State), i.isDecCommand = true → exec i s = .next t →
    (∃ r, t = { s with dec := t.dec, decRsp := s.decRsp ++ [r] } ∧
      ∀ s' : State, s'.dec = s.dec → s'.params = s.params →
        exec i s' = .next { s' with dec := t.dec, decRsp := s'.decRsp ++ [r] }))

/-- The frame of the data commands and END inside one engine: which of the engine's registers each leaves alone when it does
not raise. ENC_SYM leaves the phase and the error; ENC_END the prefix, the counter, the table and the error; DEC_CODE the
error, and on the first codeword the table and the counter; DEC_END all but the phase; RD and STAT everything. -/
def Obligations.SuccessfulCommandsLeaveTheRest : Prop :=
  ∀ (s t : State),
    (∀ a, exec (.encSym a) s = .next t → t.enc.phase ≠ .fault →
      t.enc.phase = s.enc.phase ∧ t.enc.err = s.enc.err) ∧
    (exec .encEnd s = .next t → t.enc.phase ≠ .fault →
      t.enc.prefixReg = s.enc.prefixReg ∧ t.enc.nextCode = s.enc.nextCode ∧ t.enc.table = s.enc.table ∧
      t.enc.err = s.enc.err) ∧
    (∀ i, exec (.encRd i) s = .next t → t.enc.phase ≠ .fault → t.enc = s.enc) ∧
    (∀ n, exec (.encStat n) s = .next t → t.enc.phase ≠ .fault → t.enc = s.enc) ∧
    (∀ c, exec (.decCode c) s = .next t → t.dec.phase ≠ .fault → t.dec.err = s.dec.err ∧ t.dec.phase = .run) ∧
    (∀ c, s.dec.phase = .waitFirst → exec (.decCode c) s = .next t →
      t.dec.table = s.dec.table ∧ t.dec.nextCode = s.dec.nextCode) ∧
    (exec .decEnd s = .next t → t.dec.phase ≠ .fault → t.dec = { s.dec with phase := .done }) ∧
    (∀ i, exec (.decRd i) s = .next t → t.dec.phase ≠ .fault → t.dec = s.dec) ∧
    (∀ n, exec (.decStat n) s = .next t → t.dec.phase ≠ .fault → t.dec = s.dec)

/-- R35 (c): no binding is changed or removed by any command but START. Every address of a table that reads an entry before
the command reads the same entry after it. -/
def Obligations.BindingsArePermanentWithinARun : Prop :=
  ∀ (i : Instr) (s t : State), i.isHostCommand = true → i ≠ .encStart → i ≠ .decStart → Memory.wf s = true →
    exec i s = .next t →
    (∀ q c, p2cRead q s.enc.table = some c → p2cRead q t.enc.table = some c) ∧
    (∀ c q, c2pRead c s.dec.table = some q → c2pRead c t.dec.table = some q)

/-- R28, R53: an output buffer is set to `[]` by START and by a raise, grows at its end by a data command and by ENC_END, and is
changed by nothing else; no element once written changes. -/
def Obligations.OutputBuffersOnlyGrow : Prop :=
  ∀ (i : Instr) (s t : State), Inv s → i.isHostCommand = true → exec i s = .next t →
    ((i = .encStart ∨ t.enc.phase = .fault) ∧ t.enc.out = [] ∨
      ∃ l, t.enc.out = s.enc.out ++ l ∧ l.length ≤ 1 ∧ (l ≠ [] → i = .encEnd ∨ ∃ a, i = .encSym a)) ∧
    ((i = .decStart ∨ t.dec.phase = .fault) ∧ t.dec.out = [] ∨
      ∃ l, t.dec.out = s.dec.out ++ l ∧ (l ≠ [] → ∃ c, i = .decCode c))

/-! ## Errors and phases -/

/-- R190: after a command word, of whatever kind, that takes an engine into FAULT from another phase, that engine's output is
empty, its error is a cause, and every other piece of state is as it was; the response is the code of the error stored
(R186). -/
def Obligations.RaisesChangeNothingElse : Prop :=
  ∀ (w : Nat) (s t : State),
    (encHandle w s = .next t → s.enc.phase ≠ .fault → t.enc.phase = .fault → t.enc.err ≠ .none ∧
      t = { s with enc := { s.enc with out := [], err := t.enc.err, phase := .fault },
                   encRsp := s.encRsp ++ [t.enc.err.code] }) ∧
    (decHandle w s = .next t → s.dec.phase ≠ .fault → t.dec.phase = .fault → t.dec.err ≠ .none ∧
      t = { s with dec := { s.dec with out := [], err := t.dec.err, phase := .fault },
                   decRsp := s.decRsp ++ [t.dec.err.code] })

/-- R187: in FAULT every word but a legal START and a legal STAT changes no state and is answered with the sticky error; a legal
STAT changes no state either, so the error stays the first one until START. -/
def Obligations.FaultIsSticky : Prop :=
  ∀ (s : State) (w : Nat),
    (s.enc.phase = .fault → decodeCommand .encCmd s.params w ≠ .ok .encStart →
      (∀ n, n ≤ 2 → decodeCommand .encCmd s.params w ≠ .ok (.encStat n)) →
      encHandle w s = .next { s with encRsp := s.encRsp ++ [s.enc.err.code] }) ∧
    (∀ n, s.enc.phase = .fault → n ≤ 2 → decodeCommand .encCmd s.params w = .ok (.encStat n) →
      ∃ r, encHandle w s = .next { s with encRsp := s.encRsp ++ [r] }) ∧
    (s.dec.phase = .fault → decodeCommand .decCmd s.params w ≠ .ok .decStart →
      (∀ n, n ≤ 2 → decodeCommand .decCmd s.params w ≠ .ok (.decStat n)) →
      decHandle w s = .next { s with decRsp := s.decRsp ++ [s.dec.err.code] }) ∧
    (∀ n, s.dec.phase = .fault → n ≤ 2 → decodeCommand .decCmd s.params w = .ok (.decStat n) →
      ∃ r, decHandle w s = .next { s with decRsp := s.decRsp ++ [r] })

/-- R188, R210: the only ways out of FAULT are the engine's START, which clears the error and begins a fresh run, and reset, which the model
shows as a turn of the host (log 5). -/
def Obligations.OnlyStartOrResetLeavesFault : Prop :=
  ∀ s t : State, step s = .next t →
    (s.enc.phase = .fault → t.enc.phase ≠ .fault →
      (∃ ts, s.turns = .rst true :: ts) ∨
      ∃ w ws, s.encCmd = w :: ws ∧ decodeCommand .encCmd s.params w = .ok .encStart ∧ t.enc.phase = .run ∧
        t.enc.err = .none ∧ t.enc.table = (State.resetWith s.params).enc.table) ∧
    (s.dec.phase = .fault → t.dec.phase ≠ .fault →
      (∃ ts, s.turns = .rst true :: ts) ∨
      ∃ w ws, s.decCmd = w :: ws ∧ decodeCommand .decCmd s.params w = .ok .decStart ∧ t.dec.phase = .waitFirst ∧
        t.dec.err = .none ∧ t.dec.table = (State.resetWith s.params).dec.table)

/-- R171, ENC's table: the only moves of `E.phase` are reset, START from IDLE, DONE or FAULT to RUN, END from RUN to DONE, and a
raise into FAULT. -/
def Obligations.EncPhaseMovesAsTheTableSays : Prop :=
  ∀ s t : State, step s = .next t → t.enc.phase ≠ s.enc.phase →
    ((∃ ts, s.turns = .rst true :: ts) ∧ t.enc.phase = .idle) ∨
    (∃ w ws i, s.encCmd = w :: ws ∧ decodeCommand .encCmd s.params w = .ok i ∧
      ((i = .encStart ∧ (s.enc.phase = .idle ∨ s.enc.phase = .done ∨ s.enc.phase = .fault) ∧ t.enc.phase = .run) ∨
       (i = .encEnd ∧ s.enc.phase = .run ∧ t.enc.phase = .done))) ∨
    (s.enc.phase ≠ .fault ∧ t.enc.phase = .fault ∧ t.enc.out = [])

/-- R171, DEC's table: the only moves of `D.phase` are reset, START from IDLE, DONE or FAULT to WAIT_FIRST, the first codeword of
a run from WAIT_FIRST to RUN, END from RUN to DONE, and a raise into FAULT. -/
def Obligations.DecPhaseMovesAsTheTableSays : Prop :=
  ∀ s t : State, step s = .next t → t.dec.phase ≠ s.dec.phase →
    ((∃ ts, s.turns = .rst true :: ts) ∧ t.dec.phase = .idle) ∨
    (∃ w ws i, s.decCmd = w :: ws ∧ decodeCommand .decCmd s.params w = .ok i ∧
      ((i = .decStart ∧ (s.dec.phase = .idle ∨ s.dec.phase = .done ∨ s.dec.phase = .fault) ∧ t.dec.phase = .waitFirst) ∨
       ((∃ c, c < 256 ∧ i = .decCode c) ∧ s.dec.phase = .waitFirst ∧ t.dec.phase = .run) ∨
       (i = .decEnd ∧ s.dec.phase = .run ∧ t.dec.phase = .done))) ∨
    (s.dec.phase ≠ .fault ∧ t.dec.phase = .fault ∧ t.dec.out = [])

/-- R167: NEXT_CODE (CSR 2) after each command: 256 after a START that succeeds, kept or increased by exactly 1 by a data command
(ENC_SYM exactly when it emits, DEC_CODE on every execution in RUN and not on the first codeword), kept by END, RD and STAT. -/
def Obligations.NextCodeMovesByOne : Prop :=
  ∀ (s t : State),
    (exec .encStart s = .next t → t.enc.phase ≠ .fault → t.enc.csr 2 = some 256) ∧
    (∀ a, exec (.encSym a) s = .next t →
      (t.enc.out.length = s.enc.out.length + 1 ∧ t.enc.csr 2 = some (s.enc.nextCode + 1)) ∨
      (t.enc.out.length ≠ s.enc.out.length + 1 ∧ t.enc.csr 2 = s.enc.csr 2)) ∧
    (∀ i, i = .encEnd ∨ (∃ k, i = .encRd k) ∨ (∃ n, i = .encStat n) → exec i s = .next t → t.enc.csr 2 = s.enc.csr 2) ∧
    (exec .decStart s = .next t → t.dec.phase ≠ .fault → t.dec.csr 2 = some 256) ∧
    (∀ c, exec (.decCode c) s = .next t →
      (s.dec.phase = .run ∧ t.dec.phase = .run ∧ t.dec.csr 2 = some (s.dec.nextCode + 1)) ∨
      ((s.dec.phase ≠ .run ∨ t.dec.phase = .fault) ∧ t.dec.csr 2 = s.dec.csr 2)) ∧
    (∀ i, i = .decEnd ∨ (∃ k, i = .decRd k) ∨ (∃ n, i = .decStat n) → exec i s = .next t → t.dec.csr 2 = s.dec.csr 2)

/-- R5, R185: with infinite `DICT_CAP` and `OUT_CAP` no step raises CapacityExhausted. -/
def Obligations.InfiniteCapacityIsNeverExhausted : Prop :=
  ∀ s t : State, s.params.dictCap = .infinite → s.params.outCap = .infinite → step s = .next t →
    (s.enc.err ≠ .capacityExhausted → t.enc.err ≠ .capacityExhausted) ∧
    (s.dec.err ≠ .capacityExhausted → t.dec.err ≠ .capacityExhausted)

/-! ## Whole runs -/

/-- R38, R163: a START erases the history of its engine. Whatever the two states held before, the same commands after a START
that is legal in both leave the engine in the same state and give the same responses. -/
def Obligations.StartErasesHistory : Prop :=
  (∀ (s s' t : State) (js : List Instr), s'.params = s.params → (∀ j ∈ js, j.isEncCommand = true) →
    legalIn .encStart s.enc.phase = true → legalIn .encStart s'.enc.phase = true →
    runCommands (.encStart :: js) s = .next t →
    ∃ t' ws, runCommands (.encStart :: js) s' = .next t' ∧ t'.enc = t.enc ∧ t.encRsp = s.encRsp ++ ws ∧
      t'.encRsp = s'.encRsp ++ ws ∧ ws.length = js.length + 1) ∧
  (∀ (s s' t : State) (js : List Instr), s'.params = s.params → (∀ j ∈ js, j.isDecCommand = true) →
    legalIn .decStart s.dec.phase = true → legalIn .decStart s'.dec.phase = true →
    runCommands (.decStart :: js) s = .next t →
    ∃ t' ws, runCommands (.decStart :: js) s' = .next t' ∧ t'.dec = t.dec ∧ t.decRsp = s.decRsp ++ ws ∧
      t'.decRsp = s'.decRsp ++ ws ∧ ws.length = js.length + 1)

/-- R160: the words of `ENCODE`, presented on `enc_cmd` of a machine with the normative parameters whose ENC is in IDLE, DONE or
FAULT, leave `E.out = enc(s)` in phase DONE, with a response `0x0` each and the length from ENC_END; DEC and the words after
them are untouched. If some operand is 256 or more, the run ends in FAULT with UnsupportedSymbol and no output.
Words may wait on `dec_cmd`: that with no turn named every one of these steps is a move of ENC, and DEC and its port are left as
they are, is the model's choice (log 1), not R160's. -/
def Obligations.EncodeRunContract : Prop :=
  (∀ (s : State) (xs : List Sys2Proof.Symbol) (rest : List Nat), s.params = Params.normative → s.rst = false → s.turns = [] →
    s.enc.phase = .idle ∨ s.enc.phase = .done ∨ s.enc.phase = .fault →
    s.encCmd = wordsOf (encodeExpansion (xs.map Fin.val)) ++ rest →
    ∃ t : State, Host.Core.run Sys2Proof.core (xs.length + 2) s = .next t ∧
      t.enc.phase = .done ∧ t.enc.err = .none ∧ t.enc.out = enc xs ∧ t.encCmd = rest ∧
      t.encRsp = s.encRsp ++ (List.replicate (xs.length + 1) 0 ++ [(enc xs).length * 16]) ∧
      t.dec = s.dec ∧ t.decCmd = s.decCmd ∧ t.decRsp = s.decRsp) ∧
  (∀ (s : State) (as rest : List Nat), s.params = Params.normative → s.rst = false → s.turns = [] →
    s.enc.phase = .idle ∨ s.enc.phase = .done ∨ s.enc.phase = .fault →
    (∃ a ∈ as, 256 ≤ a) → s.encCmd = wordsOf (encodeExpansion as) ++ rest →
    ∃ t : State, Host.Core.run Sys2Proof.core (as.length + 2) s = .next t ∧
      t.enc.phase = .fault ∧ t.enc.err = .unsupportedSymbol ∧ t.enc.out = [] ∧ t.encCmd = rest)

/-- R161: the words of `DECODE`, presented on `dec_cmd` of a machine with the normative parameters whose DEC is in IDLE, DONE or
FAULT: (a) no codeword: FAULT, EmptyInput; (b) some codeword invalid: FAULT, InvalidCodeword, no output; (c) all valid: DONE,
`D.out = dec(c)`. -/
def Obligations.DecodeRunContract : Prop :=
  ∀ (s : State) (cs rest : List Nat), s.params = Params.normative → s.rst = false → s.turns = [] → s.encCmd = [] →
    s.dec.phase = .idle ∨ s.dec.phase = .done ∨ s.dec.phase = .fault →
    s.decCmd = wordsOf (decodeExpansion cs) ++ rest →
    ∃ t : State, Host.Core.run Sys2Proof.core (cs.length + 2) s = .next t ∧ t.decCmd = rest ∧ t.enc = s.enc ∧
      t.encRsp = s.encRsp ∧
      (cs = [] → t.dec.phase = .fault ∧ t.dec.err = .emptyInput ∧ t.dec.out = []) ∧
      ((∃ c, cs[0]? = some c ∧ 256 ≤ c) ∨ (∃ k c, 1 ≤ k ∧ cs[k]? = some c ∧ 256 + k - 1 < c) →
        t.dec.phase = .fault ∧ t.dec.err = .invalidCodeword ∧ t.dec.out = []) ∧
      (cs ≠ [] → (∀ c, cs[0]? = some c → c < 256) → (∀ k c, 1 ≤ k → cs[k]? = some c → c ≤ 256 + k - 1) →
        t.dec.phase = .done ∧ t.dec.err = .none ∧ t.dec.out = dec cs ∧
        t.decRsp = s.decRsp ++ (List.replicate (cs.length + 1) 0 ++ [(dec cs).length * 16]))

/-- R162: round trip. On every realisation R5 admits, for every non-empty symbol sequence: if `ENCODE` completes then `DECODE` of
its output gives the sequence back, unless DEC raises CapacityExhausted; with infinite capacities `ENCODE` completes and
`DECODE` gives the sequence back. -/
def Obligations.DecodeOfEncodeIsTheInput : Prop :=
  ∀ (s : State) (xs : List Sys2Proof.Symbol), s.params.valid = true → xs ≠ [] →
    legalIn .encStart s.enc.phase = true → legalIn .decStart s.dec.phase = true →
    ∃ t, runCommands (encodeExpansion (xs.map Fin.val)) s = .next t ∧
      (s.params.dictCap = .infinite → s.params.outCap = .infinite → t.enc.phase = .done) ∧
      (t.enc.phase = .done → ∃ u, runCommands (decodeExpansion t.enc.out) t = .next u ∧
        ((u.dec.phase = .done ∧ u.dec.out = xs) ∨
          (u.dec.phase = .fault ∧ u.dec.err = .capacityExhausted ∧
            (s.params.dictCap ≠ .infinite ∨ s.params.outCap ≠ .infinite))))

/-- R166 (a), (b): in the table an encoder run leaves, the phrases of the codewords it emitted put together are its input, every
codeword emitted is bound, and the phrase bound to `255 + j` is that of the `j`-th codeword with the first symbol of the
next one's. -/
def Obligations.EmittedPhrasesMakeUpTheInput : Prop :=
  ∀ (s t : State) (xs : List Sys2Proof.Symbol), s.params.valid = true → legalIn .encStart s.enc.phase = true →
    runCommands (encodeExpansion (xs.map Fin.val)) s = .next t → t.enc.phase = .done →
    (t.enc.out.map (phraseAt (t.enc.table.map Prod.fst))).flatten = xs ∧
    (∀ c ∈ t.enc.out, p2cRead (phraseAt (t.enc.table.map Prod.fst) c) t.enc.table = some c) ∧
    ∀ j c d, t.enc.out[j]? = some c → t.enc.out[j + 1]? = some d →
      p2cRead (phraseAt (t.enc.table.map Prod.fst) c ++ (phraseAt (t.enc.table.map Prod.fst) d).take 1) t.enc.table =
        some (256 + j)

/-- R166 (c): lockstep. After the command for the `k`-th codeword of an encoder's output, DEC holds the phrases of the first `k`
codewords as output, the phrase of the `k`-th as prefix, and as table the encoder's first `255 + k` entries; after the last
one the two tables hold the same pairs. -/
def Obligations.DecoderIsOneStepBehind : Prop :=
  ∀ (s t : State) (xs : List Sys2Proof.Symbol), s.params = Params.normative → legalIn .encStart s.enc.phase = true →
    legalIn .decStart s.dec.phase = true → xs ≠ [] → runCommands (encodeExpansion (xs.map Fin.val)) s = .next t →
    (∀ k c, t.enc.out[k]? = some c →
      ∃ u, runCommands (.decStart :: (t.enc.out.take (k + 1)).map .decCode) t = .next u ∧ u.dec.phase = .run ∧
        u.dec.out = ((t.enc.out.take (k + 1)).map (phraseAt (t.enc.table.map Prod.fst))).flatten ∧
        u.dec.prefixReg = phraseAt (t.enc.table.map Prod.fst) c ∧
        u.dec.table = (t.enc.table.map Prod.fst).take (256 + k)) ∧
    ∃ u, runCommands (decodeExpansion t.enc.out) t = .next u ∧ u.dec.table = t.enc.table.map Prod.fst ∧
      u.dec.nextCode = t.enc.nextCode

/-- R126, R168: the counts of a completed encoder run over `n` symbols: none for the empty input; otherwise one codeword more
than there are new entries, at most `n` of them; the codeword at index `k` at most `255 + k`, the first below 256, all
bound. -/
def Obligations.CompletedEncodeCounts : Prop :=
  ∀ (s t : State) (xs : List Sys2Proof.Symbol), s.params.valid = true → legalIn .encStart s.enc.phase = true →
    runCommands (encodeExpansion (xs.map Fin.val)) s = .next t → t.enc.phase = .done →
    t.enc.table.length = t.enc.nextCode ∧
    (xs = [] → t.enc.out = [] ∧ t.enc.nextCode = 256) ∧
    (xs ≠ [] → ∃ m, t.enc.nextCode = 256 + m ∧ t.enc.out.length = m + 1 ∧ m ≤ xs.length - 1) ∧
    (∀ k c, t.enc.out[k]? = some c → c ≤ 255 + k ∧ c < t.enc.nextCode)

/-- R61: every interleaving of the two engines' moves ends in the same state. That the interleaving is a list of turns in State
is the model's choice (log 1). -/
def Obligations.InterleavingsAgree : Prop :=
  ∀ (s t : State) (a b : List Turn), a.Perm b → (∀ x ∈ a, x = .enc ∨ x = .dec) →
    Host.Core.run Sys2Proof.core a.length ({ s with turns := a } : State) = .next t →
    Host.Core.run Sys2Proof.core b.length ({ s with turns := b } : State) = .next t
end

