-- ==== Sys2Proof/Laws/State.lean ====
section
/-! SUPPORT. What each named update of the state leaves in each field, by rfl. -/

namespace Sys2Proof.Machine

section
variable (s : State) (x : Enc) (y : Dec) (w : Nat)

@[simp] theorem replyEnc_params : (s.replyEnc x w).params = s.params := rfl
@[simp] theorem replyEnc_enc : (s.replyEnc x w).enc = x := rfl
@[simp] theorem replyEnc_dec : (s.replyEnc x w).dec = s.dec := rfl
@[simp] theorem replyEnc_rst : (s.replyEnc x w).rst = s.rst := rfl
@[simp] theorem replyEnc_encCmd : (s.replyEnc x w).encCmd = s.encCmd := rfl
@[simp] theorem replyEnc_decCmd : (s.replyEnc x w).decCmd = s.decCmd := rfl
@[simp] theorem replyEnc_encRsp : (s.replyEnc x w).encRsp = s.encRsp ++ [w] := rfl
@[simp] theorem replyEnc_decRsp : (s.replyEnc x w).decRsp = s.decRsp := rfl
@[simp] theorem replyEnc_turns : (s.replyEnc x w).turns = s.turns := rfl
@[simp] theorem replyEnc_p2cResult : (s.replyEnc x w).p2cResult = s.p2cResult := rfl
@[simp] theorem replyEnc_c2pResult : (s.replyEnc x w).c2pResult = s.c2pResult := rfl

@[simp] theorem replyDec_params : (s.replyDec y w).params = s.params := rfl
@[simp] theorem replyDec_enc : (s.replyDec y w).enc = s.enc := rfl
@[simp] theorem replyDec_dec : (s.replyDec y w).dec = y := rfl
@[simp] theorem replyDec_rst : (s.replyDec y w).rst = s.rst := rfl
@[simp] theorem replyDec_encCmd : (s.replyDec y w).encCmd = s.encCmd := rfl
@[simp] theorem replyDec_decCmd : (s.replyDec y w).decCmd = s.decCmd := rfl
@[simp] theorem replyDec_encRsp : (s.replyDec y w).encRsp = s.encRsp := rfl
@[simp] theorem replyDec_decRsp : (s.replyDec y w).decRsp = s.decRsp ++ [w] := rfl
@[simp] theorem replyDec_turns : (s.replyDec y w).turns = s.turns := rfl
@[simp] theorem replyDec_p2cResult : (s.replyDec y w).p2cResult = s.p2cResult := rfl
@[simp] theorem replyDec_c2pResult : (s.replyDec y w).c2pResult = s.c2pResult := rfl
end

section
variable (s : State) (level : Bool)

@[simp] theorem driveRst_params : (s.driveRst level).params = s.params := by cases level <;> rfl
@[simp] theorem driveRst_enc : (s.driveRst level).enc = if level then encReset else s.enc := by cases level <;> rfl
@[simp] theorem driveRst_dec : (s.driveRst level).dec = if level then decReset else s.dec := by cases level <;> rfl
@[simp] theorem driveRst_rst : (s.driveRst level).rst = level := by cases level <;> rfl
@[simp] theorem driveRst_encCmd : (s.driveRst level).encCmd = s.encCmd := by cases level <;> rfl
@[simp] theorem driveRst_decCmd : (s.driveRst level).decCmd = s.decCmd := by cases level <;> rfl
@[simp] theorem driveRst_encRsp : (s.driveRst level).encRsp = s.encRsp := by cases level <;> rfl
@[simp] theorem driveRst_decRsp : (s.driveRst level).decRsp = s.decRsp := by cases level <;> rfl
@[simp] theorem driveRst_turns : (s.driveRst level).turns = s.turns := by cases level <;> rfl
@[simp] theorem driveRst_p2cResult : (s.driveRst level).p2cResult = s.p2cResult := by cases level <;> rfl
@[simp] theorem driveRst_c2pResult : (s.driveRst level).c2pResult = s.c2pResult := by cases level <;> rfl
end

@[simp] theorem finishEnc_ok (s : State) (x : Enc) (w : Nat) : s.finishEnc (.ok (x, w)) = .next (s.replyEnc x w) := rfl
@[simp] theorem finishEnc_error (s : State) (f : Fault) : s.finishEnc (.error f) = .fault f := rfl
@[simp] theorem finishDec_ok (s : State) (x : Dec) (w : Nat) : s.finishDec (.ok (x, w)) = .next (s.replyDec x w) := rfl
@[simp] theorem finishDec_error (s : State) (f : Fault) : s.finishDec (.error f) = .fault f := rfl

/-- An ENC transition that ends in a next state ended with an engine and one response. -/
theorem finishEnc_next {s t : State} {r : Except Fault (Enc × Nat)} (h : s.finishEnc r = .next t) :
    ∃ x w, r = .ok (x, w) ∧ t = s.replyEnc x w := by
  match r, h with
  | .ok (x, w), h => exact ⟨x, w, rfl, (Host.Outcome.next.inj h).symm⟩

/-- A DEC transition that ends in a next state ended with an engine and one response. -/
theorem finishDec_next {s t : State} {r : Except Fault (Dec × Nat)} (h : s.finishDec r = .next t) :
    ∃ x w, r = .ok (x, w) ∧ t = s.replyDec x w := by
  match r, h with
  | .ok (x, w), h => exact ⟨x, w, rfl, (Host.Outcome.next.inj h).symm⟩

end Sys2Proof.Machine
end

