-- ==== Sys2Proof/Laws/Tables.lean ====
section
/-! SUPPORT. The laws of the table memories and of their operations (20_memory.md R51, R52; 40_dictionary_tables.md). -/

namespace Sys2Proof.Machine

/-! ## Reading and writing P2C -/

theorem p2cRead_eq_none {p : Phrase} {t : P2cTable} : p2cRead p t = none ↔ p ∉ t.map Prod.fst := by
  induction t with
  | nil => simp [p2cRead]
  | cons e rest ih =>
    obtain ⟨q, c⟩ := e
    by_cases h : q = p
    · simp [p2cRead, h]
    · have h' : ¬ p = q := fun e => h e.symm
      simp only [p2cRead, h, if_false, ih, List.map_cons, List.mem_cons, h', false_or]

theorem p2cRead_mem {p : Phrase} {c : Nat} {t : P2cTable} (h : p2cRead p t = some c) : (p, c) ∈ t := by
  induction t with
  | nil => simp [p2cRead] at h
  | cons e rest ih =>
    obtain ⟨q, d⟩ := e
    by_cases hq : q = p
    · simp only [p2cRead, hq, if_true, Option.some.injEq] at h
      simp [hq, h]
    · simp only [p2cRead, hq, if_false] at h
      exact List.mem_cons_of_mem _ (ih h)

theorem p2cRead_of_mem {p : Phrase} {c : Nat} {t : P2cTable} (hn : (t.map Prod.fst).Nodup) (h : (p, c) ∈ t) :
    p2cRead p t = some c := by
  induction t with
  | nil => simp at h
  | cons e rest ih =>
    obtain ⟨q, d⟩ := e
    rw [List.map_cons, List.nodup_cons] at hn
    rcases List.mem_cons.1 h with h | h
    · cases h; simp [p2cRead]
    · have hq : q ≠ p := by
        rintro rfl
        exact hn.1 (List.mem_map.2 ⟨_, h, rfl⟩)
      simp only [p2cRead, hq, if_false]
      exact ih hn.2 h

theorem p2cRead_append (p : Phrase) (t u : P2cTable) : p2cRead p (t ++ u) = (p2cRead p t).or (p2cRead p u) := by
  induction t with
  | nil => simp [p2cRead]
  | cons e rest ih =>
    obtain ⟨q, d⟩ := e
    by_cases hq : q = p
    · simp [p2cRead, hq]
    · simp [p2cRead, hq, ih]

/-- A write of a phrase that is no key adds one pair at the end and changes no binding (R51). -/
theorem p2cWrite_of_fresh {p : Phrase} {c : Nat} {t : P2cTable} (h : p2cRead p t = none) :
    p2cWrite p c t = t ++ [(p, c)] := by
  have : t.filter (fun e => e.1 ≠ p) = t := by
    rw [List.filter_eq_self]
    intro e he
    have hp := p2cRead_eq_none.1 h
    simp only [ne_eq, decide_not, Bool.not_eq_eq_eq_not, Bool.not_true, decide_eq_false_iff_not]
    rintro rfl
    exact hp (List.mem_map_of_mem he)
  simp only [p2cWrite, this]

theorem p2cRead_write_same (p : Phrase) (c : Nat) (t : P2cTable) : p2cRead p (p2cWrite p c t) = some c := by
  have : p2cRead p (t.filter (fun e => e.1 ≠ p)) = none := by
    rw [p2cRead_eq_none]
    simp
  rw [p2cWrite, p2cRead_append, this]
  simp [p2cRead]

theorem p2cRead_filter {p q : Phrase} (h : q ≠ p) (t : P2cTable) :
    p2cRead q (t.filter (fun e => e.1 ≠ p)) = p2cRead q t := by
  induction t with
  | nil => rfl
  | cons e rest ih =>
    obtain ⟨r, d⟩ := e
    by_cases hr : r = p
    · have hq : ¬ p = q := fun e => h e.symm
      rw [List.filter_cons_of_neg (by simp [hr]), ih]
      simp [p2cRead, hr, hq]
    · rw [List.filter_cons_of_pos (by simp [hr])]
      simp only [p2cRead, ih]

theorem p2cRead_write_other {p q : Phrase} (h : q ≠ p) (c : Nat) (t : P2cTable) :
    p2cRead q (p2cWrite p c t) = p2cRead q t := by
  have hq : ¬ p = q := fun e => h e.symm
  rw [p2cWrite, p2cRead_append, p2cRead_filter h]
  simp [p2cRead, hq]

/-- The hit of a lookup is that the read finds a codeword, and the code is what it finds (R101). -/
theorem p2cLookup_eq (p : Phrase) (x : Enc) : p2cLookup p x = ((p2cRead p x.table).isSome, p2cRead p x.table) := by
  unfold p2cLookup
  cases p2cRead p x.table <;> rfl

/-! ## Reading and writing C2P -/

theorem c2pWrite_at_end (p : Phrase) (t : C2pTable) : c2pWrite t.length p t = t ++ [p] := by
  simp [c2pWrite]

theorem c2pRead_write_at_end (p : Phrase) (t : C2pTable) : c2pRead t.length (c2pWrite t.length p t) = some p := by
  simp [c2pRead, c2pWrite_at_end]

theorem c2pRead_write_other {c d : Nat} (h : d ≠ c) (p : Phrase) {t : C2pTable} (hc : c ≤ t.length) :
    c2pRead d (c2pWrite c p t) = c2pRead d t := by
  unfold c2pRead c2pWrite
  split
  · rw [List.getElem?_set_ne (by omega)]
  · have : c = t.length := by omega
    subst this
    rw [List.getElem?_append]
    split
    · rfl
    · rw [List.getElem?_eq_none (by simp; omega), List.getElem?_eq_none (by omega)]

/-! ## The preload -/

theorem p2cPreload_length : p2cPreload.length = 256 := by simp [p2cPreload]

theorem c2pPreload_length : c2pPreload.length = 256 := by simp [c2pPreload]

theorem mem_p2cPreload {q : Phrase} {c : Nat} : (q, c) ∈ p2cPreload ↔ ∃ k : Symbol, q = [k] ∧ c = k.val := by
  simp only [p2cPreload, List.mem_map, List.mem_finRange, true_and, Prod.mk.injEq]
  exact exists_congr fun k => and_congr eq_comm eq_comm

theorem p2cPreload_codes : p2cPreload.map Prod.snd = List.range 256 := by
  decide +kernel

theorem p2cPreload_keys_nodup : (p2cPreload.map Prod.fst).Nodup := by
  simp only [p2cPreload, List.map_map]
  refine (List.nodup_map_iff ?_).2 (List.nodup_finRange 256)
  intro a b h
  simpa using h

/-- A one-symbol phrase is bound to its symbol's value by the preload (R35 (a)). -/
theorem p2cRead_preload (k : Symbol) : p2cRead [k] p2cPreload = some k.val :=
  p2cRead_of_mem p2cPreload_keys_nodup (mem_p2cPreload.2 ⟨k, rfl, rfl⟩)

theorem c2pPreload_getElem? (k : Symbol) : c2pPreload[k.val]? = some [k] := by
  simp [c2pPreload]

theorem c2pPreload_of_lt {c : Nat} (h : c < 256) : c2pPreload[c]? = some [(⟨c, h⟩ : Symbol)] :=
  c2pPreload_getElem? ⟨c, h⟩

/-- The loop of `P2C_INIT` (R100): writing the 256 pairs in order into the empty table gives the preload. -/
theorem p2cPreload_eq_writes :
    (List.finRange 256).foldl (fun t (k : Symbol) => p2cWrite [k] k.val t) [] = p2cPreload := by
  have key : ∀ (ks : List Symbol), ks.Nodup → ∀ t : P2cTable, (∀ k ∈ ks, p2cRead [k] t = none) →
      ks.foldl (fun t (k : Symbol) => p2cWrite [k] k.val t) t = t ++ ks.map (fun k => ([k], k.val)) := by
    intro ks
    induction ks with
    | nil => intro _ t _; simp
    | cons k rest ih =>
      intro hn t ht
      rw [List.nodup_cons] at hn
      rw [List.foldl_cons, ih hn.2, p2cWrite_of_fresh (ht k List.mem_cons_self)]
      · simp
      · intro j hj
        rw [p2cRead_write_other]
        · exact ht j (List.mem_cons_of_mem _ hj)
        · intro h
          simp only [List.cons.injEq, and_true] at h
          exact hn.1 (h ▸ hj)
  simpa [p2cPreload] using key (List.finRange 256) (List.nodup_finRange 256) [] (fun _ _ => rfl)

/-- The loop of `C2P_INIT` (R103). -/
theorem c2pPreload_eq_writes :
    (List.finRange 256).foldl (fun t (k : Symbol) => c2pWrite k.val [k] t) [] = c2pPreload := by
  decide +kernel

/-! ## Canonical form -/

theorem p2cCanonical_iff {n : Nat} {t : P2cTable} :
    p2cCanonical n t = true ↔ (t.Pairwise fun a b => a.2 < b.2 ∧ a.1 ≠ b.1) ∧ ∀ e ∈ t, e.2 < n := by
  simp [p2cCanonical]

theorem p2cInit_canonical (x : Enc) : p2cCanonical (p2cInit x).nextCode (p2cInit x).table = true := by
  show p2cCanonical 256 p2cPreload = true
  decide +kernel

theorem p2cInsert_canonical (p : Phrase) {x : Enc} (h : p2cCanonical x.nextCode x.table = true) :
    p2cCanonical (p2cInsert p x).1.nextCode (p2cInsert p x).1.table = true := by
  rw [p2cCanonical_iff] at h ⊢
  obtain ⟨hp, hn⟩ := h
  show (p2cWrite p x.nextCode x.table).Pairwise _ ∧ ∀ e ∈ p2cWrite p x.nextCode x.table, e.2 < x.nextCode + 1
  unfold p2cWrite
  refine ⟨List.pairwise_append.2 ⟨hp.filter _, List.pairwise_singleton _ _, ?_⟩, ?_⟩
  · intro a ha b hb
    rw [List.mem_singleton] at hb
    subst hb
    rw [List.mem_filter] at ha
    exact ⟨hn a ha.1, by simpa using ha.2⟩
  · intro e he
    rcases List.mem_append.1 he with he | he
    · exact Nat.lt_succ_of_lt (hn e (List.mem_filter.1 he).1)
    · rw [List.mem_singleton.1 he]; exact Nat.lt_succ_self _

theorem c2pInit_size (x : Dec) : (c2pInit x).table.length = (c2pInit x).nextCode := c2pPreload_length

theorem c2pInsert_size (p : Phrase) {x : Dec} (h : x.table.length = x.nextCode) :
    (c2pInsert p x).1.table.length = (c2pInsert p x).1.nextCode := by
  show (c2pWrite x.nextCode p x.table).length = x.nextCode + 1
  rw [← h, c2pWrite_at_end]
  simp

end Sys2Proof.Machine
end

