-- ==== Sys2Proof/Laws/EncoderInv.lean ====
section
/-! SUPPORT. What one transition of the encoder engine can do, and that each keeps the engine's invariant. -/

namespace Sys2Proof.Machine

/-! ## Capacity tests -/

@[simp] theorem reaches_infinite (n : Nat) : reaches n .infinite = false := rfl
@[simp] theorem exceeds_infinite (n : Nat) : exceeds n .infinite = false := rfl

/-- Below the bound one more element does not exceed it. -/
theorem exceeds_succ_of_not_reaches {n : Nat} {cap : Cap} (h : reaches n cap = false) : exceeds (n + 1) cap = false := by
  cases cap with
  | infinite => rfl
  | finite c => simp only [reaches, exceeds, decide_eq_false_iff_not] at *; omega

theorem exceeds_mono {m n : Nat} (hmn : m ≤ n) {cap : Cap} (h : exceeds n cap = false) : exceeds m cap = false := by
  cases cap with
  | infinite => rfl
  | finite c => simp only [exceeds, decide_eq_false_iff_not] at *; omega

theorem exceeds_zero (cap : Cap) : exceeds 0 cap = false := by cases cap <;> simp [exceeds]

/-- A table may hold the preload (R5). -/
theorem valid_dictCap {p : Params} (h : p.valid = true) : exceeds 256 p.dictCap = false := by
  unfold Params.valid at h
  cases hd : p.dictCap with
  | infinite => rfl
  | finite d => simp [hd] at h; simp [exceeds]; omega

/-- An output buffer may hold one element (R5). -/
theorem valid_outCap {p : Params} (h : p.valid = true) : exceeds 1 p.outCap = false := by
  unfold Params.valid at h
  cases hd : p.outCap with
  | infinite => rfl
  | finite d => simp [hd] at h; simp [exceeds]; omega

/-! ## The error entry -/

section
variable {α τ : Type} (p : Params) (e : Err) (x : Engine α τ)

@[simp] theorem raise_phase : (x.raise p e).1.phase = .fault := by
  unfold Engine.raise; split <;> simp_all

@[simp] theorem raise_prefix : (x.raise p e).1.prefixReg = x.prefixReg := by
  unfold Engine.raise; split <;> rfl

@[simp] theorem raise_nextCode : (x.raise p e).1.nextCode = x.nextCode := by
  unfold Engine.raise; split <;> rfl

@[simp] theorem raise_table : (x.raise p e).1.table = x.table := by
  unfold Engine.raise; split <;> rfl

theorem raise_of_fault (h : x.phase = .fault) : x.raise p e = (x, respond p x.err 0) := by
  simp [Engine.raise, h]

theorem raise_of_not_fault (h : x.phase ≠ .fault) :
    x.raise p e = ({ x with out := [], err := e, phase := .fault }, respond p e 0) := by
  simp [Engine.raise, h]
end

/-! ## The invariant's consequences for the table -/

namespace EncInv
variable {p : Params} {x : Enc}

theorem length_eq (h : EncInv p x) : x.table.length = x.nextCode := by
  have := congrArg List.length h.codes
  simpa using this

theorem firstCode_le (h : EncInv p x) : 256 ≤ x.nextCode := by
  have := congrArg List.length h.preload
  rw [List.length_take, p2cPreload_length, h.length_eq] at this
  omega

theorem mem_code_lt (h : EncInv p x) {q : Phrase} {c : Nat} (hm : (q, c) ∈ x.table) : c < x.nextCode := by
  have : c ∈ x.table.map Prod.snd := List.mem_map.2 ⟨_, hm, rfl⟩
  rwa [h.codes, List.mem_range] at this

theorem preload_mem (h : EncInv p x) (k : Symbol) : ([k], k.val) ∈ x.table := by
  have : ([k], k.val) ∈ x.table.take 256 := by rw [h.preload]; exact mem_p2cPreload.2 ⟨k, rfl, rfl⟩
  exact List.mem_of_mem_take this

/-- A one-symbol phrase always hits (R101). -/
theorem read_single (h : EncInv p x) (k : Symbol) : p2cRead [k] x.table = some k.val :=
  p2cRead_of_mem h.keys_nodup (h.preload_mem k)

/-- The insertion of a phrase that is no key and extends a key keeps the table's part of the invariant. -/
theorem insert_table (h : EncInv p x) {q : Phrase} {s : Symbol} {c : Nat} (hq : (q, c) ∈ x.table) (hne : q ≠ [])
    (hf : p2cRead (q ++ [s]) x.table = none) :
    (x.table ++ [(q ++ [s], x.nextCode)]).take 256 = p2cPreload ∧
    (x.table ++ [(q ++ [s], x.nextCode)]).map Prod.snd = List.range (x.nextCode + 1) ∧
    ((x.table ++ [(q ++ [s], x.nextCode)]).map Prod.fst).Nodup ∧
    ∀ q' c', (q', c') ∈ x.table ++ [(q ++ [s], x.nextCode)] → 256 ≤ c' →
      2 ≤ q'.length ∧ ∃ d, d < c' ∧ (q'.dropLast, d) ∈ x.table ++ [(q ++ [s], x.nextCode)] := by
  refine ⟨?_, ?_, ?_, ?_⟩
  · rw [List.take_append_of_le_length (by rw [h.length_eq]; exact h.firstCode_le), h.preload]
  · rw [List.map_append, h.codes, List.range_succ]; rfl
  · rw [List.map_append, List.nodup_append]
    refine ⟨h.keys_nodup, by simp, ?_⟩
    intro a ha b hb hab
    simp only [List.map_cons, List.map_nil, List.mem_singleton] at hb
    subst hb hab
    exact p2cRead_eq_none.1 hf ha
  · intro q' c' hm hc
    rcases List.mem_append.1 hm with hm | hm
    · obtain ⟨h2, d, hd, hdm⟩ := h.prefix_closed q' c' hm hc
      exact ⟨h2, d, hd, List.mem_append_left _ hdm⟩
    · simp only [List.mem_singleton, Prod.mk.injEq] at hm
      obtain ⟨rfl, rfl⟩ := hm
      refine ⟨?_, c, h.mem_code_lt hq, ?_⟩
      · have := List.length_pos_iff.2 hne
        simp; omega
      · rw [List.dropLast_concat]; exact List.mem_append_left _ hq

end EncInv

/-! ## Each transition keeps the invariant -/

variable {p : Params} {x : Enc}

/-- The table part of the invariant, carried to an engine with the same table and counter. -/
theorem EncInv.raise_inv (h : EncInv p x) {e : Err} (he : e ≠ .none) : EncInv p (x.raise p e).1 := by
  by_cases hf : x.phase = .fault
  · rw [raise_of_fault p e x hf]; exact h
  · rw [raise_of_not_fault p e x hf]
    exact {
      phase_ne_waitFirst := by simp
      err_iff_fault := by simp [he]
      preload := h.preload
      codes := h.codes
      keys_nodup := h.keys_nodup
      prefix_closed := h.prefix_closed
      prefix_key := by simp
      fresh_run := by simp
      run_count := by simp
      done_count := by simp
      idle_reset := by simp
      fault_out := by simp
      out_bound := by simp
      out_codes := by simp
      caps := ⟨h.caps.1, exceeds_zero _⟩ }

theorem encReset_inv (hv : p.valid = true) : EncInv p encReset where
  phase_ne_waitFirst := by simp [encReset]
  err_iff_fault := by simp [encReset]
  preload := by show p2cPreload.take 256 = _; rw [List.take_of_length_le p2cPreload_length.le]
  codes := p2cPreload_codes
  keys_nodup := p2cPreload_keys_nodup
  prefix_closed := by
    intro q c hm hc
    obtain ⟨k, rfl, rfl⟩ := mem_p2cPreload.1 hm
    exact absurd k.isLt (by omega)
  prefix_key := by simp [encReset]
  fresh_run := by simp [encReset]
  run_count := by simp [encReset]
  done_count := by simp [encReset]
  idle_reset := by simp [encReset]
  fault_out := by simp [encReset]
  out_bound := by simp [encReset]
  out_codes := by simp [encReset]
  caps := ⟨valid_dictCap hv, exceeds_zero _⟩

/-- A fresh run (R120). -/
theorem encStart_inv (hv : p.valid = true) (x : Enc) :
    EncInv p { p2cInit x with prefixReg := [], out := [], err := .none, phase := .run } :=
  let h := encReset_inv hv
  { phase_ne_waitFirst := by simp
    err_iff_fault := by simp
    preload := h.preload
    codes := h.codes
    keys_nodup := h.keys_nodup
    prefix_closed := h.prefix_closed
    prefix_key := by simp
    fresh_run := by simp [p2cInit]
    run_count := by simp
    done_count := by simp
    idle_reset := by simp
    fault_out := by simp
    out_bound := by simp
    out_codes := by simp
    caps := ⟨valid_dictCap hv, exceeds_zero _⟩ }

/-- The codeword of a prefix a run is about to emit. -/
theorem EncInv.prefix_bound (h : EncInv p x) (hr : x.phase = .run) (hne : x.prefixReg ≠ []) :
    ∃ c, p2cRead x.prefixReg x.table = some c ∧ (x.prefixReg, c) ∈ x.table ∧ c < x.nextCode ∧ c ≤ 255 + x.out.length := by
  rcases h.prefix_key hr with h0 | ⟨c, hc⟩
  · exact absurd h0 hne
  · have hlt := h.mem_code_lt hc
    have := h.run_count hr hne
    exact ⟨c, p2cRead_of_mem h.keys_nodup hc, hc, hlt, by omega⟩

theorem out_bound_snoc {out : List Nat} {c : Nat} (h : ∀ k c, out[k]? = some c → c ≤ 255 + k)
    (hc : c ≤ 255 + out.length) : ∀ k d, (out ++ [c])[k]? = some d → d ≤ 255 + k := by
  intro k d hk
  rw [List.getElem?_append] at hk
  split at hk
  · exact h k d hk
  · rcases Nat.lt_or_ge (k - out.length) 1 with h1 | h1
    · have hk0 : k - out.length = 0 := by omega
      rw [hk0] at hk
      simp at hk; omega
    · rw [List.getElem?_eq_none (by simpa using h1)] at hk; cases hk

/-- One pass of the encoder's loop on a symbol, from a running engine that meets the invariant: which of the three cases it
is, the engine after it, and that the invariant holds of it. -/
theorem EncInv.pass (h : EncInv p x) (hr : x.phase = .run) (s : Symbol) :
    ∃ y w, encPass p s x = .ok (y, w) ∧ EncInv p y := by
  unfold encPass
  simp only [p2cLookup_eq, appendSymbol]
  cases hc : p2cRead (x.prefixReg ++ [s]) x.table with
  | some c =>
    have hm := p2cRead_mem hc
    refine ⟨_, _, rfl, ?_⟩
    have hnext : x.prefixReg = [] → x.nextCode = 256 + x.out.length := by
      intro h0
      have := h.fresh_run hr h0
      simp [this]
    exact { h with
      prefix_key := fun _ => .inr ⟨c, hm⟩
      fresh_run := by simp
      run_count := by
        intro _ _
        by_cases h0 : x.prefixReg = []
        · exact hnext h0
        · exact h.run_count hr h0
      done_count := by simp [hr]
      idle_reset := by simp [hr] }
  | none =>
    have hne : x.prefixReg ≠ [] := by
      intro h0
      rw [h0, List.nil_append, h.read_single] at hc
      cases hc
    obtain ⟨c, hread, hm, hlt, hle⟩ := h.prefix_bound hr hne
    obtain ⟨h1, h2, h3, h4⟩ := h.insert_table hm hne hc
    simp only [Option.isSome_none, Bool.false_eq_true, if_false, encMiss]
    by_cases hf : encSymFull p x = true
    · rw [if_pos hf]
      exact ⟨_, _, rfl, h.raise_inv (by simp)⟩
    · rw [if_neg hf]
      simp only [encSymFull, Bool.or_eq_true, not_or, Bool.not_eq_true] at hf
      simp only [p2cLookup_eq, hread, p2cInsert]
      refine ⟨_, _, rfl, ?_⟩
      rw [p2cWrite_of_fresh hc]
      exact {
        phase_ne_waitFirst := h.phase_ne_waitFirst
        err_iff_fault := h.err_iff_fault
        preload := h1
        codes := h2
        keys_nodup := h3
        prefix_closed := h4
        prefix_key := fun _ => .inr ⟨s.val, List.mem_append_left _ (h.preload_mem s)⟩
        fresh_run := by simp
        run_count := by
          intro _ _
          have := h.run_count hr hne
          simp; omega
        done_count := by simp [hr]
        idle_reset := by simp [hr]
        fault_out := by simp [hr]
        out_bound := out_bound_snoc h.out_bound hle
        out_codes := by
          intro d hd
          rcases List.mem_append.1 hd with hd | hd
          · exact Nat.lt_succ_of_lt (h.out_codes d hd)
          · rw [List.mem_singleton.1 hd]; exact Nat.lt_succ_of_lt hlt
        caps := ⟨exceeds_succ_of_not_reaches hf.2, by simpa using exceeds_succ_of_not_reaches hf.1⟩ }

/-- The completion of a run with nothing to emit (R122). -/
theorem EncInv.end_empty (h : EncInv p x) (hr : x.phase = .run) (h0 : x.prefixReg = []) :
    EncInv p { x with phase := .done } :=
  { h with
    phase_ne_waitFirst := by simp
    err_iff_fault := by simpa [hr] using h.err_iff_fault
    prefix_key := by simp
    fresh_run := by simp
    run_count := by simp
    done_count := fun _ => .inl (h.fresh_run hr h0)
    idle_reset := by simp
    fault_out := by simp }

/-- The completion of a run with a final emission (R122). -/
theorem EncInv.flush (h : EncInv p x) (hr : x.phase = .run) (hne : x.prefixReg ≠ []) :
    ∃ y w, encFlush p x = .ok (y, w) ∧ EncInv p y := by
  obtain ⟨c, hread, hm, hlt, hle⟩ := h.prefix_bound hr hne
  unfold encFlush
  by_cases hf : encEndFull p x = true
  · rw [if_pos hf]
    exact ⟨_, _, rfl, h.raise_inv (by simp)⟩
  · rw [if_neg hf]
    simp only [encEndFull, Bool.not_eq_true] at hf
    simp only [p2cLookup_eq, hread]
    refine ⟨_, _, rfl, ?_⟩
    exact { h with
      phase_ne_waitFirst := by simp
      err_iff_fault := by simpa [hr] using h.err_iff_fault
      prefix_key := by simp
      fresh_run := by simp
      run_count := by simp
      done_count := by
        intro _
        have := h.run_count hr hne
        right; simp; omega
      idle_reset := by simp
      fault_out := by simp
      out_bound := out_bound_snoc h.out_bound hle
      out_codes := by
        intro d hd
        rcases List.mem_append.1 hd with hd | hd
        · exact h.out_codes d hd
        · rw [List.mem_singleton.1 hd]; exact hlt
      caps := ⟨h.caps.1, by simpa using exceeds_succ_of_not_reaches hf⟩ }

end Sys2Proof.Machine
end

