-- ==== Sys2Proof/Laws/DecoderInv.lean ====
section
/-! SUPPORT. What one transition of the decoder engine can do, and that each keeps the engine's invariant. -/

namespace Sys2Proof.Machine

/-- The operand of a data command is a symbol exactly when it is below 256 (R73). -/
theorem symbolOf_of_lt {c : Nat} (h : c < 256) : symbolOf c = some ⟨c, h⟩ := by simp [symbolOf, h]

theorem symbolOf_of_ge {c : Nat} (h : 256 ≤ c) : symbolOf c = none := by simp [symbolOf, Nat.not_lt.2 h]

namespace DecInv
variable {p : Params} {x : Dec}

theorem firstCode_le (h : DecInv p x) : 256 ≤ x.nextCode := by
  have := congrArg List.length h.preload
  rw [List.length_take, c2pPreload_length, h.size] at this
  omega

theorem preload_get (h : DecInv p x) {c : Nat} (hc : c < 256) : x.table[c]? = some [⟨c, hc⟩] := by
  have h1 : (x.table.take 256)[c]? = some [⟨c, hc⟩] := by rw [h.preload]; exact c2pPreload_of_lt hc
  rwa [List.getElem?_take, if_pos hc] at h1

/-- Every entry is a phrase (R36). -/
theorem entry_ne_nil (h : DecInv p x) {c : Nat} {q : Phrase} (hq : x.table[c]? = some q) : q ≠ [] := by
  rcases Nat.lt_or_ge c 256 with hc | hc
  · rw [h.preload_get hc] at hq
    cases hq
    simp
  · have := (h.prefix_closed c q hq hc).1
    intro h0
    simp [h0] at this

theorem bound_iff (h : DecInv p x) {c : Nat} : c < x.nextCode ↔ ∃ q, x.table[c]? = some q := by
  rw [← h.size]
  constructor
  · intro hc; exact ⟨x.table[c], List.getElem?_eq_getElem hc⟩
  · rintro ⟨q, hq⟩
    exact (List.getElem?_eq_some_iff.1 hq).1

/-- In RUN the prefix is a phrase with a first symbol (R147). -/
theorem prefix_head (h : DecInv p x) (hr : x.phase = .run) :
    ∃ f, firstSymbol x.prefixReg = some f := by
  obtain ⟨c, hc⟩ := List.mem_iff_getElem?.1 (h.prefix_entry hr)
  have := h.entry_ne_nil hc
  unfold firstSymbol
  cases hp : x.prefixReg with
  | nil => exact absurd hp this
  | cons a l => exact ⟨a, rfl⟩

/-- The insertion of an entry extended by one symbol keeps the table's part of the invariant. -/
theorem insert_table (h : DecInv p x) {q : Phrase} (hq : q ∈ x.table) (s : Symbol) :
    (x.table ++ [q ++ [s]]).take 256 = c2pPreload ∧ (x.table ++ [q ++ [s]]).length = x.nextCode + 1 ∧
    ∀ c q', (x.table ++ [q ++ [s]])[c]? = some q' → 256 ≤ c →
      2 ≤ q'.length ∧ ∃ d, d < c ∧ (x.table ++ [q ++ [s]])[d]? = some q'.dropLast := by
  refine ⟨?_, ?_, ?_⟩
  · rw [List.take_append_of_le_length (by rw [h.size]; exact h.firstCode_le), h.preload]
  · simp [h.size]
  · intro c q' hc h256
    have grow : ∀ {d : Nat} {r : Phrase}, x.table[d]? = some r → (x.table ++ [q ++ [s]])[d]? = some r := by
      intro d r hd
      rw [List.getElem?_append_left (List.getElem?_eq_some_iff.1 hd).1, hd]
    rw [List.getElem?_append] at hc
    split at hc
    · obtain ⟨h2, d, hd, hdm⟩ := h.prefix_closed c q' hc h256
      exact ⟨h2, d, hd, grow hdm⟩
    · rename_i hlt
      obtain ⟨i, hi⟩ := List.mem_iff_getElem?.1 hq
      have hil := (List.getElem?_eq_some_iff.1 hi).1
      have hc0 : c - x.table.length = 0 := by
        rcases Nat.lt_or_ge (c - x.table.length) 1 with h1 | h1
        · omega
        · rw [List.getElem?_eq_none (by simpa using h1)] at hc; cases hc
      rw [hc0] at hc
      simp only [List.getElem?_cons_zero, Option.some.injEq] at hc
      subst hc
      refine ⟨?_, i, by omega, ?_⟩
      · have := List.length_pos_iff.2 (h.entry_ne_nil hi)
        simp; omega
      · rw [List.dropLast_concat]; exact grow hi

theorem raise_inv (h : DecInv p x) {e : Err} (he : e ≠ .none) : DecInv p (x.raise p e).1 := by
  by_cases hf : x.phase = .fault
  · rw [raise_of_fault p e x hf]; exact h
  · rw [raise_of_not_fault p e x hf]
    exact {
      err_iff_fault := by simp [he]
      preload := h.preload
      size := h.size
      prefix_closed := h.prefix_closed
      prefix_entry := by simp
      early := by simp
      out_nonempty := by simp
      fault_out := by simp
      caps := ⟨h.caps.1, exceeds_zero _⟩ }

end DecInv

theorem c2pPreload_closed (c : Nat) (q : Phrase) (hc : c2pPreload[c]? = some q) : c < 256 := by
  have := (List.getElem?_eq_some_iff.1 hc).1
  rwa [c2pPreload_length] at this

variable {p : Params} {x : Dec}

theorem decReset_inv (hv : p.valid = true) : DecInv p decReset where
  err_iff_fault := by simp [decReset]
  preload := by show c2pPreload.take 256 = _; rw [List.take_of_length_le c2pPreload_length.le]
  size := c2pPreload_length
  prefix_closed := by
    intro c q hc h256
    exact absurd (c2pPreload_closed c q hc) (by omega)
  prefix_entry := by simp [decReset]
  early := by simp [decReset]
  out_nonempty := by simp [decReset]
  fault_out := by simp [decReset]
  caps := ⟨valid_dictCap hv, exceeds_zero _⟩

/-- A fresh run (R140). -/
theorem decStart_inv (hv : p.valid = true) (x : Dec) :
    DecInv p { c2pInit x with prefixReg := [], out := [], err := .none, phase := .waitFirst } :=
  let h := decReset_inv hv
  { err_iff_fault := by simp
    preload := h.preload
    size := h.size
    prefix_closed := h.prefix_closed
    prefix_entry := by simp
    early := by simp [c2pInit]
    out_nonempty := by simp
    fault_out := by simp
    caps := ⟨valid_dictCap hv, exceeds_zero _⟩ }

namespace DecInv

/-- The first codeword of a run (R141). -/
theorem first (h : DecInv p x) (hv : p.valid = true) (hw : x.phase = .waitFirst) (c : Nat) :
    ∃ y w, decFirst p c x = .ok (y, w) ∧ DecInv p y := by
  unfold decFirst
  rcases Nat.lt_or_ge c 256 with hc | hc
  · rw [symbolOf_of_lt hc]
    refine ⟨_, _, rfl, ?_⟩
    exact { h with
      err_iff_fault := by simpa [hw] using h.err_iff_fault
      prefix_entry := fun _ => List.mem_iff_getElem?.2 ⟨c, h.preload_get hc⟩
      early := by simp
      out_nonempty := by simp
      fault_out := by simp
      caps := ⟨h.caps.1, valid_outCap hv⟩ }
  · rw [symbolOf_of_ge hc]
    exact ⟨_, _, rfl, h.raise_inv (by simp)⟩

/-- A later codeword whose phrase is known. The phrase is an entry, or the prefix with its own first symbol, which is what is
then inserted. -/
theorem phrase (h : DecInv p x) (hr : x.phase = .run) (q : Phrase)
    (hq : q ∈ x.table ∨ ∃ f, firstSymbol x.prefixReg = some f ∧ q = x.prefixReg ++ [f]) :
    ∃ y w, decPhrase p q x = .ok (y, w) ∧ DecInv p y := by
  have hne : ∃ f, firstSymbol q = some f ∧ (q ∈ x.table ∨ q = x.prefixReg ++ [f]) := by
    rcases hq with hq | ⟨f, hf, rfl⟩
    · obtain ⟨c, hc⟩ := List.mem_iff_getElem?.1 hq
      have h0 := h.entry_ne_nil hc
      cases q with
      | nil => exact absurd rfl h0
      | cons a l => exact ⟨a, rfl, .inl hq⟩
    · refine ⟨f, ?_, .inr rfl⟩
      unfold firstSymbol at *
      cases hp : x.prefixReg with
      | nil => simp [hp] at hf
      | cons a l => simpa [hp] using hf
  obtain ⟨f, hf, hq'⟩ := hne
  unfold decPhrase
  by_cases hfull : decCodeFull p x q = true
  · rw [if_pos hfull]
    exact ⟨_, _, rfl, h.raise_inv (by simp)⟩
  · rw [if_neg hfull]
    simp only [decCodeFull, Bool.or_eq_true, not_or, Bool.not_eq_true] at hfull
    simp only [hf, c2pInsert, appendSymbol]
    refine ⟨_, _, rfl, ?_⟩
    have hw : c2pWrite x.nextCode (x.prefixReg ++ [f]) x.table = x.table ++ [x.prefixReg ++ [f]] := by
      rw [← h.size, c2pWrite_at_end]
    rw [hw]
    obtain ⟨h1, h2, h3⟩ := h.insert_table (h.prefix_entry hr) f
    exact {
      err_iff_fault := h.err_iff_fault
      preload := h1
      size := h2
      prefix_closed := h3
      prefix_entry := by
        intro _
        rcases hq' with hm | rfl
        · exact List.mem_append_left _ hm
        · simp
      early := by simp [hr]
      out_nonempty := by
        intro _
        have := h.out_nonempty (.inl hr)
        simp [this]
      fault_out := by simp [hr]
      caps := ⟨exceeds_succ_of_not_reaches hfull.2, by simpa using hfull.1⟩ }

/-- A later codeword (R141): no read of the table misses. -/
theorem later (h : DecInv p x) (hr : x.phase = .run) (c : Nat) :
    ∃ y w, decLater p c x = .ok (y, w) ∧ DecInv p y := by
  unfold decLater c2pLookup
  by_cases hc : c < x.nextCode
  · obtain ⟨q, hq⟩ := h.bound_iff.1 hc
    rw [if_pos hc, c2pRead, hq]
    exact h.phrase hr q (.inl (List.mem_iff_getElem?.2 ⟨c, hq⟩))
  · rw [if_neg hc]
    by_cases he : c = x.nextCode
    · simp only [if_pos he, decSpecial]
      obtain ⟨f, hf⟩ := h.prefix_head hr
      simp only [hf, appendSymbol]
      exact h.phrase hr _ (.inr ⟨f, hf, rfl⟩)
    · simp only [if_neg he]
      exact ⟨_, _, rfl, h.raise_inv (by simp)⟩

/-- The completion of a run (R144). -/
theorem finish (h : DecInv p x) (hr : x.phase = .run) : DecInv p { x with phase := .done } :=
  { h with
    err_iff_fault := by simpa [hr] using h.err_iff_fault
    prefix_entry := by simp
    early := by simp
    out_nonempty := fun _ => h.out_nonempty (.inl hr)
    fault_out := by simp }

end DecInv

end Sys2Proof.Machine
end

