-- ==== Sys2Proof/Laws/Step.lean ====
section
/-! SUPPORT. A command as a transition of one engine alone, what a step can be, and that every step keeps the invariant. -/

namespace Sys2Proof.Machine

/-! ## Responses without data -/

theorem respond_none_zero (p : Params) : respond p .none 0 = 0 := by
  unfold respond dataField
  cases p.opw with
  | infinite => rfl
  | finite n => simp [Err.code]

theorem respond_zero (p : Params) (e : Err) : respond p e 0 = e.code := by
  unfold respond dataField
  cases p.opw with
  | infinite => simp
  | finite n => simp

/-! ## Commands as transitions of one engine -/

/-- The transition of ENC on a command, as a function of ENC's state alone (R9, R20). -/
def encTransition (i : Instr) (p : Params) (x : Enc) : Except Fault (Enc × Nat) :=
  if legalIn i x.phase then
    match i with
    | .encStart => answered p 0 { p2cInit x with prefixReg := [], out := [], err := .none, phase := .run }
    | .encSym a =>
      match symbolOf a with
      | none => raised p .unsupportedSymbol x
      | some sym => encPass p sym x
    | .encEnd => if x.prefixReg = [] then answered p x.out.length { x with phase := .done } else encFlush p x
    | .encRd a =>
      match elementAt x.out a with
      | none => raised p .illegalCommand x
      | some c => answered p c x
    | .encStat n =>
      match x.csr n with
      | none => raised p .illegalCommand x
      | some v => answered p v x
    | _ => raised p .illegalCommand x
  else raised p .illegalCommand x

/-- The transition of DEC on a command, as a function of DEC's state alone (R9, R20). -/
def decTransition (i : Instr) (p : Params) (x : Dec) : Except Fault (Dec × Nat) :=
  if legalIn i x.phase then
    match i with
    | .decStart => answered p 0 { c2pInit x with prefixReg := [], out := [], err := .none, phase := .waitFirst }
    | .decCode c => if x.phase = .waitFirst then decFirst p c x else decLater p c x
    | .decEnd =>
      if x.phase = .waitFirst then raised p .emptyInput x else answered p x.out.length { x with phase := .done }
    | .decRd a =>
      match elementAt x.out a with
      | none => raised p .illegalCommand x
      | some sym => answered p sym.val x
    | .decStat n =>
      match x.csr n with
      | none => raised p .illegalCommand x
      | some v => answered p v x
    | _ => raised p .illegalCommand x
  else raised p .illegalCommand x

/-- An ENC command is ENC's transition put into the machine. -/
theorem exec_enc {i : Instr} (hi : i.isEncCommand = true) (s : State) :
    exec i s = s.finishEnc (encTransition i s.params s.enc) := by
  cases i <;> first | rfl | cases hi

/-- A DEC command is DEC's transition put into the machine. -/
theorem exec_dec {i : Instr} (hi : i.isDecCommand = true) (s : State) :
    exec i s = s.finishDec (decTransition i s.params s.dec) := by
  cases i <;> first | rfl | cases hi

theorem withoutOperand_ok {a : Nat} {i j : Instr} (h : withoutOperand a i = .ok j) : a = 0 ∧ j = i := by
  unfold withoutOperand at h
  split at h
  · exact ⟨‹_›, (Except.ok.inj h).symm⟩
  · cases h

/-- A word on `enc_cmd` decodes only to an ENC command (R74, R76). -/
theorem decodeEnc_isEnc {p : Params} {w : Nat} {i : Instr} (h : decodeEnc p w = .ok i) : i.isEncCommand = true := by
  unfold decodeEnc at h
  split at h
  · rw [(withoutOperand_ok h).2]; rfl
  · rw [← Except.ok.inj h]; rfl
  · rw [(withoutOperand_ok h).2]; rfl
  · rw [← Except.ok.inj h]; rfl
  · rw [← Except.ok.inj h]; rfl
  · cases h

/-- A word on `dec_cmd` decodes only to a DEC command (R75, R76). -/
theorem decodeDec_isDec {p : Params} {w : Nat} {i : Instr} (h : decodeDec p w = .ok i) : i.isDecCommand = true := by
  unfold decodeDec at h
  split at h
  · rw [(withoutOperand_ok h).2]; rfl
  · rw [← Except.ok.inj h]; rfl
  · rw [(withoutOperand_ok h).2]; rfl
  · rw [← Except.ok.inj h]; rfl
  · rw [← Except.ok.inj h]; rfl
  · cases h

/-- ENC's answer to a command word, decoded or not (R83). -/
def encAnswer (p : Params) (w : Nat) (x : Enc) : Except Fault (Enc × Nat) :=
  match decodeEnc p w with
  | .ok i => encTransition i p x
  | .error _ => raised p .illegalCommand x

/-- DEC's answer to a command word, decoded or not (R83). -/
def decAnswer (p : Params) (w : Nat) (x : Dec) : Except Fault (Dec × Nat) :=
  match decodeDec p w with
  | .ok i => decTransition i p x
  | .error _ => raised p .illegalCommand x

theorem encHandle_eq (w : Nat) (s : State) : encHandle w s = s.finishEnc (encAnswer s.params w s.enc) := by
  unfold encHandle encAnswer decodeCommand
  cases h : decodeEnc s.params w with
  | ok i => exact exec_enc (decodeEnc_isEnc h) s
  | error e => rfl

theorem decHandle_eq (w : Nat) (s : State) : decHandle w s = s.finishDec (decAnswer s.params w s.dec) := by
  unfold decHandle decAnswer decodeCommand
  cases h : decodeDec s.params w with
  | ok i => exact exec_dec (decodeDec_isDec h) s
  | error e => rfl

/-! ## Each transition ends, and keeps the invariant -/

theorem csr_eq_none {α τ : Type} {x : Engine α τ} {n : Nat} : x.csr n = none ↔ 3 ≤ n := by
  match n with
  | 0 => simp [Engine.csr]
  | 1 => simp [Engine.csr]
  | 2 => simp [Engine.csr]
  | m + 3 => simp [Engine.csr]

/-- From a state that meets ENC's invariant every ENC command ends with one answer, and the invariant holds after it. -/
theorem encTransition_inv {i : Instr} (hi : i.isEncCommand = true) {p : Params} {x : Enc} (hv : p.valid = true)
    (h : EncInv p x) : ∃ y w, encTransition i p x = .ok (y, w) ∧ EncInv p y := by
  unfold encTransition
  by_cases hl : legalIn i x.phase = true
  · rw [if_pos hl]
    cases i with
    | encStart => exact ⟨_, _, rfl, encStart_inv hv x⟩
    | encSym a =>
      have hr : x.phase = .run := by revert hl; cases x.phase <;> simp [legalIn]
      dsimp only
      cases hs : symbolOf a with
      | none => exact ⟨_, _, rfl, h.raise_inv (by simp)⟩
      | some sym => exact h.pass hr sym
    | encEnd =>
      have hr : x.phase = .run := by revert hl; cases x.phase <;> simp [legalIn]
      dsimp only
      by_cases h0 : x.prefixReg = []
      · rw [if_pos h0]; exact ⟨_, _, rfl, h.end_empty hr h0⟩
      · rw [if_neg h0]; exact h.flush hr h0
    | encRd a =>
      dsimp only
      cases elementAt x.out a with
      | none => exact ⟨_, _, rfl, h.raise_inv (by simp)⟩
      | some c => exact ⟨_, _, rfl, h⟩
    | encStat n =>
      dsimp only
      cases x.csr n with
      | none => exact ⟨_, _, rfl, h.raise_inv (by simp)⟩
      | some c => exact ⟨_, _, rfl, h⟩
    | _ => cases hi
  · rw [if_neg hl]
    exact ⟨_, _, rfl, h.raise_inv (by simp)⟩

/-- From a state that meets DEC's invariant every DEC command ends with one answer, and the invariant holds after it. -/
theorem decTransition_inv {i : Instr} (hi : i.isDecCommand = true) {p : Params} {x : Dec} (hv : p.valid = true)
    (h : DecInv p x) : ∃ y w, decTransition i p x = .ok (y, w) ∧ DecInv p y := by
  unfold decTransition
  by_cases hl : legalIn i x.phase = true
  · rw [if_pos hl]
    cases i with
    | decStart => exact ⟨_, _, rfl, decStart_inv hv x⟩
    | decCode c =>
      dsimp only
      by_cases hw : x.phase = .waitFirst
      · rw [if_pos hw]; exact h.first hv hw c
      · have hr : x.phase = .run := by revert hl hw; cases x.phase <;> simp [legalIn]
        rw [if_neg hw]; exact h.later hr c
    | decEnd =>
      dsimp only
      by_cases hw : x.phase = .waitFirst
      · rw [if_pos hw]; exact ⟨_, _, rfl, h.raise_inv (by simp)⟩
      · have hr : x.phase = .run := by revert hl hw; cases x.phase <;> simp [legalIn]
        rw [if_neg hw]; exact ⟨_, _, rfl, h.finish hr⟩
    | decRd a =>
      dsimp only
      cases elementAt x.out a with
      | none => exact ⟨_, _, rfl, h.raise_inv (by simp)⟩
      | some c => exact ⟨_, _, rfl, h⟩
    | decStat n =>
      dsimp only
      cases x.csr n with
      | none => exact ⟨_, _, rfl, h.raise_inv (by simp)⟩
      | some c => exact ⟨_, _, rfl, h⟩
    | _ => cases hi
  · rw [if_neg hl]
    exact ⟨_, _, rfl, h.raise_inv (by simp)⟩

theorem encAnswer_inv {p : Params} {x : Enc} (hv : p.valid = true) (h : EncInv p x) (w : Nat) :
    ∃ y r, encAnswer p w x = .ok (y, r) ∧ EncInv p y := by
  unfold encAnswer
  cases hd : decodeEnc p w with
  | ok i => exact encTransition_inv (decodeEnc_isEnc hd) hv h
  | error e => exact ⟨_, _, rfl, h.raise_inv (by simp)⟩

theorem decAnswer_inv {p : Params} {x : Dec} (hv : p.valid = true) (h : DecInv p x) (w : Nat) :
    ∃ y r, decAnswer p w x = .ok (y, r) ∧ DecInv p y := by
  unfold decAnswer
  cases hd : decodeDec p w with
  | ok i => exact decTransition_inv (decodeDec_isDec hd) hv h
  | error e => exact ⟨_, _, rfl, h.raise_inv (by simp)⟩

/-! ## What a move is -/

/-- What ENC's move does: it waits, or consumes the next word and answers it. -/
theorem encTurn_cases (s : State) :
    (encTurn s = .next s ∧ (s.rst = true ∨ s.encCmd = [])) ∨
    ∃ w ws, s.rst = false ∧ s.encCmd = w :: ws ∧
      encTurn s = State.finishEnc { s with encCmd := ws } (encAnswer s.params w s.enc) := by
  unfold encTurn
  cases hr : s.rst with
  | true => exact .inl ⟨by simp, by simp⟩
  | false =>
    cases hc : s.encCmd with
    | nil => exact .inl ⟨by simp, by simp⟩
    | cons w ws => exact .inr ⟨w, ws, rfl, rfl, by simp [encHandle_eq]⟩

/-- What DEC's move does, likewise. -/
theorem decTurn_cases (s : State) :
    (decTurn s = .next s ∧ (s.rst = true ∨ s.decCmd = [])) ∨
    ∃ w ws, s.rst = false ∧ s.decCmd = w :: ws ∧
      decTurn s = State.finishDec { s with decCmd := ws } (decAnswer s.params w s.dec) := by
  unfold decTurn
  cases hr : s.rst with
  | true => exact .inl ⟨by simp, by simp⟩
  | false =>
    cases hc : s.decCmd with
    | nil => exact .inl ⟨by simp, by simp⟩
    | cons w ws => exact .inr ⟨w, ws, rfl, rfl, by simp [decHandle_eq]⟩

/-- The rest of the turns after a step. -/
theorem step_cases (s : State) :
    (∃ ts, s.turns = .enc :: ts ∧ step s = encTurn { s with turns := ts }) ∨
    (∃ ts, s.turns = .dec :: ts ∧ step s = decTurn { s with turns := ts }) ∨
    (∃ b ts, s.turns = .rst b :: ts ∧ step s = .next (State.driveRst { s with turns := ts } b)) ∨
    (s.turns = [] ∧ s.encCmd ≠ [] ∧ step s = encTurn s) ∨
    (s.turns = [] ∧ s.encCmd = [] ∧ step s = decTurn s) := by
  unfold step advance
  cases ht : s.turns with
  | nil =>
    by_cases hc : s.encCmd = []
    · exact .inr (.inr (.inr (.inr ⟨rfl, hc, by simp [hc]⟩)))
    · exact .inr (.inr (.inr (.inl ⟨rfl, hc, by simp [hc]⟩)))
  | cons t ts =>
    cases t with
    | enc => exact .inl ⟨ts, rfl, rfl⟩
    | dec => exact .inr (.inl ⟨ts, rfl, rfl⟩)
    | rst b => exact .inr (.inr (.inl ⟨b, ts, rfl, rfl⟩))

/-! ## A raise in the machine -/

/-- A transition of ENC that ends by a raise leaves the machine as R186 says. -/
theorem finishEnc_raised (s : State) (e : Err) : s.finishEnc (raised s.params e s.enc) = .next (raisedEnc s e) := by
  by_cases h : s.enc.phase = .fault
  · rw [raised, raise_of_fault _ _ _ h, finishEnc_ok, raisedEnc, if_pos h, respond_zero]; rfl
  · rw [raised, raise_of_not_fault _ _ _ h, finishEnc_ok, raisedEnc, if_neg h, respond_zero]; rfl

/-- A transition of DEC that ends by a raise, likewise. -/
theorem finishDec_raised (s : State) (e : Err) : s.finishDec (raised s.params e s.dec) = .next (raisedDec s e) := by
  by_cases h : s.dec.phase = .fault
  · rw [raised, raise_of_fault _ _ _ h, finishDec_ok, raisedDec, if_pos h, respond_zero]; rfl
  · rw [raised, raise_of_not_fault _ _ _ h, finishDec_ok, raisedDec, if_neg h, respond_zero]; rfl

/-- A command in a phase that is not legal for it raises IllegalCommand (R83 step 4). -/
theorem exec_enc_illegal {i : Instr} (hi : i.isEncCommand = true) {s : State} (h : legalIn i s.enc.phase = false) :
    exec i s = .next (raisedEnc s .illegalCommand) := by
  have h' : ¬ legalIn i s.enc.phase = true := by rw [h]; simp
  rw [exec_enc hi]
  unfold encTransition
  rw [if_neg h', finishEnc_raised]

/-- A command in a phase that is not legal for it raises IllegalCommand, likewise in DEC. -/
theorem exec_dec_illegal {i : Instr} (hi : i.isDecCommand = true) {s : State} (h : legalIn i s.dec.phase = false) :
    exec i s = .next (raisedDec s .illegalCommand) := by
  have h' : ¬ legalIn i s.dec.phase = true := by rw [h]; simp
  rw [exec_dec hi]
  unfold decTransition
  rw [if_neg h', finishDec_raised]

/-! ## What a step can do -/

/-- ENC's move, when it answers a next state: it waited, or consumed the next word and answered it. -/
theorem encTurn_next {s t : State} (h : encTurn s = .next t) :
    t = s ∨ ∃ w ws y r, s.rst = false ∧ s.encCmd = w :: ws ∧ encAnswer s.params w s.enc = .ok (y, r) ∧
      t = State.replyEnc { s with encCmd := ws } y r := by
  rcases encTurn_cases s with ⟨he, -⟩ | ⟨w, ws, hr, hw, he⟩
  · rw [he] at h; exact .inl (Host.Outcome.next.inj h).symm
  · rw [he] at h
    obtain ⟨y, r, ha, rfl⟩ := finishEnc_next h
    exact .inr ⟨w, ws, y, r, hr, hw, ha, rfl⟩

/-- DEC's move, likewise. -/
theorem decTurn_next {s t : State} (h : decTurn s = .next t) :
    t = s ∨ ∃ w ws y r, s.rst = false ∧ s.decCmd = w :: ws ∧ decAnswer s.params w s.dec = .ok (y, r) ∧
      t = State.replyDec { s with decCmd := ws } y r := by
  rcases decTurn_cases s with ⟨he, -⟩ | ⟨w, ws, hr, hw, he⟩
  · rw [he] at h; exact .inl (Host.Outcome.next.inj h).symm
  · rw [he] at h
    obtain ⟨y, r, ha, rfl⟩ := finishDec_next h
    exact .inr ⟨w, ws, y, r, hr, hw, ha, rfl⟩

/-- Everything a step that answers a next state can have done: nothing but use up a turn, move `rst`, or answer one word in
one engine. -/
theorem step_next {s t : State} (h : step s = .next t) :
    ∃ ts, t = { s with turns := ts } ∨
      (∃ b, s.turns = .rst b :: ts ∧ t = State.driveRst { s with turns := ts } b) ∨
      (∃ w ws y r, s.rst = false ∧ s.encCmd = w :: ws ∧ encAnswer s.params w s.enc = .ok (y, r) ∧
        t = State.replyEnc { s with turns := ts, encCmd := ws } y r) ∨
      (∃ w ws y r, s.rst = false ∧ s.decCmd = w :: ws ∧ decAnswer s.params w s.dec = .ok (y, r) ∧
        t = State.replyDec { s with turns := ts, decCmd := ws } y r) := by
  rcases step_cases s with ⟨ts, ht, he⟩ | ⟨ts, ht, he⟩ | ⟨b, ts, ht, he⟩ | ⟨ht, -, he⟩ | ⟨ht, -, he⟩
  · rw [he] at h
    rcases encTurn_next h with h | ⟨w, ws, y, r, h1, h2, h3, h4⟩
    · exact ⟨ts, .inl h⟩
    · exact ⟨ts, .inr (.inr (.inl ⟨w, ws, y, r, h1, h2, h3, h4⟩))⟩
  · rw [he] at h
    rcases decTurn_next h with h | ⟨w, ws, y, r, h1, h2, h3, h4⟩
    · exact ⟨ts, .inl h⟩
    · exact ⟨ts, .inr (.inr (.inr ⟨w, ws, y, r, h1, h2, h3, h4⟩))⟩
  · rw [he] at h
    exact ⟨ts, .inr (.inl ⟨b, ht, (Host.Outcome.next.inj h).symm⟩)⟩
  · rw [he] at h
    rcases encTurn_next h with h | ⟨w, ws, y, r, h1, h2, h3, h4⟩
    · exact ⟨[], .inl (by rw [h, ← ht])⟩
    · exact ⟨[], .inr (.inr (.inl ⟨w, ws, y, r, h1, h2, h3, by rw [h4, ← ht]⟩))⟩
  · rw [he] at h
    rcases decTurn_next h with h | ⟨w, ws, y, r, h1, h2, h3, h4⟩
    · exact ⟨[], .inl (by rw [h, ← ht])⟩
    · exact ⟨[], .inr (.inr (.inr ⟨w, ws, y, r, h1, h2, h3, by rw [h4, ← ht]⟩))⟩

/-- A step that answers a next state is the first step of a run, for any machine. -/
theorem run_succ_of_step (M : Host.Core) {s t : M.State} (h : M.step s = .next t) (n : Nat) :
    Host.Core.run M (n + 1) s = Host.Core.run M n t := by
  rw [Host.Core.run, h]

/-- A step that answers a next state is the first step of a run. -/
theorem run_succ {s t : State} (h : step s = .next t) (n : Nat) :
    Host.Core.run Sys2Proof.core (n + 1) s = Host.Core.run Sys2Proof.core n t :=
  run_succ_of_step Sys2Proof.core h n

/-! ## A move keeps the invariant -/

theorem encTurn_inv {s : State} (h : Inv s) : ∃ t, encTurn s = .next t ∧ Inv t := by
  rcases encTurn_cases s with ⟨he, -⟩ | ⟨w, ws, -, -, he⟩
  · exact ⟨s, he, h⟩
  · obtain ⟨y, r, ha, hy⟩ := encAnswer_inv h.params_valid h.enc w
    rw [he, ha]
    exact ⟨_, rfl, ⟨h.params_valid, hy, h.dec⟩⟩

theorem decTurn_inv {s : State} (h : Inv s) : ∃ t, decTurn s = .next t ∧ Inv t := by
  rcases decTurn_cases s with ⟨he, -⟩ | ⟨w, ws, -, -, he⟩
  · exact ⟨s, he, h⟩
  · obtain ⟨y, r, ha, hy⟩ := decAnswer_inv h.params_valid h.dec w
    rw [he, ha]
    exact ⟨_, rfl, ⟨h.params_valid, h.enc, hy⟩⟩

/-- Turns, pending words and the rst line are no part of the invariant. -/
theorem Inv.withTurns {s : State} (h : Inv s) (ts : List Turn) : Inv { s with turns := ts } :=
  ⟨h.params_valid, h.enc, h.dec⟩

theorem Inv.driveRst {s : State} (h : Inv s) (b : Bool) : Inv (s.driveRst b) := by
  cases b with
  | true => exact ⟨h.params_valid, encReset_inv h.params_valid, decReset_inv h.params_valid⟩
  | false => exact ⟨h.params_valid, h.enc, h.dec⟩

end Sys2Proof.Machine
end

