-- ==== Sys2Proof/Laws/Commands.lean ====
section
/-! SUPPORT. Everything one command can do to its engine, said once: a command that answers either raised, or had the one
effect its rule gives it. The frame, phase and error statements rest on these two lists. -/

namespace Sys2Proof.Machine

/-- What ENC's transition on a command can have done (R120 to R124, R186). -/
inductive EncMove (i : Instr) (p : Params) (x : Enc) : Enc → Nat → Prop where
  /-- A raise: never `NONE`; a START raises only in RUN (or WAIT_FIRST); CapacityExhausted needs a finite capacity; an error
  other than IllegalCommand is found only after the phase test has passed. -/
  | raise (e : Err) (he : e ≠ .none) (hstart : i = .encStart → x.phase = .run ∨ x.phase = .waitFirst)
      (hcap : e = .capacityExhausted → p.dictCap ≠ .infinite ∨ p.outCap ≠ .infinite)
      (hlegal : e ≠ .illegalCommand → legalIn i x.phase = true)
      (hstat : ∀ n, i = .encStat n → 3 ≤ n) : EncMove i p x (x.raise p e).1 (x.raise p e).2
  | start (hi : i = .encStart) (hx : x.phase = .idle ∨ x.phase = .done ∨ x.phase = .fault) :
      EncMove i p x { p2cInit x with prefixReg := [], out := [], err := .none, phase := .run } 0
  | hit (a : Nat) (hi : i = .encSym a) (hx : x.phase = .run) (q : Phrase) : EncMove i p x { x with prefixReg := q } 0
  | miss (a : Nat) (hi : i = .encSym a) (hx : x.phase = .run) (s : Symbol) (c : Nat)
      (hm : p2cRead (x.prefixReg ++ [s]) x.table = none) :
      EncMove i p x { x with out := x.out ++ [c], table := x.table ++ [(x.prefixReg ++ [s], x.nextCode)],
                             nextCode := x.nextCode + 1, prefixReg := [s] } 0
  | finish (hi : i = .encEnd) (hx : x.phase = .run) (l : List Nat) (hl : l.length ≤ 1) (w : Nat) :
      EncMove i p x { x with out := x.out ++ l, phase := .done } w
  | read (hi : (∃ a, i = .encRd a ∧ x.phase = .done) ∨ ∃ n, n ≤ 2 ∧ i = .encStat n) (w : Nat) : EncMove i p x x w

/-- What DEC's transition on a command can have done (R140, R141, R144 to R146, R186). -/
inductive DecMove (i : Instr) (p : Params) (x : Dec) : Dec → Nat → Prop where
  | raise (e : Err) (he : e ≠ .none) (hstart : i = .decStart → x.phase = .run ∨ x.phase = .waitFirst)
      (hcap : e = .capacityExhausted → p.dictCap ≠ .infinite ∨ p.outCap ≠ .infinite)
      (hlegal : e ≠ .illegalCommand → legalIn i x.phase = true)
      (hstat : ∀ n, i = .decStat n → 3 ≤ n) : DecMove i p x (x.raise p e).1 (x.raise p e).2
  | start (hi : i = .decStart) (hx : x.phase = .idle ∨ x.phase = .done ∨ x.phase = .fault) :
      DecMove i p x { c2pInit x with prefixReg := [], out := [], err := .none, phase := .waitFirst } 0
  | first (c : Nat) (hi : i = .decCode c) (hc : c < 256) (hx : x.phase = .waitFirst) :
      DecMove i p x { x with out := [⟨c, hc⟩], prefixReg := [⟨c, hc⟩], phase := .run } 0
  | later (c : Nat) (hi : i = .decCode c) (hx : x.phase = .run) (q r : Phrase) :
      DecMove i p x { x with out := x.out ++ q, table := c2pWrite x.nextCode r x.table,
                             nextCode := x.nextCode + 1, prefixReg := q } 0
  | finish (hi : i = .decEnd) (hx : x.phase = .run) (w : Nat) : DecMove i p x { x with phase := .done } w
  | read (hi : (∃ a, i = .decRd a ∧ x.phase = .done) ∨ ∃ n, n ≤ 2 ∧ i = .decStat n) (w : Nat) : DecMove i p x x w

theorem csr_eq_some {α τ : Type} {x : Engine α τ} {n v : Nat} (h : x.csr n = some v) : n ≤ 2 := by
  by_contra hn
  rw [csr_eq_none.2 (by omega)] at h
  cases h

theorem legalIn_start {i : Instr} {x : Phase} (hi : i = .encStart ∨ i = .decStart) :
    (legalIn i x = true → x = .idle ∨ x = .done ∨ x = .fault) ∧
    (¬ legalIn i x = true → x = .run ∨ x = .waitFirst) := by
  rcases hi with rfl | rfl <;> cases x <;> simp [legalIn]

theorem encTransition_move {i : Instr} (hi : i.isEncCommand = true) {p : Params} {x y : Enc} {w : Nat}
    (h : encTransition i p x = .ok (y, w)) : EncMove i p x y w := by
  have byRaise : ∀ {e : Err}, raised p e x = .ok (y, w) → EncMove i p x (x.raise p e).1 (x.raise p e).2 →
      EncMove i p x y w := by
    intro e h hm
    have : x.raise p e = (y, w) := Except.ok.inj h
    rwa [this] at hm
  unfold encTransition at h
  by_cases hl : legalIn i x.phase = true
  · rw [if_pos hl] at h
    cases i with
    | encStart =>
      simp only [answered, respond_none_zero, Except.ok.injEq, Prod.mk.injEq] at h
      obtain ⟨rfl, rfl⟩ := h
      exact .start rfl ((legalIn_start (.inl rfl)).1 hl)
    | encSym a =>
      have hr : x.phase = .run := by revert hl; cases x.phase <;> simp [legalIn]
      dsimp only at h
      split at h
      · exact byRaise h (.raise _ (by simp) (by simp) (by simp) (fun _ => hl) (by simp))
      · rename_i s _
        simp only [encPass, appendSymbol, p2cLookup_eq] at h
        split at h
        · simp only [answered, respond_none_zero, Except.ok.injEq, Prod.mk.injEq] at h
          obtain ⟨rfl, rfl⟩ := h
          exact .hit a rfl hr _
        · rename_i hm
          have hm' : p2cRead (x.prefixReg ++ [s]) x.table = none := by simpa using hm
          simp only [encMiss] at h
          split at h
          · rename_i hf
            refine byRaise h (.raise _ (by simp) (by simp) (fun _ => ?_) (fun _ => hl) (by simp))
            by_contra hno
            simp only [not_or, not_not] at hno
            simp [encSymFull, hno.1, hno.2] at hf
          · simp only [p2cLookup_eq] at h
            split at h
            · cases h
            · simp only [answered, respond_none_zero, Except.ok.injEq, Prod.mk.injEq, p2cInsert, p2cWrite_of_fresh hm'] at h
              obtain ⟨rfl, rfl⟩ := h
              exact .miss a rfl hr s _ hm'
    | encEnd =>
      have hr : x.phase = .run := by revert hl; cases x.phase <;> simp [legalIn]
      dsimp only at h
      split at h
      · simp only [answered, Except.ok.injEq, Prod.mk.injEq] at h
        have := EncMove.finish (i := .encEnd) (p := p) (x := x) rfl hr [] (by simp) w
        rw [List.append_nil, h.1] at this
        exact this
      · simp only [encFlush] at h
        split at h
        · rename_i hf
          refine byRaise h (.raise _ (by simp) (by simp) (fun _ => .inr ?_) (fun _ => hl) (by simp))
          intro hno
          simp [encEndFull, hno] at hf
        · simp only [p2cLookup_eq] at h
          split at h
          · cases h
          · simp only [answered, Except.ok.injEq, Prod.mk.injEq] at h
            obtain ⟨rfl, rfl⟩ := h
            exact .finish rfl hr [_] (by simp) _
    | encRd a =>
      have hr : x.phase = .done := by revert hl; cases x.phase <;> simp [legalIn]
      dsimp only at h
      split at h
      · exact byRaise h (.raise _ (by simp) (by simp) (by simp) (fun _ => hl) (by simp))
      · simp only [answered, Except.ok.injEq, Prod.mk.injEq] at h
        obtain ⟨rfl, rfl⟩ := h
        exact .read (.inl ⟨a, rfl, hr⟩) _
    | encStat n =>
      dsimp only at h
      split at h
      · rename_i hn
        refine byRaise h (.raise _ (by simp) (by simp) (by simp) (fun _ => hl) ?_)
        rintro m hm
        cases hm
        exact csr_eq_none.1 hn
      · rename_i v hv
        simp only [answered, Except.ok.injEq, Prod.mk.injEq] at h
        obtain ⟨rfl, rfl⟩ := h
        exact .read (.inr ⟨n, csr_eq_some hv, rfl⟩) _
    | _ => cases hi
  · rw [if_neg hl] at h
    refine byRaise h (.raise _ (by simp) ?_ (by simp) (fun hne => absurd rfl hne) ?_)
    · rintro rfl; exact (legalIn_start (.inl rfl)).2 hl
    · rintro n rfl; exact absurd (by simp [legalIn]) hl

theorem decTransition_move {i : Instr} (hi : i.isDecCommand = true) {p : Params} {x y : Dec} {w : Nat}
    (h : decTransition i p x = .ok (y, w)) : DecMove i p x y w := by
  have byRaise : ∀ {e : Err}, raised p e x = .ok (y, w) → DecMove i p x (x.raise p e).1 (x.raise p e).2 →
      DecMove i p x y w := by
    intro e h hm
    have : x.raise p e = (y, w) := Except.ok.inj h
    rwa [this] at hm
  unfold decTransition at h
  by_cases hl : legalIn i x.phase = true
  · rw [if_pos hl] at h
    cases i with
    | decStart =>
      simp only [answered, respond_none_zero, Except.ok.injEq, Prod.mk.injEq] at h
      obtain ⟨rfl, rfl⟩ := h
      exact .start rfl ((legalIn_start (.inr rfl)).1 hl)
    | decCode c =>
      dsimp only at h
      split at h
      · rename_i hw
        rcases Nat.lt_or_ge c 256 with hc | hc
        · simp only [decFirst, symbolOf_of_lt hc, answered, respond_none_zero, Except.ok.injEq, Prod.mk.injEq] at h
          obtain ⟨rfl, rfl⟩ := h
          exact .first c rfl hc hw
        · simp only [decFirst, symbolOf_of_ge hc] at h
          exact byRaise h (.raise _ (by simp) (by simp) (by simp) (fun _ => hl) (by simp))
      · rename_i hw
        have hr : x.phase = .run := by revert hl hw; cases x.phase <;> simp [legalIn]
        have phrase : ∀ q, decPhrase p q x = .ok (y, w) → DecMove (.decCode c) p x y w := by
          intro q h
          simp only [decPhrase] at h
          split at h
          · rename_i hf
            refine byRaise h (.raise _ (by simp) (by simp) (fun _ => ?_) (fun _ => hl) (by simp))
            by_contra hno
            simp only [not_or, not_not] at hno
            simp [decCodeFull, hno.1, hno.2] at hf
          · split at h
            · cases h
            · simp only [answered, respond_none_zero, Except.ok.injEq, Prod.mk.injEq, c2pInsert] at h
              obtain ⟨rfl, rfl⟩ := h
              exact .later c rfl hr q _
        simp only [decLater] at h
        split at h
        · exact phrase _ h
        · cases h
        · split at h
          · simp only [decSpecial] at h
            split at h
            · cases h
            · exact phrase _ h
          · exact byRaise h (.raise _ (by simp) (by simp) (by simp) (fun _ => hl) (by simp))
    | decEnd =>
      dsimp only at h
      split at h
      · exact byRaise h (.raise _ (by simp) (by simp) (by simp) (fun _ => hl) (by simp))
      · rename_i hw
        have hr : x.phase = .run := by revert hl hw; cases x.phase <;> simp [legalIn]
        simp only [answered, Except.ok.injEq, Prod.mk.injEq] at h
        obtain ⟨rfl, rfl⟩ := h
        exact .finish rfl hr _
    | decRd a =>
      have hr : x.phase = .done := by revert hl; cases x.phase <;> simp [legalIn]
      dsimp only at h
      split at h
      · exact byRaise h (.raise _ (by simp) (by simp) (by simp) (fun _ => hl) (by simp))
      · simp only [answered, Except.ok.injEq, Prod.mk.injEq] at h
        obtain ⟨rfl, rfl⟩ := h
        exact .read (.inl ⟨a, rfl, hr⟩) _
    | decStat n =>
      dsimp only at h
      split at h
      · rename_i hn
        refine byRaise h (.raise _ (by simp) (by simp) (by simp) (fun _ => hl) ?_)
        rintro m hm
        cases hm
        exact csr_eq_none.1 hn
      · rename_i v hv
        simp only [answered, Except.ok.injEq, Prod.mk.injEq] at h
        obtain ⟨rfl, rfl⟩ := h
        exact .read (.inr ⟨n, csr_eq_some hv, rfl⟩) _
    | _ => cases hi
  · rw [if_neg hl] at h
    refine byRaise h (.raise _ (by simp) ?_ (by simp) (fun hne => absurd rfl hne) ?_)
    · rintro rfl; exact (legalIn_start (.inr rfl)).2 hl
    · rintro n rfl; exact absurd (by simp [legalIn]) hl

/-- An ENC command that answers a next state made one of ENC's moves and changed nothing else. -/
theorem exec_enc_next {i : Instr} (hi : i.isEncCommand = true) {s t : State} (h : exec i s = .next t) :
    ∃ y w, EncMove i s.params s.enc y w ∧ t = s.replyEnc y w := by
  rw [exec_enc hi] at h
  obtain ⟨y, w, hy, rfl⟩ := finishEnc_next h
  exact ⟨y, w, encTransition_move hi hy, rfl⟩

/-- A DEC command that answers a next state made one of DEC's moves and changed nothing else. -/
theorem exec_dec_next {i : Instr} (hi : i.isDecCommand = true) {s t : State} (h : exec i s = .next t) :
    ∃ y w, DecMove i s.params s.dec y w ∧ t = s.replyDec y w := by
  rw [exec_dec hi] at h
  obtain ⟨y, w, hy, rfl⟩ := finishDec_next h
  exact ⟨y, w, decTransition_move hi hy, rfl⟩

/-- A host command is one of ENC's or one of DEC's (R70). -/
theorem isHostCommand_cases {i : Instr} (h : i.isHostCommand = true) : i.isEncCommand = true ∨ i.isDecCommand = true := by
  cases i <;> first | exact .inl rfl | exact .inr rfl | cases h

/-- ENC's answer to a word: the raise of IllegalCommand for a word that does not decode, or the move of the command it is. -/
theorem encAnswer_cases {p : Params} {w : Nat} {x y : Enc} {r : Nat} (h : encAnswer p w x = .ok (y, r)) :
    ((∃ e, decodeEnc p w = .error e) ∧ (y, r) = x.raise p .illegalCommand) ∨
    ∃ i, decodeEnc p w = .ok i ∧ i.isEncCommand = true ∧ EncMove i p x y r := by
  unfold encAnswer at h
  split at h
  · rename_i i hi
    exact .inr ⟨i, hi, decodeEnc_isEnc hi, encTransition_move (decodeEnc_isEnc hi) h⟩
  · rename_i e he
    exact .inl ⟨⟨e, he⟩, (Except.ok.inj h).symm⟩

/-- DEC's answer to a word, likewise. -/
theorem decAnswer_cases {p : Params} {w : Nat} {x y : Dec} {r : Nat} (h : decAnswer p w x = .ok (y, r)) :
    ((∃ e, decodeDec p w = .error e) ∧ (y, r) = x.raise p .illegalCommand) ∨
    ∃ i, decodeDec p w = .ok i ∧ i.isDecCommand = true ∧ DecMove i p x y r := by
  unfold decAnswer at h
  split at h
  · rename_i i hi
    exact .inr ⟨i, hi, decodeDec_isDec hi, decTransition_move (decodeDec_isDec hi) h⟩
  · rename_i e he
    exact .inl ⟨⟨e, he⟩, (Except.ok.inj h).symm⟩

end Sys2Proof.Machine
end

