-- ==== Sys2Proof/Laws/Runs.lean ====
section
/-! SUPPORT. Runs of one engine's commands (43_run_contracts.md): a command list as a transition of the engine alone, the
loops of the pure functions followed command by command, and the relation between the two loops (R166). -/

namespace Sys2Proof.Machine

/-! ## A list of commands of one engine -/

/-- ENC's transitions on a list of commands: the engine after them and the responses, in order. -/
def encTransitions (is : List Instr) (p : Params) (x : Enc) : Except Fault (Enc × List Nat) :=
  match is with
  | [] => .ok (x, [])
  | i :: rest =>
    match encTransition i p x with
    | .error f => .error f
    | .ok (y, w) =>
      match encTransitions rest p y with
      | .error f => .error f
      | .ok (z, ws) => .ok (z, w :: ws)

/-- DEC's transitions on a list of commands. -/
def decTransitions (is : List Instr) (p : Params) (x : Dec) : Except Fault (Dec × List Nat) :=
  match is with
  | [] => .ok (x, [])
  | i :: rest =>
    match decTransition i p x with
    | .error f => .error f
    | .ok (y, w) =>
      match decTransitions rest p y with
      | .error f => .error f
      | .ok (z, ws) => .ok (z, w :: ws)

/-- Commands of ENC run as ENC's transitions, everything else staying as it is. -/
theorem runCommands_enc {is : List Instr} (h : ∀ i ∈ is, i.isEncCommand = true) (s : State) :
    runCommands is s = match encTransitions is s.params s.enc with
      | .ok (y, ws) => .next { s with enc := y, encRsp := s.encRsp ++ ws }
      | .error f => .fault f := by
  induction is generalizing s with
  | nil => simp [runCommands, encTransitions]
  | cons i rest ih =>
    rw [runCommands, exec_enc (h i List.mem_cons_self), encTransitions]
    cases encTransition i s.params s.enc with
    | error f => rfl
    | ok r =>
      obtain ⟨y, w⟩ := r
      simp only [finishEnc_ok]
      rw [ih (fun j hj => h j (List.mem_cons_of_mem _ hj))]
      simp only [replyEnc_params, replyEnc_enc, replyEnc_encRsp]
      cases encTransitions rest s.params y with
      | error f => rfl
      | ok r => simp [State.replyEnc]

/-- Commands of DEC run as DEC's transitions, everything else staying as it is. -/
theorem runCommands_dec {is : List Instr} (h : ∀ i ∈ is, i.isDecCommand = true) (s : State) :
    runCommands is s = match decTransitions is s.params s.dec with
      | .ok (y, ws) => .next { s with dec := y, decRsp := s.decRsp ++ ws }
      | .error f => .fault f := by
  induction is generalizing s with
  | nil => simp [runCommands, decTransitions]
  | cons i rest ih =>
    rw [runCommands, exec_dec (h i List.mem_cons_self), decTransitions]
    cases decTransition i s.params s.dec with
    | error f => rfl
    | ok r =>
      obtain ⟨y, w⟩ := r
      simp only [finishDec_ok]
      rw [ih (fun j hj => h j (List.mem_cons_of_mem _ hj))]
      simp only [replyDec_params, replyDec_dec, replyDec_decRsp]
      cases decTransitions rest s.params y with
      | error f => rfl
      | ok r => simp [State.replyDec]

theorem encodeExpansion_enc (xs : List Nat) : ∀ i ∈ encodeExpansion xs, i.isEncCommand = true := by
  intro i hi
  simp only [encodeExpansion, List.mem_cons, List.mem_append, List.mem_map, List.not_mem_nil, or_false] at hi
  rcases hi with rfl | ⟨a, -, rfl⟩ | rfl <;> rfl

theorem decodeExpansion_dec (cs : List Nat) : ∀ i ∈ decodeExpansion cs, i.isDecCommand = true := by
  intro i hi
  simp only [decodeExpansion, List.mem_cons, List.mem_append, List.mem_map, List.not_mem_nil, or_false] at hi
  rcases hi with rfl | ⟨a, -, rfl⟩ | rfl <;> rfl

/-! ## The encoder follows its loop -/

theorem encTransition_of_run {x : Enc} (hr : x.phase = .run) (p : Params) (s : Symbol) :
    encTransition (.encSym s.val) p x = encPass p s x := by
  unfold encTransition
  rw [if_pos (by rw [hr]; rfl)]
  simp only [symbolOf_of_lt s.isLt]

/-- One pass of the loop, with its three outcomes written out (R121). -/
theorem encPass_cases {p : Params} {x : Enc} (h : EncInv p x) (hr : x.phase = .run) (s : Symbol) :
    ((p2cRead (x.prefixReg ++ [s]) x.table).isSome = true ∧
      encPass p s x = .ok ({ x with prefixReg := x.prefixReg ++ [s] }, 0)) ∨
    (p2cRead (x.prefixReg ++ [s]) x.table = none ∧ encSymFull p x = true ∧
      encPass p s x = .ok ({ x with out := [], err := .capacityExhausted, phase := .fault }, 5)) ∨
    ∃ pc, p2cRead (x.prefixReg ++ [s]) x.table = none ∧ encSymFull p x = false ∧ p2cRead x.prefixReg x.table = some pc ∧
      encPass p s x = .ok ({ x with out := x.out ++ [pc], table := x.table ++ [(x.prefixReg ++ [s], x.nextCode)],
                                    nextCode := x.nextCode + 1, prefixReg := [s] }, 0) := by
  have h00 := respond_none_zero p
  unfold encPass
  simp only [p2cLookup_eq, appendSymbol, answered, h00]
  cases hc : p2cRead (x.prefixReg ++ [s]) x.table with
  | some c => exact .inl ⟨rfl, rfl⟩
  | none =>
    right
    have hne : x.prefixReg ≠ [] := by
      intro h0
      rw [h0, List.nil_append, h.read_single] at hc
      cases hc
    obtain ⟨c, hread, -⟩ := h.prefix_bound hr hne
    simp only [Option.isSome_none, Bool.false_eq_true, if_false, encMiss]
    cases hf : encSymFull p x with
    | true =>
      refine .inl ⟨trivial, rfl, ?_⟩
      rw [if_pos rfl, raised, raise_of_not_fault _ _ _ (by simp [hr]), respond_zero]
      rfl
    | false =>
      refine .inr ⟨c, trivial, rfl, hread, ?_⟩
      simp only [Bool.false_eq_true, if_false, p2cLookup_eq, hread, p2cInsert, answered, h00, p2cWrite_of_fresh hc]

/-- A run of ENC_SYM commands from a running engine: it follows the loop, or ends by running out of capacity. -/
theorem encTransitions_loop {p : Params} (xs : List Symbol) {x : Enc} (h : EncInv p x) (hr : x.phase = .run) :
    (∃ y, encTransitions (xs.map (fun s => .encSym s.val) ++ [.encEnd]) p x =
        .ok (y, List.replicate xs.length 0 ++ [respond p .none y.out.length]) ∧ y.phase = .done ∧ y.err = .none ∧
        y.out = encLoop x.table x.nextCode x.prefixReg x.out xs ∧ EncInv p y ∧
        x.out.length + (if x.prefixReg = [] ∧ xs = [] then 0 else 1) ≤ y.out.length ∧
        y.out.length ≤ x.out.length + xs.length + 1) ∨
    (∃ y ws, encTransitions (xs.map (fun s => .encSym s.val) ++ [.encEnd]) p x = .ok (y, ws) ∧ y.phase = .fault ∧
        y.err = .capacityExhausted ∧ (p.dictCap ≠ .infinite ∨ p.outCap ≠ .infinite)) := by
  have herr : x.err = .none := by
    by_contra he
    have := h.err_iff_fault.1 he
    simp [hr] at this
  induction xs generalizing x with
  | nil =>
    simp only [List.map_nil, List.nil_append, List.length_nil, List.replicate_zero, encLoop]
    have hl : legalIn .encEnd x.phase = true := by rw [hr]; rfl
    have ht : encTransition .encEnd p x =
        if x.prefixReg = [] then answered p x.out.length { x with phase := .done } else encFlush p x := by
      unfold encTransition; rw [if_pos hl]
    by_cases h0 : x.prefixReg = []
    · left
      refine ⟨{ x with phase := .done }, ?_, rfl, herr, ?_, h.end_empty hr h0, ?_, ?_⟩
      · simp [encTransitions, ht, h0, answered]
      · simp [h0]
      · simp [h0]
      · simp
    · obtain ⟨c, hread, -⟩ := h.prefix_bound hr h0
      rw [if_neg h0] at ht
      by_cases hf : encEndFull p x = true
      · right
        refine ⟨{ x with out := [], err := .capacityExhausted, phase := .fault }, [respond p .capacityExhausted 0], ?_,
          rfl, rfl, ?_⟩
        · simp only [encTransitions, ht, encFlush, hf, if_true, raised]
          rw [raise_of_not_fault _ _ _ (by simp [hr])]
        · right; intro hi; simp [encEndFull, hi] at hf
      · left
        have hfl : encFlush p x = .ok ({ x with out := x.out ++ [c], phase := .done }, respond p .none (x.out.length + 1)) := by
          simp [encFlush, hf, p2cLookup_eq, hread, answered]
        refine ⟨{ x with out := x.out ++ [c], phase := .done }, ?_, rfl, herr, ?_, ?_, ?_, ?_⟩
        · simp only [encTransitions, ht, hfl]
          simp
        · simp [h0, hread]
        · obtain ⟨y, w, hy, hinv⟩ := h.flush hr h0
          rw [hfl] at hy
          cases hy
          exact hinv
        · simp [h0]
        · simp
  | cons s rest ih =>
    simp only [List.map_cons, List.cons_append, encTransitions, encTransition_of_run hr]
    obtain ⟨y0, w0, hy0, hinv0⟩ := h.pass hr s
    rcases encPass_cases h hr s with ⟨hh, he⟩ | ⟨hh, hf, he⟩ | ⟨pc, hh, hf, hread, he⟩
    · rw [hy0] at he; cases he
      rw [hy0]
      rcases ih hinv0 hr herr with ⟨y, hy, h1, h2, h3, h4, h5, h6⟩ | ⟨y, ws, hy, h1, h2, h3⟩
      · left
        refine ⟨y, by simp only [hy]; simp [List.replicate_succ], h1, h2, ?_, h4, ?_, ?_⟩
        · rw [h3, encLoop, if_pos hh]
        · simpa using h5
        · simp at h6 ⊢; omega
      · right
        exact ⟨y, 0 :: ws, by simp only [hy], h1, h2, h3⟩
    · right
      rw [hy0] at he; cases he
      rw [hy0]
      have hcap : p.dictCap ≠ .infinite ∨ p.outCap ≠ .infinite := by
        by_contra hno
        simp only [not_or, not_not] at hno
        simp [encSymFull, hno.1, hno.2] at hf
      have stay : ∀ (js : List Instr) (z : Enc), z.phase = .fault → (∀ j ∈ js, (∃ a, j = .encSym a) ∨ j = .encEnd) →
          ∃ ws, encTransitions js p z = .ok (z, ws) := by
        intro js
        induction js with
        | nil => intro z _ _; exact ⟨[], rfl⟩
        | cons j js ihj =>
          intro z hz hjs
          have hj : encTransition j p z = .ok (z, respond p z.err 0) := by
            rcases hjs j List.mem_cons_self with ⟨a, rfl⟩ | rfl <;>
            · unfold encTransition
              rw [if_neg (by rw [hz]; simp [legalIn]), raised, raise_of_fault _ _ _ hz]
          obtain ⟨ws, hws⟩ := ihj z hz (fun k hk => hjs k (List.mem_cons_of_mem _ hk))
          exact ⟨respond p z.err 0 :: ws, by rw [encTransitions, hj]; simp only [hws]⟩
      obtain ⟨ws, hws⟩ := stay (rest.map (fun s => .encSym s.val) ++ [.encEnd])
        { x with out := [], err := .capacityExhausted, phase := .fault } rfl (by
          intro j hj
          simp only [List.mem_append, List.mem_map, List.mem_singleton] at hj
          rcases hj with ⟨a, -, rfl⟩ | rfl
          · exact .inl ⟨_, rfl⟩
          · exact .inr rfl)
      exact ⟨{ x with out := [], err := .capacityExhausted, phase := .fault }, 5 :: ws, by simp only [hws], rfl, rfl, hcap⟩
    · rw [hy0] at he; cases he
      rw [hy0]
      rcases ih hinv0 hr herr with ⟨y, hy, h1, h2, h3, h4, h5, h6⟩ | ⟨y, ws, hy, h1, h2, h3⟩
      · left
        refine ⟨y, by simp only [hy]; simp [List.replicate_succ], h1, h2, ?_, h4, ?_, ?_⟩
        · rw [h3, encLoop, if_neg (by simp [hh]), hread]; rfl
        · simp at h5 ⊢; omega
        · simp at h6 ⊢; omega
      · right
        exact ⟨y, 0 :: ws, by simp only [hy], h1, h2, h3⟩

end Sys2Proof.Machine
end

