-- ==== Sys2Proof/Laws/RoundTrip.lean ====
section
/-! SUPPORT. The decoder follows its loop command by command, and the decoder's loop undoes the encoder's (R166). -/

namespace Sys2Proof.Machine

/-! ## The decoder follows its loop -/

/-- A later codeword, with its outcomes written out (R141, R148). -/
theorem decLater_cases {p : Params} {x : Dec} (h : DecInv p x) (hr : x.phase = .run) (c : Nat) :
    (x.nextCode < c ∧ decLater p c x = .ok ({ x with out := [], err := .invalidCodeword, phase := .fault }, 2)) ∨
    (c ≤ x.nextCode ∧ decCodeFull p x (decodedPhrase x.table x.prefixReg c) = true ∧
      decLater p c x = .ok ({ x with out := [], err := .capacityExhausted, phase := .fault }, 5)) ∨
    (c ≤ x.nextCode ∧ decCodeFull p x (decodedPhrase x.table x.prefixReg c) = false ∧
      decLater p c x = .ok ({ x with
        out := x.out ++ decodedPhrase x.table x.prefixReg c
        table := x.table ++ [x.prefixReg ++ (decodedPhrase x.table x.prefixReg c).take 1]
        nextCode := x.nextCode + 1
        prefixReg := decodedPhrase x.table x.prefixReg c }, 0)) := by
  have hnf : x.phase ≠ .fault := by simp [hr]
  have main : ∀ q, q ≠ [] → q = decodedPhrase x.table x.prefixReg c → decLater p c x = decPhrase p q x → c ≤ x.nextCode →
      (c ≤ x.nextCode ∧ decCodeFull p x (decodedPhrase x.table x.prefixReg c) = true ∧
        decLater p c x = .ok ({ x with out := [], err := .capacityExhausted, phase := .fault }, 5)) ∨
      (c ≤ x.nextCode ∧ decCodeFull p x (decodedPhrase x.table x.prefixReg c) = false ∧
        decLater p c x = .ok ({ x with
          out := x.out ++ decodedPhrase x.table x.prefixReg c
          table := x.table ++ [x.prefixReg ++ (decodedPhrase x.table x.prefixReg c).take 1]
          nextCode := x.nextCode + 1
          prefixReg := decodedPhrase x.table x.prefixReg c }, 0)) := by
    intro q hq hqd heq hle
    rw [heq, ← hqd]
    cases hf : decCodeFull p x q with
    | true =>
      refine .inl ⟨hle, rfl, ?_⟩
      rw [decPhrase, if_pos hf, raised, raise_of_not_fault _ _ _ hnf, respond_zero]
      rfl
    | false =>
      refine .inr ⟨hle, rfl, ?_⟩
      cases q with
      | nil => exact absurd rfl hq
      | cons a l =>
        have hw : ∀ r, c2pWrite x.nextCode r x.table = x.table ++ [r] := by
          intro r; rw [← h.size, c2pWrite_at_end]
        simp only [decPhrase, hf, Bool.false_eq_true, if_false, firstSymbol, List.head?_cons, appendSymbol, answered,
          respond_none_zero, c2pInsert, hw, List.take_succ_cons, List.take_zero]
  rcases Nat.lt_trichotomy c x.nextCode with hc | hc | hc
  · right
    obtain ⟨q, hq⟩ := h.bound_iff.1 hc
    have hd : decodedPhrase x.table x.prefixReg c = q := by
      rw [decodedPhrase, h.size, if_pos hc, phraseAt, hq]
      rfl
    exact main q (h.entry_ne_nil hq) hd.symm (by simp only [decLater, c2pLookup, if_pos hc, c2pRead, hq]) hc.le
  · right
    obtain ⟨f, hf⟩ := h.prefix_head hr
    have hp : x.prefixReg ++ [f] = decodedPhrase x.table x.prefixReg c := by
      unfold firstSymbol at hf
      cases hpr : x.prefixReg with
      | nil => simp [hpr] at hf
      | cons a l =>
        simp only [hpr, List.head?_cons, Option.some.injEq] at hf
        simp [decodedPhrase, h.size, hc, hf]
    refine main (x.prefixReg ++ [f]) (by simp) hp ?_ hc.le
    simp only [decLater, c2pLookup, if_neg (by omega : ¬ c < x.nextCode), if_pos hc, decSpecial, hf, appendSymbol]
  · left
    refine ⟨hc, ?_⟩
    simp only [decLater, c2pLookup, if_neg (by omega : ¬ c < x.nextCode), if_neg (by omega : ¬ c = x.nextCode), raised,
      raise_of_not_fault _ _ _ hnf, respond_zero]
    rfl

theorem decTransition_of_run {x : Dec} (hr : x.phase = .run) (p : Params) (c : Nat) :
    decTransition (.decCode c) p x = decLater p c x := by
  unfold decTransition
  rw [if_pos (by rw [hr]; rfl)]
  simp [hr]

/-- In FAULT the data commands and END change nothing (R187). -/
theorem decTransitions_fault (js : List Instr) (p : Params) {z : Dec} (hz : z.phase = .fault)
    (hjs : ∀ j ∈ js, (∃ a, j = .decCode a) ∨ j = .decEnd) :
    decTransitions js p z = .ok (z, List.replicate js.length z.err.code) := by
  induction js with
  | nil => rfl
  | cons j js ih =>
    have hj : decTransition j p z = .ok (z, z.err.code) := by
      rcases hjs j List.mem_cons_self with ⟨a, rfl⟩ | rfl <;>
      · unfold decTransition
        rw [if_neg (by rw [hz]; simp [legalIn]), raised, raise_of_fault _ _ _ hz, respond_zero]
    rw [decTransitions, hj]
    simp only [ih (fun k hk => hjs k (List.mem_cons_of_mem _ hk))]
    simp [List.replicate_succ]

/-- A run of later codewords from a running engine: it follows the loop if all are valid, raises InvalidCodeword if one is
not, or ends by running out of capacity. -/
theorem decTransitions_loop {p : Params} (cs : List Nat) {x : Dec} (h : DecInv p x) (hr : x.phase = .run) :
    (laterValid x.nextCode cs = true ∧ ∃ y, decTransitions (cs.map .decCode ++ [.decEnd]) p x =
        .ok (y, List.replicate cs.length 0 ++ [respond p .none y.out.length]) ∧ y.phase = .done ∧ y.err = .none ∧
        y.out = decLoop x.table x.prefixReg x.out cs ∧ y.nextCode = x.nextCode + cs.length) ∨
    (laterValid x.nextCode cs = false ∧ ∃ y ws, decTransitions (cs.map .decCode ++ [.decEnd]) p x = .ok (y, ws) ∧
        y.phase = .fault ∧ y.err = .invalidCodeword ∧ y.out = []) ∨
    (∃ y ws, decTransitions (cs.map .decCode ++ [.decEnd]) p x = .ok (y, ws) ∧ y.phase = .fault ∧
        y.err = .capacityExhausted ∧ (p.dictCap ≠ .infinite ∨ p.outCap ≠ .infinite)) := by
  have herr : x.err = .none := by
    by_contra he
    have := h.err_iff_fault.1 he
    simp [hr] at this
  have rest_form : ∀ cs : List Nat, ∀ j ∈ cs.map Instr.decCode ++ [.decEnd], (∃ a, j = .decCode a) ∨ j = .decEnd := by
    intro cs j hj
    simp only [List.mem_append, List.mem_map, List.mem_singleton] at hj
    rcases hj with ⟨a, -, rfl⟩ | rfl
    · exact .inl ⟨_, rfl⟩
    · exact .inr rfl
  induction cs generalizing x with
  | nil =>
    left
    have ht : decTransition .decEnd p x = .ok ({ x with phase := .done }, respond p .none x.out.length) := by
      unfold decTransition
      rw [if_pos (by rw [hr]; rfl)]
      simp [hr, answered]
    refine ⟨rfl, { x with phase := .done }, ?_, rfl, herr, rfl, rfl⟩
    simp [decTransitions, ht]
  | cons c rest ih =>
    simp only [List.map_cons, List.cons_append, decTransitions, decTransition_of_run hr]
    obtain ⟨y0, w0, hy0, hinv0⟩ := h.later hr c
    rcases decLater_cases h hr c with ⟨hlt, he⟩ | ⟨hle, hf, he⟩ | ⟨hle, hf, he⟩
    · right; left
      rw [he]
      simp only [decTransitions_fault (rest.map .decCode ++ [.decEnd]) p
        (z := { x with out := [], err := .invalidCodeword, phase := .fault }) rfl (rest_form rest)]
      exact ⟨by simp [laterValid, Nat.not_le.2 hlt], _, _, rfl, rfl, rfl, rfl⟩
    · right; right
      rw [he]
      simp only [decTransitions_fault (rest.map .decCode ++ [.decEnd]) p
        (z := { x with out := [], err := .capacityExhausted, phase := .fault }) rfl (rest_form rest)]
      refine ⟨_, _, rfl, rfl, rfl, ?_⟩
      by_contra hno
      simp only [not_or, not_not] at hno
      simp [decCodeFull, hno.1, hno.2] at hf
    · rw [hy0] at he
      cases he
      rw [hy0]
      have hv : laterValid x.nextCode (c :: rest) = laterValid (x.nextCode + 1) rest := by simp [laterValid, hle]
      rcases ih hinv0 hr herr with ⟨hl, y, hy, h1, h2, h3, h4⟩ | ⟨hl, y, ws, hy, h1, h2, h3⟩ | ⟨y, ws, hy, h1, h2, h3⟩
      · left
        refine ⟨by rw [hv]; exact hl, y, by simp only [hy]; simp [List.replicate_succ], h1, h2, h3, ?_⟩
        simp at h4 ⊢; omega
      · right; left
        exact ⟨by rw [hv]; exact hl, y, 0 :: ws, by simp only [hy], h1, h2, h3⟩
      · right; right
        exact ⟨y, 0 :: ws, by simp only [hy], h1, h2, h3⟩

/-! ## The decoder's loop undoes the encoder's -/

/-- The encoder's loop only appends to the output it starts with. -/
theorem encLoop_out (xs : List Symbol) (t : P2cTable) (n : Nat) (p : Phrase) (out : List Nat) :
    encLoop t n p out xs = out ++ encLoop t n p [] xs := by
  induction xs generalizing t n p out with
  | nil => unfold encLoop; split <;> simp
  | cons x rest ih =>
    simp only [encLoop]
    split
    · exact ih _ _ _ _
    · rw [ih, ih _ _ _ ([] ++ _)]; simp

/-- The decoder, one entry behind the encoder, decodes the encoder's next codeword to the encoder's prefix (R142, R166). -/
theorem decodedPhrase_eq_prefix {t : P2cTable} {p q : Phrase} {c : Nat} {f : Symbol} (hq : q ≠ []) (hp : p.head? = some f)
    (hcodes : (t ++ [(q ++ [f], t.length)]).map Prod.snd = List.range (t.length + 1))
    (hc : (p, c) ∈ t ++ [(q ++ [f], t.length)]) :
    c ≤ t.length ∧ decodedPhrase (t.map Prod.fst) q c = p := by
  have hidx : ∀ (e : Phrase × Nat), e ∈ t → t[e.2]? = some e := by
    intro e he
    obtain ⟨i, hi⟩ := List.mem_iff_getElem?.1 he
    have hil := (List.getElem?_eq_some_iff.1 hi).1
    have h1 : ((t ++ [(q ++ [f], t.length)]).map Prod.snd)[i]? = some e.2 := by
      rw [List.getElem?_map, List.getElem?_append_left hil, hi]; rfl
    rw [hcodes, List.getElem?_range (by omega)] at h1
    rw [← Option.some.inj h1]; exact hi
  rcases List.mem_append.1 hc with hm | hm
  · have hi := hidx _ hm
    have hil := (List.getElem?_eq_some_iff.1 hi).1
    refine ⟨Nat.le_of_lt hil, ?_⟩
    simp only at hil hi
    rw [decodedPhrase, if_pos (by simpa using hil), phraseAt, List.getElem?_map, hi]
    rfl
  · simp only [List.mem_singleton, Prod.mk.injEq] at hm
    obtain ⟨rfl, rfl⟩ := hm
    refine ⟨Nat.le_refl _, ?_⟩
    cases q with
    | nil => exact absurd rfl hq
    | cons a l =>
      simp only [List.cons_append, List.head?_cons, Option.some.injEq] at hp
      simp [decodedPhrase, hp]

/-- The heart of the round trip (R166): from a moment at which the decoder is one entry behind the encoder, the decoder
turns the rest of the encoder's output into the encoder's prefix and the rest of its input, and every codeword is valid. -/
theorem decLoop_encLoop (xs : List Symbol) {t : P2cTable} {p q : Phrase} {f : Symbol} (out : List Symbol)
    (hq : q ≠ []) (hp : p.head? = some f) (hlen : 256 ≤ t.length)
    (hcodes : (t ++ [(q ++ [f], t.length)]).map Prod.snd = List.range (t.length + 1))
    (hpre : (t.take 256) = p2cPreload) (hkey : ∃ c, p2cRead p (t ++ [(q ++ [f], t.length)]) = some c) :
    decLoop (t.map Prod.fst) q out (encLoop (t ++ [(q ++ [f], t.length)]) (t.length + 1) p [] xs) = out ++ p ++ xs ∧
    laterValid t.length (encLoop (t ++ [(q ++ [f], t.length)]) (t.length + 1) p [] xs) = true := by
  induction xs generalizing t p q f out with
  | nil =>
    obtain ⟨c, hc⟩ := hkey
    have hp0 : p ≠ [] := by rintro rfl; simp at hp
    obtain ⟨hle, hd⟩ := decodedPhrase_eq_prefix hq hp hcodes (p2cRead_mem hc)
    simp [encLoop, hp0, hc, decLoop, hd, laterValid, hle]
  | cons x rest ih =>
    obtain ⟨c, hc⟩ := hkey
    have hp0 : p ≠ [] := by rintro rfl; simp at hp
    obtain ⟨hle, hd⟩ := decodedPhrase_eq_prefix hq hp hcodes (p2cRead_mem hc)
    cases hx : p2cRead (p ++ [x]) (t ++ [(q ++ [f], t.length)]) with
    | some d =>
      have hp' : (p ++ [x]).head? = some f := by
        cases p with
        | nil => exact absurd rfl hp0
        | cons a l => simpa using hp
      have := ih out hq hp' hlen hcodes hpre ⟨d, hx⟩
      simp only [encLoop, hx, Option.isSome_some, if_true]
      rw [this.1]
      exact ⟨by simp, this.2⟩
    | none =>
      simp only [encLoop, hx, Option.isSome_none, Bool.false_eq_true, if_false, hc, Option.toList_some, List.nil_append]
      rw [encLoop_out]
      have hl : (t ++ [(q ++ [f], t.length)]).length = t.length + 1 := by simp
      have hread : p2cRead [x] ((t ++ [(q ++ [f], t.length)]) ++ [(p ++ [x], (t ++ [(q ++ [f], t.length)]).length)]) =
          some x.val := by
        have : p2cRead [x] t = some x.val := by
          rw [← List.take_append_drop 256 t, p2cRead_append, hpre, p2cRead_preload]
          rfl
        rw [List.append_assoc, p2cRead_append, this]
        rfl
      have step := ih (t := t ++ [(q ++ [f], t.length)]) (p := [x]) (q := p) (f := x) (out ++ p) hp0 rfl
        (by rw [hl]; omega)
        (by rw [List.map_append, hcodes, hl, List.range_succ (n := t.length + 1)]; rfl)
        (by rw [List.take_append_of_le_length hlen, hpre])
        ⟨x.val, hread⟩
      rw [hl] at step
      have htake : p.take 1 = [f] := by
        cases p with
        | nil => exact absurd rfl hp0
        | cons a l => simp at hp; simp [hp]
      have hT : t.map Prod.fst ++ [q ++ (decodedPhrase (t.map Prod.fst) q c).take 1] =
          (t ++ [(q ++ [f], t.length)]).map Prod.fst := by
        rw [hd, htake]; simp
      refine ⟨?_, ?_⟩
      · simp only [List.singleton_append, decLoop]
        rw [hT, hd, step.1]
        simp
      · simp only [List.singleton_append, laterValid, Bool.and_eq_true, decide_eq_true_eq]
        exact ⟨hle, step.2⟩

/-- While the table is the preload, the first codeword of a run is its first symbol's, and the rest of the run is one that
`decLoop_encLoop` speaks of: the pure functions undo each other (R162). -/
theorem dec_enc {xs : List Symbol} (hxs : xs ≠ []) :
    ∃ c rest, enc xs = c :: rest ∧ c < 256 ∧ laterValid 256 rest = true ∧ dec (enc xs) = xs := by
  cases xs with
  | nil => exact absurd rfl hxs
  | cons x ys =>
    have hx : enc (x :: ys) = encLoop p2cPreload 256 [x] [] ys := by
      simp [enc, encLoop, p2cRead_preload]
    rw [hx]
    have hph : phraseAt c2pPreload x.val = [x] := by rw [phraseAt, c2pPreload_getElem?]; rfl
    cases ys with
    | nil =>
      refine ⟨x.val, [], by simp [encLoop, p2cRead_preload], x.isLt, rfl, ?_⟩
      simp [encLoop, p2cRead_preload, dec, decLoop, hph]
    | cons y zs =>
      have hmiss : p2cRead [x, y] p2cPreload = none := by
        rw [p2cRead_eq_none]
        intro hm
        obtain ⟨⟨q, c⟩, he, hq⟩ := List.mem_map.1 hm
        obtain ⟨k, hk, -⟩ := mem_p2cPreload.1 he
        rw [hk] at hq
        simp at hq
      have hstep : encLoop p2cPreload 256 [x] [] (y :: zs) =
          x.val :: encLoop (p2cPreload ++ [([x] ++ [y], 256)]) 257 [y] [] zs := by
        rw [encLoop]
        simp only [List.singleton_append, hmiss, Option.isSome_none, Bool.false_eq_true, if_false, p2cRead_preload,
          Option.toList_some, List.nil_append]
        rw [encLoop_out]
        rfl
      have main := decLoop_encLoop zs (t := p2cPreload) (p := [y]) (q := [x]) (f := y) [x] (by simp) rfl
        (by rw [p2cPreload_length]) (by rw [List.map_append, p2cPreload_codes, p2cPreload_length]; exact List.range_succ.symm)
        (List.take_of_length_le p2cPreload_length.le)
        ⟨y.val, by rw [p2cRead_append, p2cRead_preload]; rfl⟩
      rw [p2cPreload_length] at main
      have hmap : p2cPreload.map Prod.fst = c2pPreload := by simp [p2cPreload, c2pPreload]
      rw [hmap] at main
      refine ⟨x.val, _, hstep, x.isLt, main.2, ?_⟩
      rw [hstep]
      simp only [dec, hph]
      exact main.1

end Sys2Proof.Machine
end

