-- ==== Sys2Proof/Laws/History.lean ====
section
/-! SUPPORT. What the encoder's state says of the symbols consumed so far (43_run_contracts.md R166): the phrases of the
codewords emitted, then the prefix, are the input, and each entry of the run is one of those phrases with the first symbol of
the next. And how a run of either engine starts. -/

namespace Sys2Proof.Machine

/-! ## How a run starts -/

/-- START where it is legal (R120). -/
theorem encTransition_start (p : Params) {x : Enc} (h : legalIn .encStart x.phase = true) :
    encTransition .encStart p x =
      .ok ({ p2cInit x with prefixReg := [], out := [], err := .none, phase := .run }, 0) := by
  rw [encTransition, if_pos h]
  simp [answered, respond_none_zero]

/-- START where it is legal (R140). -/
theorem decTransition_start (p : Params) {x : Dec} (h : legalIn .decStart x.phase = true) :
    decTransition .decStart p x =
      .ok ({ c2pInit x with prefixReg := [], out := [], err := .none, phase := .waitFirst }, 0) := by
  rw [decTransition, if_pos h]
  simp [answered, respond_none_zero]

/-- In FAULT the data commands and END of the encoder change nothing (R187). -/
theorem encTransitions_fault (js : List Instr) (p : Params) {z : Enc} (hz : z.phase = .fault)
    (hjs : ∀ j ∈ js, (∃ a, j = .encSym a) ∨ j = .encEnd) :
    encTransitions js p z = .ok (z, List.replicate js.length z.err.code) := by
  induction js with
  | nil => rfl
  | cons j js ih =>
    have hj : encTransition j p z = .ok (z, z.err.code) := by
      rcases hjs j List.mem_cons_self with ⟨a, rfl⟩ | rfl <;>
      · unfold encTransition
        rw [if_neg (by rw [hz]; simp [legalIn]), raised, raise_of_fault _ _ _ hz, respond_zero]
    rw [encTransitions, hj]
    simp only [ih (fun k hk => hjs k (List.mem_cons_of_mem _ hk))]
    simp [List.replicate_succ]

/-! ## Codewords and their phrases -/

/-- In a table whose codewords are 0, 1, 2, ... in order, the pair of a codeword stands at the codeword. -/
theorem getElem?_of_mem {t : P2cTable} (hcodes : t.map Prod.snd = List.range t.length) {q : Phrase} {c : Nat}
    (h : (q, c) ∈ t) : t[c]? = some (q, c) := by
  obtain ⟨i, hi⟩ := List.mem_iff_getElem?.1 h
  have hil := (List.getElem?_eq_some_iff.1 hi).1
  have h1 : (t.map Prod.snd)[i]? = some c := by rw [List.getElem?_map, hi]; rfl
  rw [hcodes, List.getElem?_range hil] at h1
  have h2 : i = c := Option.some.inj h1
  rw [← h2] at hi ⊢
  exact hi

/-- The other way round: what stands at a codeword is bound to it. -/
theorem mem_of_getElem? {t : P2cTable} (hcodes : t.map Prod.snd = List.range t.length) {q : Phrase} {c : Nat}
    (h : (t.map Prod.fst)[c]? = some q) : (q, c) ∈ t := by
  rw [List.getElem?_map] at h
  cases ht : t[c]? with
  | none => simp [ht] at h
  | some e =>
    obtain ⟨r, d⟩ := e
    have hm := List.mem_iff_getElem?.2 ⟨c, ht⟩
    have := getElem?_of_mem hcodes hm
    have hcl := (List.getElem?_eq_some_iff.1 ht).1
    have h1 : (t.map Prod.snd)[c]? = some d := by rw [List.getElem?_map, ht]; rfl
    rw [hcodes, List.getElem?_range hcl] at h1
    simp only [ht, Option.map_some, Option.some.injEq] at h
    rw [← h, Option.some.inj h1]
    exact hm

theorem phraseAt_of_get {t : C2pTable} {c : Nat} {q : Phrase} (h : t[c]? = some q) : phraseAt t c = q := by
  rw [phraseAt, h]; rfl

/-- An insertion changes no phrase that is there (R35 (c)). -/
theorem phraseAt_append {t u : C2pTable} {c : Nat} (h : c < t.length) : phraseAt (t ++ u) c = phraseAt t c := by
  rw [phraseAt, phraseAt, List.getElem?_append_left h]

/-! ## The history of an encoder run -/

/-- The phrases of the codewords emitted so far, in order. -/
def emitted (x : Enc) : List Phrase := x.out.map (phraseAt (x.table.map Prod.fst))

/-- Each entry of the run is a phrase of the sequence with the first symbol of the next one. -/
def Chained (t : C2pTable) (ws : List Phrase) : Prop :=
  ∀ j u v, ws[j]? = some u → ws[j + 1]? = some v → t[256 + j]? = some (u ++ v.take 1)

/-- What a running encoder's state says of the symbols it has consumed. -/
structure Consumed (x : Enc) (xs : List Symbol) : Prop where
  all : (emitted x).flatten ++ x.prefixReg = xs
  chained : Chained (x.table.map Prod.fst) (emitted x ++ [x.prefixReg])
  lengths : x.out = [] ∨ x.prefixReg ≠ []

theorem EncInv.codes_range {p : Params} {x : Enc} (h : EncInv p x) : x.table.map Prod.snd = List.range x.table.length := by
  rw [h.codes, h.length_eq]

/-- Right after START nothing has been consumed. -/
theorem consumed_start (x : Enc) :
    Consumed { p2cInit x with prefixReg := [], out := [], err := .none, phase := .run } [] where
  all := by simp [emitted]
  chained := by
    intro j u v _ hv
    simp [emitted] at hv
  lengths := .inl rfl

/-- One pass of the loop consumes its symbol. -/
theorem Consumed.pass {p : Params} {x y : Enc} {xs : List Symbol} {s : Symbol} {w : Nat} (hc : Consumed x xs)
    (h : EncInv p x) (hr : x.phase = .run) (hy : encPass p s x = .ok (y, w)) (hf : y.phase ≠ .fault) :
    Consumed y (xs ++ [s]) := by
  rcases encPass_cases h hr s with ⟨-, he⟩ | ⟨-, -, he⟩ | ⟨pc, -, -, hread, he⟩
  · rw [hy] at he
    cases he
    refine ⟨?_, ?_, .inr (by simp)⟩
    · show (emitted x).flatten ++ (x.prefixReg ++ [s]) = _
      rw [← List.append_assoc, hc.all]
    · show Chained (x.table.map Prod.fst) (emitted x ++ [x.prefixReg ++ [s]])
      intro j u v hu hv
      rw [List.getElem?_append] at hu hv
      rcases Nat.lt_trichotomy (j + 1) (emitted x).length with hl | hl | hl
      · rw [if_pos (by omega)] at hu
        rw [if_pos hl] at hv
        exact hc.chained j u v (by rw [List.getElem?_append_left (by omega), hu])
          (by rw [List.getElem?_append_left hl, hv])
      · rw [if_pos (by omega)] at hu
        rw [if_neg (by omega), hl, Nat.sub_self] at hv
        simp only [List.getElem?_cons_zero, Option.some.injEq] at hv
        have hne : x.prefixReg ≠ [] := by
          rcases hc.lengths with h0 | h0
          · simp [emitted, h0] at hl
          · exact h0
        have := hc.chained j u x.prefixReg (by rw [List.getElem?_append_left (by omega), hu])
          (by rw [hl, List.getElem?_append_right (Nat.le_refl _)]; simp)
        rw [this, ← hv]
        cases hp : x.prefixReg with
        | nil => exact absurd hp hne
        | cons a l => simp
      · rw [if_neg (by omega), List.getElem?_eq_none (by simp; omega)] at hv
        cases hv
  · rw [hy] at he
    cases he
    exact absurd rfl hf
  · rw [hy] at he
    cases he
    have hne : x.prefixReg ≠ [] := by
      intro h0
      have hk := p2cRead_mem hread
      rw [h0] at hk
      have hlt := getElem?_of_mem h.codes_range hk
      rcases Nat.lt_or_ge pc 256 with h2 | h2
      · have h1 : (x.table.take 256)[pc]? = some ([], pc) := by rw [List.getElem?_take, if_pos h2, hlt]
        rw [h.preload] at h1
        obtain ⟨k, hk0, -⟩ := mem_p2cPreload.1 (List.mem_iff_getElem?.2 ⟨_, h1⟩)
        cases hk0
      · have := (h.prefix_closed [] pc hk h2).1
        simp at this
    have hm := p2cRead_mem hread
    have hget := getElem?_of_mem h.codes_range hm
    have hcl : pc < (x.table.map Prod.fst).length := by
      rw [List.length_map]; exact (List.getElem?_eq_some_iff.1 hget).1
    have hph : phraseAt (x.table.map Prod.fst) pc = x.prefixReg :=
      phraseAt_of_get (by rw [List.getElem?_map, hget]; rfl)
    have hem : (x.out ++ [pc]).map (phraseAt ((x.table ++ [(x.prefixReg ++ [s], x.nextCode)]).map Prod.fst)) =
        emitted x ++ [x.prefixReg] := by
      rw [List.map_append, List.map_append]
      congr 1
      · unfold emitted
        apply List.map_congr_left
        intro c hco
        exact phraseAt_append (by rw [List.length_map, h.length_eq]; exact h.out_codes c hco)
      · simp only [List.map_cons, List.map_nil]
        rw [phraseAt_append hcl, hph]
    refine ⟨?_, ?_, .inr (by simp)⟩
    · show ((x.out ++ [pc]).map (phraseAt _)).flatten ++ [s] = _
      rw [hem, List.flatten_append]
      simp [← hc.all]
    · show Chained _ ((x.out ++ [pc]).map (phraseAt _) ++ [[s]])
      rw [hem]
      intro j u v hu hv
      have hlen : (emitted x).length = x.out.length := by simp [emitted]
      have hnc := h.run_count hr hne
      rw [List.map_append]
      rcases Nat.lt_trichotomy j x.out.length with hl | hl | hl
      · rw [List.getElem?_append_left (by simp; omega)] at hu hv
        have := hc.chained j u v hu hv
        rw [List.getElem?_append_left (List.getElem?_eq_some_iff.1 this).1, this]
      · rw [List.getElem?_append_left (by simp; omega), List.getElem?_append_right (by omega), hlen, hl] at hu
        rw [List.getElem?_append_right (by simp; omega)] at hv
        simp only [hlen, hl, List.length_append, List.length_singleton, Nat.sub_self, List.getElem?_cons_zero,
          Option.some.injEq] at hu hv
        rw [← hu, ← hv, List.getElem?_append_right (by rw [List.length_map, h.length_eq]; omega), List.length_map,
          h.length_eq, hnc, hl, Nat.sub_self]
        rfl
      · rw [List.getElem?_eq_none (by simp; omega)] at hv
        cases hv

/-- A run of ENC_SYM commands and ENC_END from a running engine that completes: the phrases of its codewords are everything
consumed, before and in the run, and they are chained through the table. -/
theorem Consumed.finish {p : Params} (ys : List Symbol) {x y : Enc} {xs : List Symbol} {ws : List Nat} (hc : Consumed x xs)
    (h : EncInv p x) (hr : x.phase = .run)
    (hy : encTransitions (ys.map (fun s => .encSym s.val) ++ [.encEnd]) p x = .ok (y, ws)) (hd : y.phase = .done) :
    (emitted y).flatten = xs ++ ys ∧ Chained (y.table.map Prod.fst) (emitted y) := by
  induction ys generalizing x xs ws with
  | nil =>
    have ht : encTransition .encEnd p x =
        if x.prefixReg = [] then answered p x.out.length { x with phase := .done } else encFlush p x := by
      unfold encTransition; rw [if_pos (by rw [hr]; rfl)]
    simp only [List.map_nil, List.nil_append, encTransitions, ht] at hy
    by_cases h0 : x.prefixReg = []
    · simp only [h0, if_true, answered, Except.ok.injEq, Prod.mk.injEq] at hy
      have hall := hc.all
      have hch := hc.chained
      rw [h0, List.append_nil] at hall
      rw [← hy.1]
      refine ⟨by rw [List.append_nil]; exact hall, ?_⟩
      intro j u v hu hv
      have hu' : (emitted x)[j]? = some u := hu
      have hv' : (emitted x)[j + 1]? = some v := hv
      exact hch j u v (by rw [List.getElem?_append_left (List.getElem?_eq_some_iff.1 hu').1]; exact hu')
        (by rw [List.getElem?_append_left (List.getElem?_eq_some_iff.1 hv').1]; exact hv')
    · obtain ⟨c, hread, hm, -, -⟩ := h.prefix_bound hr h0
      rw [if_neg h0] at hy
      have hget := getElem?_of_mem h.codes_range hm
      have hem : (x.out ++ [c]).map (phraseAt (x.table.map Prod.fst)) = emitted x ++ [x.prefixReg] := by
        rw [List.map_append]
        congr 1
        simp only [List.map_cons, List.map_nil]
        rw [phraseAt_of_get (by rw [List.getElem?_map, hget]; rfl)]
      by_cases hf : encEndFull p x = true
      · simp only [encFlush, hf, if_true, raised] at hy
        rw [raise_of_not_fault _ _ _ (by simp [hr])] at hy
        simp only [Except.ok.injEq, Prod.mk.injEq] at hy
        rw [← hy.1] at hd
        cases hd
      · simp only [encFlush, hf, Bool.false_eq_true, if_false, p2cLookup_eq, hread, answered, Except.ok.injEq,
          Prod.mk.injEq] at hy
        rw [← hy.1]
        show ((x.out ++ [c]).map (phraseAt (x.table.map Prod.fst))).flatten = _ ∧
          Chained (x.table.map Prod.fst) ((x.out ++ [c]).map (phraseAt (x.table.map Prod.fst)))
        rw [hem]
        exact ⟨by rw [List.flatten_append]; simp [← hc.all], hc.chained⟩
  | cons s rest ih =>
    simp only [List.map_cons, List.cons_append, encTransitions, encTransition_of_run hr] at hy
    obtain ⟨y0, w0, hy0, hinv0⟩ := h.pass hr s
    rw [hy0] at hy
    dsimp only at hy
    split at hy
    · cases hy
    · rename_i z vs hz
      simp only [Except.ok.injEq, Prod.mk.injEq] at hy
      obtain ⟨rfl, -⟩ := hy
      have hnf : y0.phase ≠ .fault := by
        intro hf
        rw [encTransitions_fault _ p hf (by
          intro j hj
          simp only [List.mem_append, List.mem_map, List.mem_singleton] at hj
          rcases hj with ⟨a, -, rfl⟩ | rfl
          · exact .inl ⟨_, rfl⟩
          · exact .inr rfl)] at hz
        simp only [Except.ok.injEq, Prod.mk.injEq] at hz
        rw [← hz.1, hf] at hd
        cases hd
      have hr0 : y0.phase = .run := by
        rcases encPass_cases h hr s with ⟨-, he⟩ | ⟨-, -, he⟩ | ⟨_, -, -, -, he⟩
        · rw [hy0] at he; cases he; exact hr
        · rw [hy0] at he; cases he; exact absurd rfl hnf
        · rw [hy0] at he; cases he; exact hr
      obtain ⟨h1, h2⟩ := ih (hc.pass h hr hy0 hnf) hinv0 hr0 hz
      exact ⟨by rw [h1]; simp, h2⟩

end Sys2Proof.Machine
end

