-- ==== Sys2Proof/Laws/Interleaving.lean ====
section
/-! SUPPORT. A move of one engine as a function of that engine's part of the state alone (10_state.md R20, 20_memory.md R61):
what it reads and what it writes is disjoint from what a move of the other engine reads and writes. -/

namespace Sys2Proof.Machine

/-- ENC's move on ENC's part of the machine: the engine, the words left on its port, and what it returns. -/
def encMoves (r : Bool) (p : Params) (cmd : List Nat) (x : Enc) : Except Fault (Enc × List Nat × List Nat) :=
  match r, cmd with
  | true, _ => .ok (x, cmd, [])
  | false, [] => .ok (x, [], [])
  | false, w :: ws =>
    match encAnswer p w x with
    | .ok (y, v) => .ok (y, ws, [v])
    | .error f => .error f

/-- DEC's move on DEC's part of the machine. -/
def decMoves (r : Bool) (p : Params) (cmd : List Nat) (x : Dec) : Except Fault (Dec × List Nat × List Nat) :=
  match r, cmd with
  | true, _ => .ok (x, cmd, [])
  | false, [] => .ok (x, [], [])
  | false, w :: ws =>
    match decAnswer p w x with
    | .ok (y, v) => .ok (y, ws, [v])
    | .error f => .error f

theorem encTurn_eq (s : State) :
    encTurn s = match encMoves s.rst s.params s.encCmd s.enc with
      | .ok (y, c, v) => .next { s with enc := y, encCmd := c, encRsp := s.encRsp ++ v }
      | .error f => .fault f := by
  obtain ⟨p, e, d, r, ec, dc, er, dr, ts, pr, cr⟩ := s
  cases r with
  | true => simp [encTurn, encMoves]
  | false =>
    cases ec with
    | nil => simp [encTurn, encMoves]
    | cons w ws =>
      simp only [encTurn, encMoves, encHandle_eq, Bool.false_eq_true, if_false]
      cases encAnswer p w e <;> rfl

theorem decTurn_eq (s : State) :
    decTurn s = match decMoves s.rst s.params s.decCmd s.dec with
      | .ok (y, c, v) => .next { s with dec := y, decCmd := c, decRsp := s.decRsp ++ v }
      | .error f => .fault f := by
  obtain ⟨p, e, d, r, ec, dc, er, dr, ts, pr, cr⟩ := s
  cases r with
  | true => simp [decTurn, decMoves]
  | false =>
    cases dc with
    | nil => simp [decTurn, decMoves]
    | cons w ws =>
      simp only [decTurn, decMoves, decHandle_eq, Bool.false_eq_true, if_false]
      cases decAnswer p w d <;> rfl

end Sys2Proof.Machine
end

