-- ==== Sys2Proof/Laws/PerInstr.lean ====
section
/-! SUPPORT. One lemma per instruction of a family of statements about instructions as syntax: decoding what the encoder
writes for a well-formed instruction gives it back (30_encoding.md R71, R74, R75, R80). -/

namespace Sys2Proof

/-- The operand field of the word of an operand that fits is the operand (R71, R73). -/
theorem operandField_commandWord {p : Params} {a k : Nat} (hk : k < 16) (ha : p.operandFits a = true) :
    operandField p (commandWord a k) = a := by
  have hdiv : (a * 16 + k) / 16 = a := by omega
  unfold Params.operandFits at ha
  unfold operandField commandWord
  cases hp : p.opw with
  | infinite => simpa using hdiv
  | finite n =>
    simp only [hp, decide_eq_true_eq] at ha
    simp only [hdiv, Nat.mod_eq_of_lt ha]

/-- The opcode of the word is the opcode (R71). -/
theorem commandWord_mod (a : Nat) {k : Nat} (hk : k < 16) : commandWord a k % 16 = k := by
  unfold commandWord; omega

/-- The operand 0 fits every operand field. -/
theorem operandFits_zero (p : Params) : p.operandFits 0 = true := by
  unfold Params.operandFits
  cases p.opw <;> simp

namespace Laws.EncodeDecode

/-- Decoding inverts encoding on this instruction, on every realisation it is well-formed on. -/
def Statement (i : Instr) : Prop := ∀ p : Params, i.wf p = true → decode p (encode i) = .ok i

theorem encStart : Statement .encStart := by
  intro p _
  simp [decode, encode, decodeCommand, decodeEnc, commandWord_mod, operandField_commandWord, operandFits_zero, withoutOperand]

theorem encSym (s : Nat) : Statement (.encSym s) := by
  intro p h
  simp [decode, encode, decodeCommand, decodeEnc, commandWord_mod, operandField_commandWord (by omega : 2 < 16) h]

theorem encEnd : Statement .encEnd := by
  intro p _
  simp [decode, encode, decodeCommand, decodeEnc, commandWord_mod, operandField_commandWord, operandFits_zero, withoutOperand]

theorem encRd (i : Nat) : Statement (.encRd i) := by
  intro p h
  simp [decode, encode, decodeCommand, decodeEnc, commandWord_mod, operandField_commandWord (by omega : 4 < 16) h]

theorem encStat (n : Nat) : Statement (.encStat n) := by
  intro p h
  simp [decode, encode, decodeCommand, decodeEnc, commandWord_mod, operandField_commandWord (by omega : 5 < 16) h]

theorem decStart : Statement .decStart := by
  intro p _
  simp [decode, encode, decodeCommand, decodeDec, commandWord_mod, operandField_commandWord, operandFits_zero, withoutOperand]

theorem decCode (c : Nat) : Statement (.decCode c) := by
  intro p h
  simp [decode, encode, decodeCommand, decodeDec, commandWord_mod, operandField_commandWord (by omega : 10 < 16) h]

theorem decEnd : Statement .decEnd := by
  intro p _
  simp [decode, encode, decodeCommand, decodeDec, commandWord_mod, operandField_commandWord, operandFits_zero, withoutOperand]

theorem decRd (i : Nat) : Statement (.decRd i) := by
  intro p h
  simp [decode, encode, decodeCommand, decodeDec, commandWord_mod, operandField_commandWord (by omega : 12 < 16) h]

theorem decStat (n : Nat) : Statement (.decStat n) := by
  intro p h
  simp [decode, encode, decodeCommand, decodeDec, commandWord_mod, operandField_commandWord (by omega : 13 < 16) h]

theorem p2cInit : Statement .p2cInit := fun _ _ => rfl

theorem p2cLookup (q : Phrase) : Statement (.p2cLookup q) := fun _ _ => rfl

theorem p2cInsert (q : Phrase) : Statement (.p2cInsert q) := by
  intro p h
  simp only [Instr.wf] at h
  simp [decode, encode, decodeP2c, h]

theorem c2pInit : Statement .c2pInit := fun _ _ => rfl

theorem c2pLookup (c : Nat) : Statement (.c2pLookup c) := by
  intro p h
  simp only [Instr.wf] at h
  simp [decode, encode, decodeC2p, h]

theorem c2pInsert (q : Phrase) : Statement (.c2pInsert q) := by
  intro p h
  simp only [Instr.wf] at h
  simp [decode, encode, decodeC2p, h]

end Laws.EncodeDecode

end Sys2Proof
end

