-- ==== Sys2Proof/Laws/Presented.lean ====
section
/-! SUPPORT. Commands presented as words on a port (30_encoding.md R70, R81): the steps that consume them are the
transitions of the engine on the commands the words encode. -/

namespace Sys2Proof.Machine

/-- The word of a well-formed ENC command decodes to it. -/
theorem decodeEnc_wordOf {p : Params} {i : Instr} (hi : i.isEncCommand = true) (hw : i.wf p = true) :
    ∃ w, wordOf i = some w ∧ decodeEnc p w = .ok i := by
  cases i with
  | encStart => exact ⟨_, rfl, Laws.EncodeDecode.encStart p hw⟩
  | encSym s => exact ⟨_, rfl, Laws.EncodeDecode.encSym s p hw⟩
  | encEnd => exact ⟨_, rfl, Laws.EncodeDecode.encEnd p hw⟩
  | encRd a => exact ⟨_, rfl, Laws.EncodeDecode.encRd a p hw⟩
  | encStat n => exact ⟨_, rfl, Laws.EncodeDecode.encStat n p hw⟩
  | _ => cases hi

/-- The word of a well-formed DEC command decodes to it. -/
theorem decodeDec_wordOf {p : Params} {i : Instr} (hi : i.isDecCommand = true) (hw : i.wf p = true) :
    ∃ w, wordOf i = some w ∧ decodeDec p w = .ok i := by
  cases i with
  | decStart => exact ⟨_, rfl, Laws.EncodeDecode.decStart p hw⟩
  | decCode c => exact ⟨_, rfl, Laws.EncodeDecode.decCode c p hw⟩
  | decEnd => exact ⟨_, rfl, Laws.EncodeDecode.decEnd p hw⟩
  | decRd a => exact ⟨_, rfl, Laws.EncodeDecode.decRd a p hw⟩
  | decStat n => exact ⟨_, rfl, Laws.EncodeDecode.decStat n p hw⟩
  | _ => cases hi

/-- With no turns named and a word on `enc_cmd`, a step is ENC's answer to it. -/
theorem step_encWord {s : State} {w : Nat} {ws : List Nat} (hr : s.rst = false) (ht : s.turns = []) (hc : s.encCmd = w :: ws) :
    step s = State.finishEnc { s with encCmd := ws } (encAnswer s.params w s.enc) := by
  simp [step, advance, ht, hc, encTurn, hr, encHandle_eq]

/-- With no turns named, nothing on `enc_cmd` and a word on `dec_cmd`, a step is DEC's answer to it. -/
theorem step_decWord {s : State} {w : Nat} {ws : List Nat} (hr : s.rst = false) (ht : s.turns = []) (he : s.encCmd = [])
    (hc : s.decCmd = w :: ws) : step s = State.finishDec { s with decCmd := ws } (decAnswer s.params w s.dec) := by
  simp [step, advance, ht, he, hc, decTurn, hr, decHandle_eq]

/-- The steps that consume the words of a list of ENC commands, when all of them answer. -/
theorem run_encWords (is : List Instr) {s : State} {rest ws : List Nat} {y : Enc}
    (hi : ∀ i ∈ is, i.isEncCommand = true) (hw : ∀ i ∈ is, i.wf s.params = true) (hr : s.rst = false) (ht : s.turns = [])
    (hc : s.encCmd = wordsOf is ++ rest) (h : encTransitions is s.params s.enc = .ok (y, ws)) :
    Host.Core.run Sys2Proof.core is.length s =
      .next { s with enc := y, encCmd := rest, encRsp := s.encRsp ++ ws } := by
  induction is generalizing s ws with
  | nil =>
    simp only [encTransitions, Except.ok.injEq, Prod.mk.injEq] at h
    obtain ⟨rfl, rfl⟩ := h
    have : s.encCmd = rest := by simpa [wordsOf] using hc
    simp [Host.Core.run, ← this]
  | cons i is ih =>
    obtain ⟨w, hword, hdec⟩ := decodeEnc_wordOf (hi i List.mem_cons_self) (hw i List.mem_cons_self)
    have hc' : s.encCmd = w :: (wordsOf is ++ rest) := by rw [hc]; simp [wordsOf, hword]
    simp only [encTransitions] at h
    split at h
    · cases h
    · rename_i z r hz
      have hstep := step_encWord hr ht hc'
      simp only [encAnswer, hdec, hz, finishEnc_ok] at hstep
      rw [List.length_cons, run_succ hstep]
      split at h
      · cases h
      · rename_i z' ws' hz'
        simp only [Except.ok.injEq, Prod.mk.injEq] at h
        obtain ⟨rfl, rfl⟩ := h
        have := ih (s := State.replyEnc { s with encCmd := wordsOf is ++ rest } z r)
          (fun j hj => hi j (List.mem_cons_of_mem _ hj)) (fun j hj => hw j (List.mem_cons_of_mem _ hj)) hr ht rfl hz'
        rw [this]
        simp [State.replyEnc]

/-- The steps that consume the words of a list of DEC commands, when all of them answer and nothing waits on `enc_cmd`. -/
theorem run_decWords (is : List Instr) {s : State} {rest ws : List Nat} {y : Dec}
    (hi : ∀ i ∈ is, i.isDecCommand = true) (hw : ∀ i ∈ is, i.wf s.params = true) (hr : s.rst = false) (ht : s.turns = [])
    (he : s.encCmd = []) (hc : s.decCmd = wordsOf is ++ rest) (h : decTransitions is s.params s.dec = .ok (y, ws)) :
    Host.Core.run Sys2Proof.core is.length s =
      .next { s with dec := y, decCmd := rest, decRsp := s.decRsp ++ ws } := by
  induction is generalizing s ws with
  | nil =>
    simp only [decTransitions, Except.ok.injEq, Prod.mk.injEq] at h
    obtain ⟨rfl, rfl⟩ := h
    have : s.decCmd = rest := by simpa [wordsOf] using hc
    simp [Host.Core.run, ← this]
  | cons i is ih =>
    obtain ⟨w, hword, hdec⟩ := decodeDec_wordOf (hi i List.mem_cons_self) (hw i List.mem_cons_self)
    have hc' : s.decCmd = w :: (wordsOf is ++ rest) := by rw [hc]; simp [wordsOf, hword]
    simp only [decTransitions] at h
    split at h
    · cases h
    · rename_i z r hz
      have hstep := step_decWord hr ht he hc'
      simp only [decAnswer, hdec, hz, finishDec_ok] at hstep
      rw [List.length_cons, run_succ hstep]
      split at h
      · cases h
      · rename_i z' ws' hz'
        simp only [Except.ok.injEq, Prod.mk.injEq] at h
        obtain ⟨rfl, rfl⟩ := h
        have := ih (s := State.replyDec { s with decCmd := wordsOf is ++ rest } z r)
          (fun j hj => hi j (List.mem_cons_of_mem _ hj)) (fun j hj => hw j (List.mem_cons_of_mem _ hj)) hr ht he rfl hz'
        rw [this]
        simp [State.replyDec]

/-- With the normative parameters every host command is well-formed (R5, R73). -/
theorem wf_normative {i : Instr} (h : i.isHostCommand = true) : i.wf .normative = true := by
  cases i <;> first | rfl | cases h

/-! ## Which codeword sequences are valid -/

/-- A sequence of later codewords is valid exactly when each is at most the counter it meets (R161 (b)). -/
theorem laterValid_iff {n : Nat} {cs : List Nat} : laterValid n cs = true ↔ ∀ k c, cs[k]? = some c → c ≤ n + k := by
  induction cs generalizing n with
  | nil => simp [laterValid]
  | cons c rest ih =>
    simp only [laterValid, Bool.and_eq_true, decide_eq_true_eq, ih]
    constructor
    · rintro ⟨h0, h⟩ k d hk
      cases k with
      | zero => simp only [List.getElem?_cons_zero, Option.some.injEq] at hk; omega
      | succ k =>
        have := h k d (by simpa using hk)
        omega
    · intro h
      refine ⟨by simpa using h 0 c rfl, fun k d hk => ?_⟩
      have := h (k + 1) d (by simpa using hk)
      omega

end Sys2Proof.Machine
end

