-- ==== Sys2Proof/Tests/Slice0.lean ====
section
/-! SUPPORT. Tests on the spec's own vectors (95_test_vectors.md V1 to V22), each about one word, one command or one step; the
smoke test of WellFormed; and for every statement with hypotheses a concrete state that meets them, clause by clause. -/

/- One theorem at a time: kernel evaluations that wait for one another would each hold a thread. -/
set_option Elab.async false

namespace Sys2Proof.Tests

open Sys2Proof.Machine

/-! ## Helpers -/

/-- A machine whose ENC is in the given state; `entries` follow the preload. -/
def encAt (ph : Phase) (er : Err) (pre : Phrase) (next : Nat) (out : List Nat) (entries : P2cTable) : State :=
  { State.reset with enc := { phase := ph, err := er, prefixReg := pre, nextCode := next, out := out,
                              table := p2cPreload ++ entries } }

/-- A machine whose DEC is in the given state. -/
def decAt (ph : Phase) (er : Err) (pre : Phrase) (next : Nat) (out : List Sys2Proof.Symbol) (entries : C2pTable) : State :=
  { State.reset with dec := { phase := ph, err := er, prefixReg := pre, nextCode := next, out := out,
                              table := c2pPreload ++ entries } }

/-- The outcome is a next state of which `f` holds. -/
def nextWith (o : Host.Outcome State Fault Refusal) (f : State → Bool) : Bool :=
  match o with
  | .next t => f t
  | .fault _ => false
  | .refused _ => false

/-- The outcome is this fault. -/
def faultIs (o : Host.Outcome State Fault Refusal) (r : Fault) : Bool :=
  match o with
  | .next _ => false
  | .fault x => decide (x = r)
  | .refused _ => false

/-- ENC's registers and response after the outcome: prefix, counter, output, new entries, response. -/
def encShows (o : Host.Outcome State Fault Refusal) (ph : Phase) (er : Err) (pre : Phrase) (next : Nat) (out : List Nat)
    (entries : P2cTable) (rsp : List Nat) : Bool :=
  nextWith o fun t => decide (t.enc = (encAt ph er pre next out entries).enc ∧ t.encRsp = rsp ∧ t.dec = decReset)

/-- DEC's registers and response after the outcome. -/
def decShows (o : Host.Outcome State Fault Refusal) (ph : Phase) (er : Err) (pre : Phrase) (next : Nat)
    (out : List Sys2Proof.Symbol) (entries : C2pTable) (rsp : List Nat) : Bool :=
  nextWith o fun t => decide (t.dec = (decAt ph er pre next out entries).dec ∧ t.decRsp = rsp ∧ t.enc = encReset)

/-- The smallest finite parameters R5 admits. -/
def smallest : Params := { dictCap := .finite 256, outCap := .finite 1, opw := .finite 9 }

/-- The same machine with other parameters. -/
def withParams (p : Params) (s : State) : State := { s with params := p }

/-- A machine with words presented on its ports. -/
def presented (es ds : List Nat) (ts : List Turn) : State := { State.reset with encCmd := es, decCmd := ds, turns := ts }

/-! ## WellFormed refuses an ill-formed term of each kind -/

theorem test_wf_refuses_wide_operands :
    Instr.wf smallest (.encSym 512) = false ∧ Instr.wf smallest (.encRd 512) = false ∧
    Instr.wf smallest (.encStat 512) = false ∧ Instr.wf smallest (.decCode 512) = false ∧
    Instr.wf smallest (.decRd 512) = false ∧ Instr.wf smallest (.decStat 512) = false ∧
    Instr.wf smallest (.c2pLookup 512) = false ∧ Instr.wf smallest (.decCode 511) = true := by decide

theorem test_wf_refuses_empty_phrase :
    Instr.wf .normative (.p2cInsert []) = false ∧ Instr.wf .normative (.c2pInsert []) = false ∧
    Instr.wf .normative (.p2cInsert [97]) = true ∧ Instr.wf .normative (.p2cLookup []) = true := by decide

/-- R5: each of its constraints refuses a set of parameters; the smallest values pass. -/
theorem test_params_valid :
    smallest.valid = true ∧ Params.normative.valid = true ∧
    Params.valid { smallest with dictCap := .finite 255 } = false ∧ Params.valid { smallest with outCap := .finite 0 } = false ∧
    Params.valid { smallest with opw := .finite 8 } = false ∧ Params.valid { smallest with dictCap := .finite 513 } = false ∧
    Params.valid { smallest with outCap := .finite 512 } = false ∧ Params.valid { smallest with dictCap := .infinite } = false := by
  decide

/-! ## Decoding: the words of V19, bit fields written out -/

theorem test_decode_enc_start : decodeCommand .encCmd .normative 0x1 = .ok .encStart := by decide
theorem test_decode_enc_sym :
    decodeCommand .encCmd .normative 0x2 = .ok (.encSym 0) ∧ decodeCommand .encCmd .normative 0x612 = .ok (.encSym 97) ∧
    decodeCommand .encCmd .normative 0xFF2 = .ok (.encSym 255) ∧ decodeCommand .encCmd .normative 0x1002 = .ok (.encSym 256) := by
  decide
theorem test_decode_enc_end : decodeCommand .encCmd .normative 0x3 = .ok .encEnd := by decide
theorem test_decode_enc_rd : decodeCommand .encCmd .normative 0x14 = .ok (.encRd 1) := by decide
theorem test_decode_enc_stat : decodeCommand .encCmd .normative 0x25 = .ok (.encStat 2) := by decide
theorem test_decode_dec_start : decodeCommand .decCmd .normative 0x9 = .ok .decStart := by decide
theorem test_decode_dec_code :
    decodeCommand .decCmd .normative 0x61A = .ok (.decCode 97) ∧ decodeCommand .decCmd .normative 0x100A = .ok (.decCode 256) ∧
    decodeCommand .decCmd .normative 0x270FA = .ok (.decCode 9999) := by decide
theorem test_decode_dec_end : decodeCommand .decCmd .normative 0xB = .ok .decEnd := by decide
theorem test_decode_dec_rd : decodeCommand .decCmd .normative 0x3C = .ok (.decRd 3) := by decide
theorem test_decode_dec_stat : decodeCommand .decCmd .normative 0xD = .ok (.decStat 0) := by decide

/-- R80: the select values of both table ports; 00 is idle; what does not carry the operand is rejected. -/
theorem test_decode_table_ports :
    decode .normative (.table .p2c 0b01#2 .none) = .ok .p2cInit ∧
    decode .normative (.table .p2c 0b10#2 (.phrase [97, 97])) = .ok (.p2cLookup [97, 97]) ∧
    decode .normative (.table .p2c 0b11#2 (.phrase [97, 97])) = .ok (.p2cInsert [97, 97]) ∧
    decode .normative (.table .c2p 0b01#2 .none) = .ok .c2pInit ∧
    decode .normative (.table .c2p 0b10#2 (.code 256)) = .ok (.c2pLookup 256) ∧
    decode .normative (.table .c2p 0b11#2 (.phrase [97, 97])) = .ok (.c2pInsert [97, 97]) ∧
    decode .normative (.table .p2c 0b00#2 .none) = .error .tableIdle ∧
    decode .normative (.table .c2p 0b10#2 .none) = .error .tableArgument ∧
    decode .normative (.table .p2c 0b11#2 (.phrase [])) = .error .tableArgument := by decide

/-- R76, R77, V16: reserved opcodes and operands that must be 0. -/
theorem test_decode_rejects :
    decodeCommand .encCmd .normative 0x0 = .error .reservedOpcode ∧ decodeCommand .encCmd .normative 0x9 = .error .reservedOpcode ∧
    decodeCommand .encCmd .normative 0x6 = .error .reservedOpcode ∧ decodeCommand .decCmd .normative 0x1 = .error .reservedOpcode ∧
    decodeCommand .decCmd .normative 0xE = .error .reservedOpcode ∧ decodeCommand .encCmd .normative 0x11 = .error .operandNotZero ∧
    decodeCommand .encCmd .normative 0x13 = .error .operandNotZero ∧ decodeCommand .decCmd .normative 0x1B = .error .operandNotZero := by
  decide

/-- V19, read the other way: the words the encoder writes. -/
theorem test_encode_words :
    encode (.encSym 97) = .command .encCmd 1554 ∧ encode .encEnd = .command .encCmd 3 ∧ encode (.encStat 2) = .command .encCmd 37 ∧
    encode (.decCode 9999) = .command .decCmd 159994 ∧ encode (.decRd 3) = .command .decCmd 60 ∧
    encode .decEnd = .command .decCmd 11 := by decide

/-- R81, R82: the lines of P1 to P4 as the spec writes them, a hexadecimal operand, and a string. -/
theorem test_assembler :
    Asm.line "ENC_SYM 'a'      ; 0x612  -> 0x0".toList = some [(.encCmd, 0x612)] ∧
    Asm.line "ENC_SYM 0x61".toList = some [(.encCmd, 0x612)] ∧ Asm.line "DEC_END".toList = some [(.decCmd, 0xB)] ∧
    Asm.line "ENC_START 1".toList = some [(.encCmd, 0x11)] ∧ Asm.line "enc_start".toList = none ∧
    Asm.line "ENCODE \"aa\"".toList = some [(.encCmd, 1), (.encCmd, 0x612), (.encCmd, 0x612), (.encCmd, 3)] ∧
    Asm.line "DECODE [97, 256]".toList = some [(.decCmd, 9), (.decCmd, 0x61A), (.decCmd, 0x100A), (.decCmd, 0xB)] := by
  decide +kernel

/-! ## One command, one step: V1 to V21 -/

/-- V1 line 1, V18: from reset. -/
theorem test_enc_start : encShows (exec .encStart State.reset) .run .none [] 256 [] [] [0x0] = true := by decide +kernel
/-- V1 line 3, a miss: emits 97 and binds `"aa"` to 256. -/
theorem test_enc_sym_miss :
    encShows (exec (.encSym 97) (encAt .run .none [97] 256 [] [])) .run .none [97] 257 [97] [([97, 97], 256)] [0x0] = true := by
  decide +kernel
/-- V15: 256 is no symbol. -/
theorem test_enc_sym_unsupported :
    encShows (exec (.encSym 256) (encAt .run .none [] 256 [] [])) .fault .unsupportedSymbol [] 256 [] [] [0x3] = true := by
  decide +kernel
/-- V1 line 6: the last codeword, and the length in the response. -/
theorem test_enc_end :
    encShows (exec .encEnd (encAt .run .none [97] 258 [97, 256] [([97, 97], 256), ([97, 97, 97], 257)]))
      .done .none [97] 258 [97, 256, 97] [([97, 97], 256), ([97, 97, 97], 257)] [0x30] = true := by decide +kernel
/-- V20: `OUT_CAP = 1`. -/
theorem test_enc_end_full :
    nextWith (exec .encEnd (withParams smallest (encAt .run .none [98] 257 [97] [([97, 98], 256)])))
      (fun t => decide (t.enc.csr 0 = some 0x54 ∧ t.enc.nextCode = 257 ∧ t.encRsp = [0x5])) = true := by decide +kernel
/-- P1: reading the result back, and overrunning it. -/
theorem test_enc_rd :
    encShows (exec (.encRd 1) (encAt .done .none [97] 258 [97, 256, 97] [])) .done .none [97] 258 [97, 256, 97] [] [0x1000] = true ∧
    encShows (exec (.encRd 3) (encAt .done .none [97] 258 [97, 256, 97] [])) .fault .illegalCommand [97] 258 [] [] [0x4] = true := by
  decide +kernel
/-- V18, P1: STATUS in DONE and in FAULT. -/
theorem test_enc_stat :
    nextWith (exec (.encStat 0) (encAt .done .none [97] 258 [97, 256, 97] [])) (fun t => decide (t.encRsp = [0x30])) = true ∧
    nextWith (exec (.encStat 0) (encAt .fault .illegalCommand [97] 258 [] [])) (fun t => decide (t.encRsp = [0x440])) = true := by
  decide +kernel
/-- V2 line 1. -/
theorem test_dec_start : decShows (exec .decStart State.reset) .waitFirst .none [] 256 [] [] [0x0] = true := by decide +kernel
/-- V2 line 3, the special case. -/
theorem test_dec_code_special :
    decShows (exec (.decCode 256) (decAt .run .none [97] 256 [97] [])) .run .none [97, 97] 257 [97, 97, 97] [[97, 97]] [0x0] = true := by
  decide +kernel
/-- R141 example 1, bound; V3, invalid. -/
theorem test_dec_code_bound :
    decShows (exec (.decCode 98) (decAt .run .none [97] 256 [97] [])) .run .none [98] 257 [97, 98] [[97, 98]] [0x0] = true ∧
    decShows (exec (.decCode 9999) (decAt .run .none [97] 256 [97] [])) .fault .invalidCodeword [97] 256 [] [] [0x2] = true := by
  decide +kernel
/-- V5: no codeword. -/
theorem test_dec_end_empty :
    decShows (exec .decEnd (decAt .waitFirst .none [] 256 [] [])) .fault .emptyInput [] 256 [] [] [0x1] = true := by decide +kernel
/-- V2 line 5. -/
theorem test_dec_end :
    decShows (exec .decEnd (decAt .run .none [97] 258 [97, 97, 97, 97] [])) .done .none [97] 258 [97, 97, 97, 97] [] [0x40] = true := by
  decide +kernel
/-- P2, and V16's last row. -/
theorem test_dec_rd :
    decShows (exec (.decRd 3) (decAt .done .none [97] 258 [97, 97, 97, 97] [])) .done .none [97] 258 [97, 97, 97, 97] [] [0x610] = true ∧
    decShows (exec (.decRd 4) (decAt .done .none [97] 258 [97, 97, 97, 97] [])) .fault .illegalCommand [97] 258 [] [] [0x4] = true := by
  decide +kernel
/-- V17 (a): a legal STAT in FAULT answers with err 0, an illegal one with the sticky error. -/
theorem test_dec_stat :
    nextWith (exec (.decStat 0) (decAt .fault .invalidCodeword [97] 256 [] [])) (fun t => decide (t.decRsp = [0x240])) = true ∧
    nextWith (exec (.decStat 3) (decAt .fault .invalidCodeword [97] 256 [] [])) (fun t => decide (t.decRsp = [0x2])) = true := by
  decide +kernel
/-- V9, the operations of P2C. -/
theorem test_p2c_ops :
    nextWith (exec .p2cInit (encAt .run .none [97] 257 [97] [([97, 97], 256)]))
      (fun t => decide (t.enc.table = p2cPreload ∧ t.enc.nextCode = 256)) = true ∧
    nextWith (exec (.p2cLookup [97, 97]) (encAt .run .none [97] 257 [97] [([97, 97], 256)]))
      (fun t => decide (t.p2cResult = .lookup true (some 256))) = true ∧
    nextWith (exec (.p2cLookup [97, 97, 97]) (encAt .run .none [97] 257 [97] [([97, 97], 256)]))
      (fun t => decide (t.p2cResult = .lookup false none)) = true ∧
    nextWith (exec (.p2cInsert [97, 97]) State.reset)
      (fun t => decide (t.p2cResult = .assigned 256 ∧ t.enc.nextCode = 257 ∧ p2cRead [97, 97] t.enc.table = some 256)) = true := by
  decide +kernel
/-- V9, the operations of C2P; the second insertion of the same phrase is not tested. -/
theorem test_c2p_ops :
    nextWith (exec .c2pInit (decAt .run .none [97] 257 [97] [[97, 97]]))
      (fun t => decide (t.dec.table = c2pPreload ∧ t.dec.nextCode = 256)) = true ∧
    nextWith (exec (.c2pLookup 256) (decAt .run .none [97] 257 [97] [[97, 97]]))
      (fun t => decide (t.c2pResult = .lookup true (some [97, 97]))) = true ∧
    nextWith (exec (.c2pLookup 9999) State.reset) (fun t => decide (t.c2pResult = .lookup false none)) = true ∧
    nextWith (exec (.c2pInsert [97, 97]) (decAt .run .none [97] 257 [97] [[97, 97]]))
      (fun t => decide (t.c2pResult = .assigned 257 ∧ t.dec.nextCode = 258 ∧ c2pRead 257 t.dec.table = some [97, 97])) = true := by
  decide +kernel

/-- V17 (b): the phase is tested before the value. -/
theorem test_priority :
    nextWith (exec (.encSym 300) State.reset) (fun t => decide (t.encRsp = [0x4])) = true ∧
    nextWith (exec (.decCode 9999) (decAt .done .none [97] 256 [97] [])) (fun t => decide (t.decRsp = [0x4])) = true := by
  decide +kernel

/-- V21: a reset in the middle of a run; the response history stays (log 12). -/
theorem test_reset_line :
    nextWith (step { encAt .run .none [97] 257 [97] [([97, 97], 256)] with turns := [.rst true], encRsp := [0, 0] })
      (fun t => decide (t.enc = encReset ∧ t.dec = decReset ∧ t.encRsp = [0, 0])) = true := by decide +kernel

/-- The word placed by `withFetchWord` is the one the next step runs. -/
theorem test_fetch_word :
    decodeTableWord 8 0x1 = some .encStart ∧ decodeTableWord 8 0x9 = some .decStart ∧ decodeTableWord 8 0x0 = none ∧
    encShows (step (State.reset.withFetchWord 8 0x1)) .run .none [] 256 [] [] [0x0] = true ∧
    decShows (step (State.reset.withFetchWord 8 0x9)) .waitFirst .none [] 256 [] [] [0x0] = true := by decide +kernel

/-- V1, V10, V2, V11: the pure functions on the source's and the spec's examples. -/
theorem test_pure_functions :
    enc [97, 97, 97, 97] = [97, 256, 97] ∧ enc [97, 98, 97, 98, 97, 98, 97] = [97, 98, 256, 258] ∧ enc [] = [] ∧
    dec [97, 256, 97] = [97, 97, 97, 97] ∧ dec [97, 98, 256, 258] = [97, 98, 97, 98, 97, 98, 97] ∧
    validCodes [97, 256, 257] = true ∧ validCodes [97, 257] = false ∧ validCodes [256] = false := by decide +kernel

/-! ## States that meet the invariant -/

theorem encInv_of {i : Instr} (hi : i.isEncCommand = true) {x y : Enc} {w : Nat} (h : EncInv .normative x)
    (e : encTransition i .normative x = .ok (y, w)) : EncInv .normative y := by
  obtain ⟨y', w', h1, h2⟩ := encTransition_inv hi rfl h
  rw [e] at h1
  cases h1
  exact h2

theorem decInv_of {i : Instr} (hi : i.isDecCommand = true) {x y : Dec} {w : Nat} (h : DecInv .normative x)
    (e : decTransition i .normative x = .ok (y, w)) : DecInv .normative y := by
  obtain ⟨y', w', h1, h2⟩ := decTransition_inv hi rfl h
  rw [e] at h1
  cases h1
  exact h2

/-- ENC after line 1 of V1. -/
def enc1 : State := encAt .run .none [] 256 [] []
/-- ENC after line 2 of V1. -/
def enc2 : State := encAt .run .none [97] 256 [] []
/-- ENC after line 3 of V1. -/
def enc3 : State := encAt .run .none [97] 257 [97] [([97, 97], 256)]
/-- ENC after an ENC_END there. -/
def enc4 : State := encAt .done .none [97] 257 [97, 97] [([97, 97], 256)]
/-- DEC after line 1 of V2. -/
def dec1 : State := decAt .waitFirst .none [] 256 [] []
/-- DEC after line 2 of V2. -/
def dec2 : State := decAt .run .none [97] 256 [97] []
/-- DEC after line 3 of V2. -/
def dec3 : State := decAt .run .none [97, 97] 257 [97, 97, 97] [[97, 97]]

theorem inv_enc3 : Inv enc3 := by
  have h1 : EncInv .normative enc1.enc :=
    encInv_of (i := .encStart) rfl (encReset_inv rfl) (w := 0) (by decide +kernel)
  have h2 : EncInv .normative enc2.enc := encInv_of (i := .encSym 97) rfl h1 (w := 0) (by decide +kernel)
  have h3 : EncInv .normative enc3.enc := encInv_of (i := .encSym 97) rfl h2 (w := 0) (by decide +kernel)
  exact ⟨rfl, h3, decReset_inv rfl⟩

theorem inv_dec3 : Inv dec3 := by
  have h1 : DecInv .normative dec1.dec :=
    decInv_of (i := .decStart) rfl (decReset_inv rfl) (w := 0) (by decide +kernel)
  have h2 : DecInv .normative dec2.dec := decInv_of (i := .decCode 97) rfl h1 (w := 0) (by decide +kernel)
  have h3 : DecInv .normative dec3.dec := decInv_of (i := .decCode 256) rfl h2 (w := 0) (by decide +kernel)
  exact ⟨rfl, encReset_inv rfl, h3⟩

theorem wf_enc3 : Memory.wf enc3 = true := by
  have h := p2cInsert_canonical [97, 97] (p2cInit_canonical encReset)
  have e : (p2cInsert [97, 97] (p2cInit encReset)).1.table = enc3.enc.table := by decide +kernel
  rw [e] at h
  have h2 : enc3.dec.table.length = enc3.dec.nextCode := by decide +kernel
  simp only [Memory.wf, h2, decide_true, Bool.and_true]
  exact h

theorem wf_dec3 : Memory.wf dec3 = true := by
  have h := p2cInit_canonical encReset
  have h2 : dec3.dec.table.length = dec3.dec.nextCode := by decide +kernel
  simp only [Memory.wf, h2, decide_true, Bool.and_true]
  exact h

theorem inv_presented (es ds : List Nat) (ts : List Turn) : Inv (presented es ds ts) :=
  ⟨rfl, encReset_inv rfl, decReset_inv rfl⟩

/-! ## For each statement with hypotheses, states and operands that meet them -/

theorem witness_ResetLineResetsBothEngines :
    (presented [] [] [.rst true]).turns = .rst true :: [] ∧ (presented [] [] [.rst false]).turns = .rst false :: [] ∧
    ({ presented [0x1] [0x9] [.enc] with rst := true } : State).rst = true ∧
    ({ presented [0x1] [0x9] [.enc] with rst := true } : State).turns = .enc :: [] ∧
    ({ presented [0x1] [0x9] [.dec] with rst := true } : State).turns = .dec :: [] ∧
    ({ presented [0x1] [0x9] [] with rst := true } : State).turns = [] := by decide

theorem witness_StepHandlesTheNextWord :
    (presented [0x612] [] [.enc]).rst = false ∧ (presented [0x612] [] [.enc]).encCmd = 0x612 :: [] ∧
    (presented [0x612] [] [.enc]).turns = .enc :: [] ∧ (presented [0x612] [] []).turns = [] ∧
    decodeCommand .encCmd .normative 0x612 = .ok (.encSym 97) ∧
    decodeCommand .encCmd .normative 0x0 = .error .reservedOpcode ∧
    (presented [] [0x100A] [.dec]).decCmd = 0x100A :: [] ∧ (presented [] [0x100A] [.dec]).turns = .dec :: [] ∧
    (presented [] [0x100A] []).encCmd = [] ∧ decodeCommand .decCmd .normative 0x100A = .ok (.decCode 256) ∧
    decodeCommand .decCmd .normative 0x19 = .error .operandNotZero := by decide

theorem witness_EngineWaitsForItsNextCommand :
    (presented [] [0x9] [.enc]).turns = .enc :: [] ∧ (presented [] [0x9] [.enc]).encCmd = [] ∧
    (presented [0x1] [] [.dec]).turns = .dec :: [] ∧ (presented [0x1] [] [.dec]).decCmd = [] ∧
    State.reset.turns = [] ∧ State.reset.encCmd = [] ∧ State.reset.decCmd = [] := by decide

theorem witness_OneResponsePerCommand :
    nextWith (step (presented [0x1] [0x9] [])) (fun t => decide (t.encRsp = [0])) = true ∧
    nextWith (step (presented [0x1] [0x9] [.dec])) (fun t => decide (t.decRsp = [0])) = true := by decide +kernel

theorem witness_EveryPresentedCommandIsAnswered :
    Inv (presented [0x1, 0x0] [0x9] []) ∧ (presented [0x1, 0x0] [0x9] []).rst = false ∧
    (presented [0x1, 0x0] [0x9] []).turns = [] := ⟨inv_presented _ _ _, rfl, rfl⟩

theorem witness_ResponseWordLayout :
    smallest.operandFits 511 = true ∧ smallest.operandFits 512 = false ∧ Params.normative.operandFits 512 = true ∧
    smallest.opw = .finite 9 := by decide

theorem witness_DecodeInvertsEncode :
    Instr.wf smallest (.encSym 511) = true ∧ Instr.wf smallest (.decCode 0) = true ∧ Instr.wf smallest .decEnd = true ∧
    Instr.wf .normative (.decCode 9999) = true ∧ Instr.wf smallest (.p2cInsert [255]) = true ∧
    Instr.wf smallest (.c2pLookup 511) = true := by decide

theorem witness_EncodeInvertsDecode :
    decodeCommand .encCmd smallest 0x1FF2 = .ok (.encSym 511) ∧ smallest.operandFits (0x1FF2 / 16) = true ∧
    decodeCommand .decCmd .normative 0xB = .ok .decEnd ∧ Params.normative.operandFits (0xB / 16) = true := by decide

theorem witness_ReservedWordsRaiseIllegalCommand :
    (0x0 % 16 ∉ [1, 2, 3, 4, 5] ∧ 0x6 % 16 ∉ [1, 2, 3, 4, 5] ∧ 0x5F % 16 ∉ [1, 2, 3, 4, 5]) ∧
    (0x8 % 16 ∉ [9, 10, 11, 12, 13] ∧ 0xE % 16 ∉ [9, 10, 11, 12, 13]) ∧
    (0x11 % 16 ∈ [1, 3] ∧ operandField .normative 0x11 ≠ 0 ∧ 0x13 % 16 ∈ [1, 3] ∧ operandField .normative 0x13 ≠ 0) ∧
    (0x19 % 16 ∈ [9, 11] ∧ operandField .normative 0x19 ≠ 0 ∧ 0x1B % 16 ∈ [9, 11] ∧ operandField .normative 0x1B ≠ 0) := by
  decide

theorem witness_AssemblerEncodesDecimalOperands :
    Asm.opcodeOf "ENC_SYM".toList = some (.encCmd, 2) ∧ "97".toList ≠ [] ∧ Asm.digits 10 0 "97".toList = some 97 ∧
    Asm.opcodeOf "DEC_END".toList = some (.decCmd, 11) ∧ Asm.digits 10 0 "0".toList = some 0 := by decide +kernel

theorem witness_ResetMeetsTheInvariant : smallest.valid = true ∧ Params.normative.valid = true := by decide

theorem witness_EveryStepKeepsTheInvariant :
    Inv { enc3 with encCmd := [0x612] } ∧
    nextWith (step { enc3 with encCmd := [0x612] }) (fun t => decide (t.enc.prefixReg = [97, 97])) = true :=
  ⟨⟨rfl, inv_enc3.enc, inv_enc3.dec⟩, by decide +kernel⟩

theorem witness_NoStepStops : Inv { dec3 with decCmd := [0x101A] } := ⟨rfl, inv_dec3.enc, inv_dec3.dec⟩

theorem witness_EveryStepKeepsMemoryCanonical :
    Memory.wf enc3 = true ∧ nextWith (step { enc3 with encCmd := [0x622] }) (fun t => decide (t.enc.nextCode = 258)) = true ∧
    Memory.wf dec3 = true ∧ nextWith (exec (.c2pInsert [0]) dec3) (fun t => decide (t.dec.nextCode = 258)) = true ∧
    nextWith (exec (.p2cInsert [97, 97]) enc3) (fun t => decide (t.enc.nextCode = 258)) = true :=
  ⟨wf_enc3, by decide +kernel, wf_dec3, by decide +kernel, by decide +kernel⟩

/-- The entry with the smallest new codeword has the smallest length; a preload entry is below the bound. -/
theorem witness_PhraseLengthIsBoundedByItsCodeword :
    EncInv .normative enc3.enc ∧ p2cRead [97, 97] enc3.enc.table = some 256 ∧ p2cRead [255] enc3.enc.table = some 255 ∧
    DecInv .normative dec3.dec ∧ c2pRead 256 dec3.dec.table = some [97, 97] ∧ c2pRead 255 dec3.dec.table = some [255] :=
  ⟨inv_enc3.enc, by decide +kernel, by decide +kernel, inv_dec3.dec, by decide +kernel, by decide +kernel⟩

/-- States no run reaches, one for each stop, and the stop itself. -/
theorem witness_ImpossibleReadsStopByName :
    ((encAt .run .none [1, 2] 256 [] []).enc.phase = .run ∧
      p2cRead ([1, 2] ++ [3]) (encAt .run .none [1, 2] 256 [] []).enc.table = none ∧
      p2cRead [1, 2] (encAt .run .none [1, 2] 256 [] []).enc.table = none ∧
      faultIs (exec (.encSym 3) (encAt .run .none [1, 2] 256 [] [])) .unboundPhrase = true ∧
      faultIs (exec .encEnd (encAt .run .none [1, 2] 256 [] [])) .unboundPhrase = true) ∧
    ((decAt .run .none [97] 258 [97] []).dec.phase = .run ∧ 256 < (decAt .run .none [97] 258 [97] []).dec.nextCode ∧
      c2pRead 256 (decAt .run .none [97] 258 [97] []).dec.table = none ∧
      faultIs (exec (.decCode 256) (decAt .run .none [97] 258 [97] [])) .unboundCodeword = true) ∧
    (decAt .run .none [] 256 [97] []).dec.prefixReg = [] ∧
    faultIs (exec (.decCode 256) (decAt .run .none [] 256 [97] [])) .noFirstSymbol = true ∧
    c2pRead 256 (decAt .run .none [97] 257 [97] [[]]).dec.table = some [] ∧
    faultIs (exec (.decCode 256) (decAt .run .none [97] 257 [97] [[]])) .noFirstSymbol = true ∧
    reaches 0 Params.normative.outCap = false ∧ reaches 256 Params.normative.dictCap = false ∧
    exceeds 1 Params.normative.outCap = false := by decide +kernel

theorem witness_EncStartBeginsAFreshRun :
    State.reset.enc.phase = .idle ∧ enc4.enc.phase = .done ∧ (encAt .fault .illegalCommand [] 256 [] []).enc.phase = .fault ∧
    (encAt .waitFirst .none [] 256 [] []).enc.phase = .waitFirst ∧ enc3.enc.phase = .run ∧
    0x1 % 16 = 1 ∧ operandField .normative 0x1 = 0 ∧ 0x11 % 16 = 1 ∧ operandField .normative 0x11 ≠ 0 := by decide

/-- Boundary operands 0, 255 and 256; a candidate found, one not found, and both capacities just reached and not reached. -/
theorem witness_EncSymConsumesOneSymbol :
    0x1002 % 16 = 2 ∧ State.reset.enc.phase ≠ .run ∧ enc3.enc.phase = .run ∧ (256 : Nat) ≤ 256 ∧
    p2cRead (enc1.enc.prefixReg ++ [0]) enc1.enc.table = some 0 ∧ p2cRead (enc1.enc.prefixReg ++ [255]) enc1.enc.table = some 255 ∧
    p2cRead (enc3.enc.prefixReg ++ [97]) enc3.enc.table = some 256 ∧ p2cRead (enc3.enc.prefixReg ++ [98]) enc3.enc.table = none ∧
    reaches enc3.enc.out.length (Cap.finite 1) = true ∧ reaches enc3.enc.out.length (Cap.finite 2) = false ∧
    reaches enc3.enc.nextCode (Cap.finite 257) = true ∧ reaches enc3.enc.nextCode (Cap.finite 258) = false ∧
    p2cRead enc3.enc.prefixReg enc3.enc.table = some 97 := by decide +kernel

theorem witness_EncEndCompletesTheRun :
    enc4.enc.phase ≠ .run ∧ enc1.enc.phase = .run ∧ enc1.enc.prefixReg = [] ∧ enc3.enc.phase = .run ∧ enc3.enc.prefixReg ≠ [] ∧
    reaches enc3.enc.out.length (Cap.finite 1) = true ∧ reaches enc3.enc.out.length (Cap.finite 2) = false ∧
    p2cRead enc3.enc.prefixReg enc3.enc.table = some 97 ∧ 0x3 % 16 = 3 ∧ operandField .normative 0x3 = 0 ∧
    0x13 % 16 = 3 ∧ operandField .normative 0x13 ≠ 0 := by decide +kernel

theorem witness_EncRdReadsOneCodeword :
    0x14 % 16 = 4 ∧ enc3.enc.phase ≠ .done ∧ enc4.enc.phase = .done ∧ enc4.enc.out.length ≤ 2 ∧ 1 < enc4.enc.out.length := by decide

theorem witness_EncStatReadsARegister : 0x25 % 16 = 5 ∧ 2 < 3 := by decide

theorem witness_DecStartBeginsAFreshRun :
    State.reset.dec.phase = .idle ∧ (decAt .done .none [97] 256 [97] []).dec.phase = .done ∧
    (decAt .fault .emptyInput [] 256 [] []).dec.phase = .fault ∧ dec1.dec.phase = .waitFirst ∧ dec3.dec.phase = .run ∧
    0x9 % 16 = 9 ∧ operandField .normative 0x9 = 0 ∧ 0x19 % 16 = 9 ∧ operandField .normative 0x19 ≠ 0 := by decide

/-- First codewords 255 and 256; later codewords `next_code - 1`, `next_code` and `next_code + 1`; the output buffer just full
enough and one too full. -/
theorem witness_DecCodeConsumesOneCodeword :
    dec3.dec.table.length = dec3.dec.nextCode ∧ dec1.dec.table.length = dec1.dec.nextCode ∧ 0x100A % 16 = 10 ∧
    State.reset.dec.phase ≠ .waitFirst ∧ State.reset.dec.phase ≠ .run ∧ dec1.dec.phase = .waitFirst ∧ (256 : Nat) ≤ 256 ∧ 255 < 256 ∧
    dec3.dec.phase = .run ∧ dec3.dec.nextCode < 258 ∧
    firstSymbol [97, 97] = some 97 ∧ 256 < dec3.dec.nextCode ∧ c2pRead 256 dec3.dec.table = some [97, 97] ∧
    257 = dec3.dec.nextCode ∧ firstSymbol dec3.dec.prefixReg = some 97 ∧ [97, 97, 97] = dec3.dec.prefixReg ++ [97] ∧
    exceeds (dec3.dec.out.length + 3) (Cap.finite 5) = true ∧ exceeds (dec3.dec.out.length + 3) (Cap.finite 6) = false ∧
    reaches dec3.dec.nextCode (Cap.finite 257) = true ∧ reaches dec3.dec.nextCode (Cap.finite 258) = false := by decide +kernel

theorem witness_DecEndCompletesTheRunOrReportsEmptyInput :
    State.reset.dec.phase ≠ .waitFirst ∧ State.reset.dec.phase ≠ .run ∧ dec1.dec.phase = .waitFirst ∧ dec3.dec.phase = .run ∧
    0xB % 16 = 11 ∧ operandField .normative 0xB = 0 ∧ 0x1B % 16 = 11 ∧ operandField .normative 0x1B ≠ 0 ∧
    DecInv .normative dec3.dec :=
  ⟨by decide, by decide, rfl, rfl, rfl, rfl, rfl, by decide, inv_dec3.dec⟩

theorem witness_DecRdReadsOneSymbol :
    0x3C % 16 = 12 ∧ dec3.dec.phase ≠ .done ∧ (decAt .done .none [97] 256 [97] []).dec.phase = .done ∧
    (decAt .done .none [97] 256 [97] []).dec.out.length ≤ 1 ∧ 0 < (decAt .done .none [97] 256 [97] []).dec.out.length := by decide

theorem witness_DecStatReadsARegister : 0xD % 16 = 13 ∧ 2 < 3 := by decide

theorem witness_P2cOperationsInitLookupInsert :
    p2cRead [97, 98] enc3.enc.table = none ∧ p2cRead [97, 97] enc3.enc.table = some 256 ∧ ([97, 98] : Phrase) ≠ [] ∧
    EncInv .normative enc3.enc := ⟨by decide +kernel, by decide +kernel, by decide, inv_enc3.enc⟩

theorem witness_C2pOperationsInitLookupInsert :
    dec3.dec.nextCode ≤ 257 ∧ 256 < dec3.dec.nextCode ∧ c2pRead 256 dec3.dec.table = some [97, 97] ∧
    dec3.dec.table.length = dec3.dec.nextCode ∧ smallest.operandFits 511 = true ∧ ([97] : Phrase) ≠ [] ∧
    DecInv .normative dec3.dec ∧ 255 < 256 :=
  ⟨by decide, by decide, by decide +kernel, by decide +kernel, by decide, by decide, inv_dec3.dec, by decide⟩

theorem witness_TableReadsAfterInsert :
    ([97, 98] : Phrase) ≠ [97, 97] ∧ dec3.dec.table.length = dec3.dec.nextCode ∧ 256 ≠ dec3.dec.nextCode := by decide +kernel

theorem witness_CommandsAreLocalToTheirEngine :
    Instr.isEncCommand (.encSym 98) = true ∧ nextWith (exec (.encSym 98) enc3) (fun t => decide (t.encRsp = [0])) = true ∧
    ({ enc3 with dec := dec3.dec } : State).enc = enc3.enc ∧
    Instr.isDecCommand (.decCode 256) = true ∧ nextWith (exec (.decCode 256) dec3) (fun t => decide (t.decRsp = [0])) = true ∧
    ({ dec3 with enc := enc3.enc } : State).dec = dec3.dec := by decide +kernel

theorem witness_SuccessfulCommandsLeaveTheRest :
    nextWith (exec (.encSym 98) enc3) (fun t => decide (t.enc.phase ≠ .fault)) = true ∧
    nextWith (exec .encEnd enc3) (fun t => decide (t.enc.phase ≠ .fault)) = true ∧
    nextWith (exec (.encRd 1) enc4) (fun t => decide (t.enc.phase ≠ .fault)) = true ∧
    nextWith (exec (.encStat 2) enc4) (fun t => decide (t.enc.phase ≠ .fault)) = true ∧
    nextWith (exec (.decCode 257) dec3) (fun t => decide (t.dec.phase ≠ .fault)) = true ∧
    dec1.dec.phase = .waitFirst ∧ nextWith (exec (.decCode 255) dec1) (fun t => decide (t.dec.phase ≠ .fault)) = true ∧
    nextWith (exec .decEnd dec3) (fun t => decide (t.dec.phase ≠ .fault)) = true ∧
    nextWith (exec (.decRd 0) (decAt .done .none [97] 256 [97] [])) (fun t => decide (t.dec.phase ≠ .fault)) = true ∧
    nextWith (exec (.decStat 2) dec3) (fun t => decide (t.dec.phase ≠ .fault)) = true := by decide +kernel

theorem witness_BindingsArePermanentWithinARun :
    Instr.isHostCommand (.encSym 98) = true ∧ Memory.wf enc3 = true ∧
    nextWith (exec (.encSym 98) enc3) (fun t => decide (t.enc.nextCode = 258)) = true ∧
    p2cRead [97, 97] enc3.enc.table = some 256 ∧ Memory.wf dec3 = true ∧
    nextWith (exec (.decCode 257) dec3) (fun t => decide (t.dec.nextCode = 258)) = true ∧
    c2pRead 256 dec3.dec.table = some [97, 97] :=
  ⟨rfl, wf_enc3, by decide +kernel, by decide +kernel, wf_dec3, by decide +kernel, by decide +kernel⟩

theorem witness_OutputBuffersOnlyGrow :
    Inv enc3 ∧ nextWith (exec (.encSym 98) enc3) (fun t => decide (t.enc.out = [97, 97])) = true ∧
    Inv dec3 ∧ nextWith (exec (.decCode 256) dec3) (fun t => decide (t.dec.out = [97, 97, 97, 97, 97])) = true :=
  ⟨inv_enc3, by decide +kernel, inv_dec3, by decide +kernel⟩

theorem witness_RaisesChangeNothingElse :
    enc3.enc.phase ≠ .fault ∧
    nextWith (encHandle 0x1002 enc3) (fun t => decide (t.enc.phase = .fault ∧ t.encRsp = [3])) = true ∧
    nextWith (encHandle 0x0 enc3) (fun t => decide (t.enc.phase = .fault ∧ t.encRsp = [4])) = true ∧
    dec3.dec.phase ≠ .fault ∧
    nextWith (decHandle 0x102A dec3) (fun t => decide (t.dec.phase = .fault ∧ t.decRsp = [2])) = true := by decide +kernel

theorem witness_FaultIsSticky :
    (encAt .fault .illegalCommand [] 256 [] []).enc.phase = .fault ∧
    decodeCommand .encCmd .normative 0x612 ≠ .ok .encStart ∧
    (∀ n, n ≤ 2 → decodeCommand .encCmd .normative 0x612 ≠ .ok (.encStat n)) ∧
    (∀ n, n ≤ 2 → decodeCommand .encCmd .normative 0x35 ≠ .ok (.encStat n)) ∧
    decodeCommand .encCmd .normative 0x25 = .ok (.encStat 2) ∧
    (decAt .fault .emptyInput [] 256 [] []).dec.phase = .fault ∧
    decodeCommand .decCmd .normative 0x61A ≠ .ok .decStart ∧
    (∀ n, n ≤ 2 → decodeCommand .decCmd .normative 0x61A ≠ .ok (.decStat n)) ∧
    (∀ n, n ≤ 2 → decodeCommand .decCmd .normative 0x3D ≠ .ok (.decStat n)) ∧
    decodeCommand .decCmd .normative 0x2D = .ok (.decStat 2) := by decide

theorem witness_OnlyStartOrResetLeavesFault :
    nextWith (step { encAt .fault .illegalCommand [] 256 [] [] with encCmd := [0x1] }) (fun t => decide (t.enc.phase ≠ .fault)) = true ∧
    nextWith (step { decAt .fault .emptyInput [] 256 [] [] with decCmd := [0x9] }) (fun t => decide (t.dec.phase ≠ .fault)) = true ∧
    nextWith (step { decAt .fault .emptyInput [] 256 [] [] with turns := [.rst true] }) (fun t => decide (t.dec.phase ≠ .fault)) = true := by
  decide +kernel

theorem witness_EncPhaseMovesAsTheTableSays :
    nextWith (step { enc3 with turns := [.rst true] }) (fun t => decide (t.enc.phase ≠ enc3.enc.phase)) = true ∧
    nextWith (step (presented [0x1] [] [])) (fun t => decide (t.enc.phase ≠ State.reset.enc.phase)) = true ∧
    nextWith (step { enc3 with encCmd := [0x3] }) (fun t => decide (t.enc.phase ≠ enc3.enc.phase)) = true ∧
    nextWith (step { enc3 with encCmd := [0x0] }) (fun t => decide (t.enc.phase ≠ enc3.enc.phase)) = true := by decide +kernel

theorem witness_DecPhaseMovesAsTheTableSays :
    nextWith (step { dec3 with turns := [.rst true] }) (fun t => decide (t.dec.phase ≠ dec3.dec.phase)) = true ∧
    nextWith (step (presented [] [0x9] [])) (fun t => decide (t.dec.phase ≠ State.reset.dec.phase)) = true ∧
    nextWith (step { dec1 with decCmd := [0xFFA] }) (fun t => decide (t.dec.phase ≠ dec1.dec.phase)) = true ∧
    nextWith (step { dec3 with decCmd := [0xB] }) (fun t => decide (t.dec.phase ≠ dec3.dec.phase)) = true ∧
    nextWith (step { dec1 with decCmd := [0xB] }) (fun t => decide (t.dec.phase ≠ dec1.dec.phase)) = true := by decide +kernel

theorem witness_NextCodeMovesByOne :
    nextWith (exec .encStart enc4) (fun t => decide (t.enc.phase ≠ .fault)) = true ∧
    nextWith (exec (.encSym 98) enc3) (fun t => decide (t.enc.out.length = 2 ∧ t.enc.csr 2 = some 258)) = true ∧
    nextWith (exec (.encSym 97) enc3) (fun t => decide (t.enc.out.length = 1 ∧ t.enc.csr 2 = some 257)) = true ∧
    nextWith (exec .encEnd enc3) (fun t => decide (t.enc.csr 2 = some 257)) = true ∧
    nextWith (exec (.encRd 0) enc4) (fun t => decide (t.enc.csr 2 = some 257)) = true ∧
    nextWith (exec .decStart State.reset) (fun t => decide (t.dec.phase ≠ .fault)) = true ∧
    nextWith (exec (.decCode 255) dec1) (fun t => decide (t.dec.csr 2 = some 256)) = true ∧
    nextWith (exec (.decCode 257) dec3) (fun t => decide (t.dec.csr 2 = some 258)) = true ∧
    nextWith (exec .decEnd dec3) (fun t => decide (t.dec.csr 2 = some 257)) = true := by decide +kernel

theorem witness_InfiniteCapacityIsNeverExhausted :
    enc3.params.dictCap = .infinite ∧ enc3.params.outCap = .infinite ∧ enc3.enc.err ≠ .capacityExhausted ∧
    enc3.dec.err ≠ .capacityExhausted ∧
    nextWith (step { enc3 with encCmd := [0x622] }) (fun t => decide (t.enc.nextCode = 258)) = true := by decide +kernel

/-- Two different histories, a legal START in both, and a command list that runs. -/
theorem witness_StartErasesHistory :
    (∀ j ∈ [Instr.encSym 97, .encEnd], j.isEncCommand = true) ∧ legalIn .encStart enc4.enc.phase = true ∧
    legalIn .encStart State.reset.enc.phase = true ∧ State.reset.params = enc4.params ∧
    nextWith (runCommands [.encStart, .encSym 97, .encEnd] enc4) (fun t => decide (t.enc.out = [97])) = true ∧
    (∀ j ∈ [Instr.decCode 97, .decEnd], j.isDecCommand = true) ∧
    legalIn .decStart (decAt .fault .emptyInput [] 256 [] []).dec.phase = true ∧
    legalIn .decStart State.reset.dec.phase = true ∧
    nextWith (runCommands [.decStart, .decCode 97, .decEnd] State.reset) (fun t => decide (t.dec.out = [97])) = true := by
  decide +kernel

/-- The words of `ENCODE "aaa"` on a fresh machine; an operand of 256. -/
theorem witness_EncodeRunContract :
    (presented [0x1, 0x612, 0x612, 0x612, 0x3] [] []).params = .normative ∧
    (presented [0x1, 0x612, 0x612, 0x612, 0x3] [] []).rst = false ∧
    (presented [0x1, 0x612, 0x612, 0x612, 0x3] [] []).turns = [] ∧
    (presented [0x1, 0x612, 0x612, 0x612, 0x3] [] []).enc.phase = .idle ∧
    (presented [0x1, 0x612, 0x612, 0x612, 0x3] [] []).encCmd = wordsOf (encodeExpansion (([97, 97, 97] : List Sys2Proof.Symbol).map Fin.val)) ++ [] ∧
    (∃ a ∈ [255, 256], 256 ≤ a) ∧
    (presented [0x1, 0xFF2, 0x1002, 0x3] [] []).encCmd = wordsOf (encodeExpansion [255, 256]) ++ [] := by
  refine ⟨rfl, rfl, rfl, rfl, by decide, ⟨256, by decide, by decide⟩, by decide⟩

/-- No codeword; a first codeword of 256; a second one of 257; a valid sequence with the special case. -/
theorem witness_DecodeRunContract :
    (presented [] [0x9, 0xB] []).params = .normative ∧ (presented [] [0x9, 0xB] []).rst = false ∧
    (presented [] [0x9, 0xB] []).turns = [] ∧ (presented [] [0x9, 0xB] []).encCmd = [] ∧
    (presented [] [0x9, 0xB] []).dec.phase = .idle ∧ [0x9, 0xB] = wordsOf (decodeExpansion []) ++ [] ∧
    [0x9, 0x100A, 0xB] = wordsOf (decodeExpansion [256]) ++ [] ∧ (∃ c, [256][0]? = some c ∧ 256 ≤ c) ∧
    [0x9, 0x61A, 0x101A, 0xB] = wordsOf (decodeExpansion [97, 257]) ++ [] ∧
    (∃ k c, 1 ≤ k ∧ [97, 257][k]? = some c ∧ 256 + k - 1 < c) ∧
    [0x9, 0x61A, 0x100A, 0xB] = wordsOf (decodeExpansion [97, 256]) ++ [] ∧
    (∀ c, [97, 256][0]? = some c → c < 256) ∧ (∀ k c, 1 ≤ k → [97, 256][k]? = some c → c ≤ 256 + k - 1) := by
  refine ⟨rfl, rfl, rfl, rfl, rfl, by decide, by decide, ⟨256, rfl, by decide⟩, by decide, ⟨1, 257, by decide, rfl, by decide⟩,
    by decide, by simp, ?_⟩
  intro k c hk hc
  match k with
  | 0 => omega
  | 1 => simp at hc; omega
  | k + 2 => simp at hc

/-- For the normative parameters and the smallest ones: ENCODE of one symbol completes on both, DECODE of its output too. -/
theorem witness_DecodeOfEncodeIsTheInput :
    State.reset.params.valid = true ∧ (withParams smallest State.reset).params.valid = true ∧
    ([97] : List Sys2Proof.Symbol) ≠ [] ∧ legalIn .encStart State.reset.enc.phase = true ∧
    legalIn .decStart State.reset.dec.phase = true ∧
    nextWith (runCommands (encodeExpansion (([97] : List Sys2Proof.Symbol).map Fin.val)) (withParams smallest State.reset))
      (fun t => decide (t.enc.phase = .done)) = true := by decide +kernel

theorem witness_EmittedPhrasesMakeUpTheInput :
    State.reset.params.valid = true ∧ legalIn .encStart State.reset.enc.phase = true ∧
    nextWith (runCommands (encodeExpansion (([97, 97, 97] : List Sys2Proof.Symbol).map Fin.val)) State.reset)
      (fun t => decide (t.enc.phase = .done ∧ t.enc.out[0]? = some 97 ∧ t.enc.out[1]? = some 256)) = true := by decide +kernel

theorem witness_DecoderIsOneStepBehind :
    State.reset.params = .normative ∧ legalIn .encStart State.reset.enc.phase = true ∧
    legalIn .decStart State.reset.dec.phase = true ∧ ([97, 97, 97] : List Sys2Proof.Symbol) ≠ [] ∧
    nextWith (runCommands (encodeExpansion (([97, 97, 97] : List Sys2Proof.Symbol).map Fin.val)) State.reset)
      (fun t => decide (t.enc.out[0]? = some 97 ∧ t.enc.out[1]? = some 256)) = true := by decide +kernel

/-- The empty input and one with a miss. -/
theorem witness_CompletedEncodeCounts :
    State.reset.params.valid = true ∧ legalIn .encStart State.reset.enc.phase = true ∧
    nextWith (runCommands (encodeExpansion []) State.reset) (fun t => decide (t.enc.phase = .done)) = true ∧
    nextWith (runCommands (encodeExpansion (([97, 98] : List Sys2Proof.Symbol).map Fin.val)) State.reset)
      (fun t => decide (t.enc.phase = .done ∧ t.enc.out[1]? = some 98)) = true := by decide +kernel

/-- V22 in small: one command on each port, in both orders. -/
theorem witness_InterleavingsAgree :
    [Turn.enc, .dec].Perm [.dec, .enc] ∧ (∀ x ∈ [Turn.enc, .dec], x = .enc ∨ x = .dec) ∧
    nextWith (Host.Core.run Sys2Proof.core 2 (presented [0x1] [0x0] [.enc, .dec]))
      (fun t => decide (t.enc.phase = .run ∧ t.dec.phase = .fault)) = true :=
  ⟨List.Perm.swap _ _ _, by decide, by decide +kernel⟩

end Sys2Proof.Tests
end

/-! ## Steps from states that meet the invariant -/

namespace Sys2Proof.Machine

/-- A transition is total on the states that meet the invariant, and does not leave them (R9, R78): whoever moves next,
ENC, DEC or the `rst` line, the move answers a next state that meets it. -/
theorem Inv.step_next {s : State} (h : Inv s) : ∃ t, step s = .next t ∧ Inv t := by
  rcases step_cases s with ⟨ts, -, he⟩ | ⟨ts, -, he⟩ | ⟨b, ts, -, he⟩ | ⟨-, -, he⟩ | ⟨-, -, he⟩
  · rw [he]; exact encTurn_inv (h.withTurns ts)
  · rw [he]; exact decTurn_inv (h.withTurns ts)
  · exact ⟨_, he, (h.withTurns ts).driveRst b⟩
  · rw [he]; exact encTurn_inv h
  · rw [he]; exact decTurn_inv h

/-- Settles O16: the next state that `Inv.step_next` gives. -/
theorem noStepStops : Obligations.NoStepStops := by
  intro s h
  obtain ⟨t, ht, -⟩ := h.step_next
  exact ⟨t, ht⟩

end Sys2Proof.Machine

/-! ## Steps keep the invariant -/

namespace Sys2Proof.Machine

/-- Settles O15: by `Inv.step_next` a step from a state that meets the invariant answers a next state that meets it, and a
step has only one outcome. -/
theorem everyStepKeepsTheInvariant : Obligations.EveryStepKeepsTheInvariant := by
  intro s t h hst
  obtain ⟨u, hu, hinv⟩ := h.step_next
  have htu : t = u := Host.Outcome.next.inj (hst.symm.trans hu)
  rwa [htu]

/-! ## Phrase lengths -/

/-- In a table whose entries below 256 have length 1 and whose other entries are longer than some earlier entry by one symbol,
an entry at `c` is a phrase of length at most `c - 254` (R36); `bound c q` says that `q` is the entry at `c`. -/
theorem length_le_of_prefix_closed {bound : Nat → Phrase → Prop}
    (hpre : ∀ c q, bound c q → c < 256 → q.length = 1)
    (hclosed : ∀ c q, bound c q → 256 ≤ c → 2 ≤ q.length ∧ ∃ c', c' < c ∧ bound c' q.dropLast)
    {c : Nat} {q : Phrase} (h : bound c q) : 1 ≤ q.length ∧ q.length ≤ max 1 (c - 254) := by
  induction c using Nat.strong_induction_on generalizing q with
  | _ c ih =>
    rcases Nat.lt_or_ge c 256 with hc | hc
    · have := hpre c q h hc
      omega
    · obtain ⟨h2, c', hlt, hb⟩ := hclosed c q h hc
      have := ih c' hlt hb
      rw [List.length_dropLast] at this
      omega

/-- Under the invariant what P2C reads is what it lists (R51). -/
theorem EncInv.read_iff {p : Params} {x : Enc} (h : EncInv p x) {q : Phrase} {c : Nat} :
    p2cRead q x.table = some c ↔ (q, c) ∈ x.table :=
  ⟨p2cRead_mem, p2cRead_of_mem h.keys_nodup⟩

/-- The pairs of P2C with a codeword below 256 are the preload's (R35 (a)). -/
theorem EncInv.mem_preload_of_lt {p : Params} {x : Enc} (h : EncInv p x) {q : Phrase} {c : Nat}
    (hm : (q, c) ∈ x.table) (hc : c < 256) : (q, c) ∈ p2cPreload := by
  have hget : (x.table.take 256)[c]? = some (q, c) := by
    rw [List.getElem?_take, if_pos hc, getElem?_of_mem h.codes_range hm]
  rw [h.preload] at hget
  exact List.mem_of_getElem? hget

theorem EncInv.length_le {p : Params} {x : Enc} (h : EncInv p x) {q : Phrase} {c : Nat} (hm : (q, c) ∈ x.table) :
    1 ≤ q.length ∧ q.length ≤ max 1 (c - 254) := by
  refine length_le_of_prefix_closed (bound := fun c q => (q, c) ∈ x.table) ?_ (fun c q => h.prefix_closed q c) hm
  intro c q hq hc
  obtain ⟨k, rfl, -⟩ := mem_p2cPreload.1 (h.mem_preload_of_lt hq hc)
  rfl

theorem DecInv.length_le {p : Params} {x : Dec} (h : DecInv p x) {q : Phrase} {c : Nat} (hm : x.table[c]? = some q) :
    1 ≤ q.length ∧ q.length ≤ max 1 (c - 254) := by
  refine length_le_of_prefix_closed (bound := fun c q => x.table[c]? = some q) ?_ h.prefix_closed hm
  intro c q hq hc
  rw [h.preload_get hc, Option.some.injEq] at hq
  rw [← hq]; rfl

/-- Settles O18: `EncInv.length_le` and `DecInv.length_le`; that all but the last symbol is an earlier entry is R36 as the
invariant has it. -/
theorem phraseLengthIsBoundedByItsCodeword : Obligations.PhraseLengthIsBoundedByItsCodeword := by
  constructor
  · intro p x h q c hq
    obtain ⟨h1, hmax⟩ := h.length_le (h.read_iff.1 hq)
    refine ⟨List.length_pos_iff.1 h1, fun hc => ?_⟩
    obtain ⟨h2, c', hlt, hm⟩ := h.prefix_closed q c (h.read_iff.1 hq) hc
    exact ⟨h2, by omega, c', hlt, h.read_iff.2 hm⟩
  · intro p x h c q hq
    obtain ⟨h1, hmax⟩ := h.length_le hq
    refine ⟨List.length_pos_iff.1 h1, fun hc => ?_⟩
    obtain ⟨h2, hprefix⟩ := h.prefix_closed c q hq hc
    exact ⟨h2, by omega, hprefix⟩

/-! ## What a command leaves alone: the other engine, the bindings, the output produced -/

/-- Settles O33: an ENC command is `encTransition` of ENC's state and the parameters put into the machine (`exec_enc`), and
likewise in DEC. -/
theorem commandsAreLocalToTheirEngine : Obligations.CommandsAreLocalToTheirEngine := by
  constructor
  · intro i s t hi h
    rw [exec_enc hi] at h
    obtain ⟨y, w, hy, rfl⟩ := finishEnc_next h
    refine ⟨w, rfl, fun s' he hp => ?_⟩
    have hy' : encTransition i s'.params s'.enc = .ok (y, w) := by rw [he, hp, hy]
    rw [exec_enc hi, hy']; rfl
  · intro i s t hi h
    rw [exec_dec hi] at h
    obtain ⟨y, w, hy, rfl⟩ := finishDec_next h
    refine ⟨w, rfl, fun s' he hp => ?_⟩
    have hy' : decTransition i s'.params s'.dec = .ok (y, w) := by rw [he, hp, hy]
    rw [exec_dec hi, hy']; rfl

/-- No move of ENC but START changes or removes a binding of P2C (R35 (c)). -/
theorem EncMove.read_table {i : Instr} {p : Params} {x y : Enc} {w : Nat} (hm : EncMove i p x y w) (hi : i ≠ .encStart)
    {q : Phrase} {c : Nat} (hq : p2cRead q x.table = some c) : p2cRead q y.table = some c := by
  cases hm with
  | raise e => rwa [raise_table]
  | start h => exact absurd h hi
  | miss => rw [p2cRead_append, hq]; rfl
  | hit => exact hq
  | finish => exact hq
  | read => exact hq

/-- No move of DEC but START changes or removes an entry of C2P (R35 (c)): DEC_CODE writes at the counter, which is past the
last entry. -/
theorem DecMove.read_table {i : Instr} {p : Params} {x y : Dec} {w : Nat} (hm : DecMove i p x y w) (hi : i ≠ .decStart)
    (hsize : x.table.length = x.nextCode) {c : Nat} {q : Phrase} (hq : c2pRead c x.table = some q) :
    c2pRead c y.table = some q := by
  cases hm with
  | raise e => rwa [raise_table]
  | start h => exact absurd h hi
  | later =>
    have hlt : c < x.table.length := (List.getElem?_eq_some_iff.1 hq).1
    rw [c2pRead_write_other (by omega) _ hsize.ge, hq]
  | first => exact hq
  | finish => exact hq
  | read => exact hq

theorem memory_wf_iff {s : State} : Memory.wf s = true ↔
    p2cCanonical s.enc.nextCode s.enc.table = true ∧ s.dec.table.length = s.dec.nextCode := by
  simp [Memory.wf]

/-- Settles O35: a command of one engine leaves the other's table, and its own by `EncMove.read_table` and
`DecMove.read_table`. -/
theorem bindingsArePermanentWithinARun : Obligations.BindingsArePermanentWithinARun := by
  intro i s t hi henc hdec hwf h
  rcases isHostCommand_cases hi with hE | hD
  · obtain ⟨y, w, hm, rfl⟩ := exec_enc_next hE h
    exact ⟨fun q c => hm.read_table henc, fun c q => id⟩
  · obtain ⟨y, w, hm, rfl⟩ := exec_dec_next hD h
    exact ⟨fun q c => id, fun c q => hm.read_table hdec (memory_wf_iff.1 hwf).2⟩

/-- After a raise the output is gone; it was already if the engine was in FAULT (R186, R191). -/
theorem raise_out {α τ : Type} {p : Params} {e : Err} {x : Engine α τ} (hx : x.phase = .fault → x.out = []) :
    (x.raise p e).1.out = [] := by
  by_cases hf : x.phase = .fault
  · rw [raise_of_fault p e x hf]; exact hx hf
  · rw [raise_of_not_fault p e x hf]

/-- What a move of ENC makes of `EOUT` (R28, R53): emptied by START and by a raise, otherwise at most one codeword longer. -/
theorem EncMove.out_cases {i : Instr} {p : Params} {x y : Enc} {w : Nat} (hm : EncMove i p x y w) (hx : EncInv p x) :
    (i = .encStart ∨ y.phase = .fault) ∧ y.out = [] ∨
      ∃ l, y.out = x.out ++ l ∧ l.length ≤ 1 ∧ (l ≠ [] → i = .encEnd ∨ ∃ a, i = .encSym a) := by
  cases hm with
  | raise e => exact .inl ⟨.inr (raise_phase p e x), raise_out hx.fault_out⟩
  | start hi => exact .inl ⟨.inl hi, rfl⟩
  | hit a => exact .inr ⟨[], by simp⟩
  | miss a hi _ s c => exact .inr ⟨[c], rfl, Nat.le_refl 1, fun _ => .inr ⟨a, hi⟩⟩
  | finish hi _ l hl => exact .inr ⟨l, rfl, hl, fun _ => .inl hi⟩
  | read => exact .inr ⟨[], by simp⟩

/-- What a move of DEC makes of `DOUT` (R28, R53): emptied by START and by a raise, otherwise longer at its end by DEC_CODE
only. The first codeword's symbol is appended to an output that is still empty. -/
theorem DecMove.out_cases {i : Instr} {p : Params} {x y : Dec} {w : Nat} (hm : DecMove i p x y w) (hx : DecInv p x) :
    (i = .decStart ∨ y.phase = .fault) ∧ y.out = [] ∨
      ∃ l, y.out = x.out ++ l ∧ (l ≠ [] → ∃ c, i = .decCode c) := by
  cases hm with
  | raise e => exact .inl ⟨.inr (raise_phase p e x), raise_out hx.fault_out⟩
  | start hi => exact .inl ⟨.inl hi, rfl⟩
  | first c hi hc hw =>
    obtain ⟨-, hout, -⟩ := hx.early (.inr hw)
    exact .inr ⟨[⟨c, hc⟩], by rw [hout]; rfl, fun _ => ⟨c, hi⟩⟩
  | later c hi _ q => exact .inr ⟨q, rfl, fun _ => ⟨c, hi⟩⟩
  | finish => exact .inr ⟨[], by simp⟩
  | read => exact .inr ⟨[], by simp⟩

/-- Settles O36: `EncMove.out_cases` and `DecMove.out_cases` for the engine whose command it is; the other's output is as it
was. -/
theorem outputBuffersOnlyGrow : Obligations.OutputBuffersOnlyGrow := by
  intro i s t hs hi h
  rcases isHostCommand_cases hi with hE | hD
  · obtain ⟨y, w, hm, rfl⟩ := exec_enc_next hE h
    exact ⟨hm.out_cases hs.enc, .inr ⟨[], by simp⟩⟩
  · obtain ⟨y, w, hm, rfl⟩ := exec_dec_next hD h
    exact ⟨.inr ⟨[], by simp⟩, hm.out_cases hs.dec⟩

/-! ## START erases history -/

/-- Commands of ENC that all answer give one response each (R70). -/
theorem encTransitions_length {is : List Instr} {p : Params} {x y : Enc} {ws : List Nat}
    (h : encTransitions is p x = .ok (y, ws)) : ws.length = is.length := by
  induction is generalizing x ws with
  | nil => cases h; rfl
  | cons i rest ih =>
    simp only [encTransitions] at h
    split at h
    · cases h
    · split at h
      · cases h
      · rename_i hrest
        cases h
        rw [List.length_cons, List.length_cons, ih hrest]

/-- Commands of DEC that all answer give one response each (R70). -/
theorem decTransitions_length {is : List Instr} {p : Params} {x y : Dec} {ws : List Nat}
    (h : decTransitions is p x = .ok (y, ws)) : ws.length = is.length := by
  induction is generalizing x ws with
  | nil => cases h; rfl
  | cons i rest ih =>
    simp only [decTransitions] at h
    split at h
    · cases h
    · split at h
      · cases h
      · rename_i hrest
        cases h
        rw [List.length_cons, List.length_cons, ih hrest]

/-- Commands after a START that is legal do not depend on what ENC held before (R38): START writes every register. -/
theorem encTransitions_start (js : List Instr) (p : Params) {x x' : Enc} (h : legalIn .encStart x.phase = true)
    (h' : legalIn .encStart x'.phase = true) :
    encTransitions (.encStart :: js) p x' = encTransitions (.encStart :: js) p x := by
  rw [encTransitions, encTransitions, encTransition_start p h, encTransition_start p h']
  rfl

/-- Commands after a START that is legal do not depend on what DEC held before (R38), likewise. -/
theorem decTransitions_start (js : List Instr) (p : Params) {x x' : Dec} (h : legalIn .decStart x.phase = true)
    (h' : legalIn .decStart x'.phase = true) :
    decTransitions (.decStart :: js) p x' = decTransitions (.decStart :: js) p x := by
  rw [decTransitions, decTransitions, decTransition_start p h, decTransition_start p h']
  rfl

/-- Commands of ENC that end in a next state have made ENC's transitions and nothing else. -/
theorem runCommands_enc_next {is : List Instr} (hi : ∀ i ∈ is, i.isEncCommand = true) {s t : State}
    (h : runCommands is s = .next t) :
    ∃ y ws, encTransitions is s.params s.enc = .ok (y, ws) ∧ t = { s with enc := y, encRsp := s.encRsp ++ ws } := by
  rw [runCommands_enc hi] at h
  split at h
  · exact ⟨_, _, ‹_›, (Host.Outcome.next.inj h).symm⟩
  · cases h

/-- Commands of DEC that end in a next state have made DEC's transitions and nothing else. -/
theorem runCommands_dec_next {is : List Instr} (hi : ∀ i ∈ is, i.isDecCommand = true) {s t : State}
    (h : runCommands is s = .next t) :
    ∃ y ws, decTransitions is s.params s.dec = .ok (y, ws) ∧ t = { s with dec := y, decRsp := s.decRsp ++ ws } := by
  rw [runCommands_dec hi] at h
  split at h
  · exact ⟨_, _, ‹_›, (Host.Outcome.next.inj h).symm⟩
  · cases h

/-- Settles O44: the engine's transitions on START and the commands after it are the same from both states
(`encTransitions_start`, `decTransitions_start`). -/
theorem startErasesHistory : Obligations.StartErasesHistory := by
  constructor
  · intro s s' t js hp hjs hl hl' h
    have hall : ∀ i ∈ Instr.encStart :: js, i.isEncCommand = true := List.forall_mem_cons.2 ⟨rfl, hjs⟩
    obtain ⟨y, ws, hy, rfl⟩ := runCommands_enc_next hall h
    have hy' : encTransitions (.encStart :: js) s'.params s'.enc = .ok (y, ws) := by
      rw [hp, encTransitions_start js s.params hl hl', hy]
    refine ⟨{ s' with enc := y, encRsp := s'.encRsp ++ ws }, ws, ?_, rfl, rfl, rfl, encTransitions_length hy⟩
    rw [runCommands_enc hall, hy']
  · intro s s' t js hp hjs hl hl' h
    have hall : ∀ i ∈ Instr.decStart :: js, i.isDecCommand = true := List.forall_mem_cons.2 ⟨rfl, hjs⟩
    obtain ⟨y, ws, hy, rfl⟩ := runCommands_dec_next hall h
    have hy' : decTransitions (.decStart :: js) s'.params s'.dec = .ok (y, ws) := by
      rw [hp, decTransitions_start js s.params hl hl', hy]
    refine ⟨{ s' with dec := y, decRsp := s'.decRsp ++ ws }, ws, ?_, rfl, rfl, rfl, decTransitions_length hy⟩
    rw [runCommands_dec hall, hy']

/-! ## Reset and the status registers -/

/-- The preload of C2P reads `[k]` at `k`, for the symbols `k`, and nothing elsewhere (R39). -/
theorem c2pRead_preload_iff {c : Nat} {q : Phrase} :
    c2pRead c c2pPreload = some q ↔ ∃ k : Symbol, c = k.val ∧ q = [k] := by
  constructor
  · intro h
    have hc : c < 256 := c2pPreload_closed c q h
    rw [c2pRead, c2pPreload_of_lt hc, Option.some.injEq] at h
    exact ⟨⟨c, hc⟩, rfl, h.symm⟩
  · rintro ⟨k, rfl, rfl⟩
    exact c2pPreload_getElem? k

/-- Settles O1: the two preloads by `mem_p2cPreload` and `c2pRead_preload_iff`; every other value stands in the reset state
as R39 gives it. -/
theorem resetLeavesStatedValues : Obligations.ResetLeavesStatedValues :=
  ⟨rfl, fun _ => ⟨⟨rfl, rfl, rfl, rfl, rfl, fun _ _ => mem_p2cPreload⟩,
    ⟨rfl, rfl, rfl, rfl, rfl, fun _ _ => c2pRead_preload_iff⟩, ⟨rfl, rfl, rfl⟩, ⟨rfl, rfl, rfl⟩⟩⟩

theorem phase_code_lt (x : Phase) : x.code < 8 := by cases x <;> decide

theorem err_code_lt (e : Err) : e.code < 8 := by cases e <;> decide

/-- `STATUS` has the phase in bits 2:0, the error in bits 6:4 and zeros elsewhere (R32): both fit their 3-bit fields. -/
theorem status_layout {α τ : Type} (x : Engine α τ) :
    x.status % 8 = x.phase.code ∧ x.status / 8 % 2 = 0 ∧ x.status / 16 % 8 = x.err.code ∧ x.status / 128 = 0 := by
  have hp := phase_code_lt x.phase
  have he := err_code_lt x.err
  unfold Engine.status
  omega

/-- The three registers of an engine are views of its state, and there is no other (R31). -/
theorem csr_views {α τ : Type} (x : Engine α τ) :
    (∃ v, x.csr 0 = some v ∧ v % 8 = x.phase.code ∧ v / 8 % 2 = 0 ∧ v / 16 % 8 = x.err.code ∧ v / 128 = 0) ∧
    x.csr 1 = some x.out.length ∧ x.csr 2 = some x.nextCode ∧ ∀ n, 3 ≤ n → x.csr n = none :=
  ⟨⟨x.status, rfl, status_layout x⟩, rfl, rfl, fun _ => csr_eq_none.2⟩

/-- Settles O8: `csr_views` for each engine; the numbers of phases and errors are as R25 and R26 list them. -/
theorem statusRegistersAreViews : Obligations.StatusRegistersAreViews :=
  ⟨csr_views, csr_views, ⟨rfl, rfl, rfl, rfl, rfl⟩, ⟨rfl, rfl, rfl, rfl, rfl, rfl⟩, fun _ => ⟨rfl, rfl⟩⟩

theorem resetWith_inv {p : Params} (hv : p.valid = true) : Inv (State.resetWith p) :=
  ⟨hv, encReset_inv hv, decReset_inv hv⟩

/-- The preloads are in canonical form (R30, R51, R52). -/
theorem resetWith_memory_wf (p : Params) : Memory.wf (State.resetWith p) = true :=
  memory_wf_iff.2 ⟨p2cInit_canonical encReset, c2pInit_size decReset⟩

/-- Settles O14: `resetWith_inv` and `resetWith_memory_wf`; the normative parameters meet R5's constraints. -/
theorem resetMeetsTheInvariant : Obligations.ResetMeetsTheInvariant :=
  ⟨fun p hv => ⟨resetWith_inv hv, resetWith_memory_wf p⟩, resetWith_inv (by decide)⟩

end Sys2Proof.Machine

/-! ## Interleavings of the two engines -/

namespace Sys2Proof.Machine

/-- The move a turn names, as `advance` makes it once the turn is taken off (R61; log 1). -/
def Turn.move (x : Turn) (s : State) : Host.Outcome State Fault Refusal :=
  match x with
  | .enc => encTurn s
  | .dec => decTurn s
  | .rst level => .next (s.driveRst level)

theorem step_cons_turns (x : Turn) (ts : List Turn) (s : State) :
    step { s with turns := x :: ts } = x.move { s with turns := ts } := by
  cases x <;> rfl

theorem encTurn_next_iff {s t : State} : encTurn s = .next t ↔
    ∃ y c v, encMoves s.rst s.params s.encCmd s.enc = .ok (y, c, v) ∧
      t = { s with enc := y, encCmd := c, encRsp := s.encRsp ++ v } := by
  rw [encTurn_eq]
  rcases encMoves s.rst s.params s.encCmd s.enc with f | ⟨y, c, v⟩ <;> simp [eq_comm]

theorem decTurn_next_iff {s t : State} : decTurn s = .next t ↔
    ∃ y c v, decMoves s.rst s.params s.decCmd s.dec = .ok (y, c, v) ∧
      t = { s with dec := y, decCmd := c, decRsp := s.decRsp ++ v } := by
  rw [decTurn_eq]
  rcases decMoves s.rst s.params s.decCmd s.dec with f | ⟨y, c, v⟩ <;> simp [eq_comm]

/-- A move neither reads nor writes the turns still to come. -/
theorem Turn.move_withTurns_iff (x : Turn) {s v : State} {ts : List Turn} :
    x.move { s with turns := ts } = .next v ↔ ∃ u, x.move s = .next u ∧ v = { u with turns := ts } := by
  cases x with
  | enc =>
    simp only [Turn.move, encTurn_next_iff]
    constructor
    · rintro ⟨y, c, v, h, rfl⟩
      exact ⟨_, ⟨y, c, v, h, rfl⟩, rfl⟩
    · rintro ⟨_, ⟨y, c, v, h, rfl⟩, rfl⟩
      exact ⟨y, c, v, h, rfl⟩
  | dec =>
    simp only [Turn.move, decTurn_next_iff]
    constructor
    · rintro ⟨y, c, v, h, rfl⟩
      exact ⟨_, ⟨y, c, v, h, rfl⟩, rfl⟩
    · rintro ⟨_, ⟨y, c, v, h, rfl⟩, rfl⟩
      exact ⟨y, c, v, h, rfl⟩
  | rst level => cases level <;> simp [Turn.move, State.driveRst, eq_comm]

/-- Moves of different engines commute (R20, R61): what one reads and writes is disjoint from what the other does. -/
theorem encTurn_decTurn_comm {s v : State} :
    (∃ u, encTurn s = .next u ∧ decTurn u = .next v) ↔ ∃ u, decTurn s = .next u ∧ encTurn u = .next v := by
  simp only [encTurn_next_iff, decTurn_next_iff]
  constructor
  · rintro ⟨_, ⟨y, c, v, henc, rfl⟩, y', c', v', hdec, rfl⟩
    exact ⟨_, ⟨y', c', v', hdec, rfl⟩, y, c, v, henc, rfl⟩
  · rintro ⟨_, ⟨y', c', v', hdec, rfl⟩, y, c, v, henc, rfl⟩
    exact ⟨_, ⟨y, c, v, henc, rfl⟩, y', c', v', hdec, rfl⟩

/-- Two engine moves can be made in either order. -/
theorem Turn.move_comm {x y : Turn} (hx : x = .enc ∨ x = .dec) (hy : y = .enc ∨ y = .dec) {s v : State} :
    (∃ u, x.move s = .next u ∧ y.move u = .next v) → ∃ u, y.move s = .next u ∧ x.move u = .next v := by
  rcases hx with rfl | rfl <;> rcases hy with rfl | rfl
  · exact id
  · exact encTurn_decTurn_comm.1
  · exact encTurn_decTurn_comm.2
  · exact id

/-- A run that answers a next state made a step that did and went on from there, for any machine. -/
theorem run_succ_next_iff (M : Host.Core) {s t : M.State} {n : Nat} : Host.Core.run M (n + 1) s = .next t ↔
    ∃ u, M.step s = .next u ∧ Host.Core.run M n u = .next t := by
  rw [Host.Core.run]
  cases M.step s <;> simp

/-- A run through a list of turns makes the first turn's move, then runs through the rest. -/
theorem run_cons_turns_iff (x : Turn) (l : List Turn) {s t : State} :
    Host.Core.run Sys2Proof.core (x :: l).length { s with turns := x :: l } = .next t ↔
      ∃ u, x.move s = .next u ∧ Host.Core.run Sys2Proof.core l.length { u with turns := l } = .next t := by
  have hstep : ∀ v, step { s with turns := x :: l } = .next v ↔
      ∃ u, x.move s = .next u ∧ v = { u with turns := l } := fun v => by
    rw [step_cons_turns, Turn.move_withTurns_iff]
  refine (run_succ_next_iff Sys2Proof.core).trans ⟨?_, ?_⟩
  · rintro ⟨v, hv, h⟩
    obtain ⟨u, hu, rfl⟩ := (hstep v).1 hv
    exact ⟨u, hu, h⟩
  · rintro ⟨u, hu, h⟩
    exact ⟨_, (hstep _).2 ⟨u, hu, rfl⟩, h⟩

/-- Settles O51: by induction on the permutation; at a swap the two moves commute (`Turn.move_comm`). -/
theorem interleavingsAgree : Obligations.InterleavingsAgree := by
  intro s t a b hab hengines h
  induction hab generalizing s with
  | nil => exact h
  | cons x _ ih =>
    obtain ⟨u, hu, hrest⟩ := (run_cons_turns_iff x _).1 h
    exact (run_cons_turns_iff x _).2 ⟨u, hu, ih u (fun y hy => hengines y (List.mem_cons_of_mem x hy)) hrest⟩
  | swap x y l =>
    obtain ⟨u, hu, hul⟩ := (run_cons_turns_iff y _).1 h
    obtain ⟨v, hv, hrest⟩ := (run_cons_turns_iff x _).1 hul
    obtain ⟨w, hw, hwv⟩ := Turn.move_comm (hengines y (by simp)) (hengines x (by simp)) ⟨u, hu, hv⟩
    exact (run_cons_turns_iff x _).2 ⟨w, hw, (run_cons_turns_iff y _).2 ⟨v, hwv, hrest⟩⟩
  | trans hab _ ihab ihbc =>
    exact ihbc s (fun x hx => hengines x (hab.mem_iff.2 hx)) (ihab s hengines h)

/-! ## The memories stay in canonical form -/

/-- A move of ENC keeps P2C in canonical form (R51): only INIT and INSERT write it. -/
theorem EncMove.canonical {i : Instr} {p : Params} {x y : Enc} {w : Nat} (hm : EncMove i p x y w)
    (hx : p2cCanonical x.nextCode x.table = true) : p2cCanonical y.nextCode y.table = true := by
  cases hm with
  | raise e => rwa [raise_nextCode, raise_table]
  | start => exact p2cInit_canonical x
  | miss a hi hr s c hfresh =>
    have := p2cInsert_canonical (x.prefixReg ++ [s]) hx
    simpa only [p2cInsert, p2cWrite_of_fresh hfresh] using this
  | hit => exact hx
  | finish => exact hx
  | read => exact hx

/-- A move of DEC keeps the entries of C2P at exactly the addresses below the counter (R30, R52). -/
theorem DecMove.size {i : Instr} {p : Params} {x y : Dec} {w : Nat} (hm : DecMove i p x y w)
    (hx : x.table.length = x.nextCode) : y.table.length = y.nextCode := by
  cases hm with
  | raise e => rwa [raise_nextCode, raise_table]
  | start => exact c2pInit_size x
  | later c hi hr q r => exact c2pInsert_size r hx
  | first => exact hx
  | finish => exact hx
  | read => exact hx

theorem encAnswer_canonical {p : Params} {w : Nat} {x y : Enc} {r : Nat} (h : encAnswer p w x = .ok (y, r))
    (hx : p2cCanonical x.nextCode x.table = true) : p2cCanonical y.nextCode y.table = true := by
  rcases encAnswer_cases h with ⟨-, hr⟩ | ⟨i, -, -, hm⟩
  · obtain rfl : y = (x.raise p .illegalCommand).1 := congrArg Prod.fst hr
    rwa [raise_nextCode, raise_table]
  · exact hm.canonical hx

theorem decAnswer_size {p : Params} {w : Nat} {x y : Dec} {r : Nat} (h : decAnswer p w x = .ok (y, r))
    (hx : x.table.length = x.nextCode) : y.table.length = y.nextCode := by
  rcases decAnswer_cases h with ⟨-, hr⟩ | ⟨i, -, -, hm⟩
  · obtain rfl : y = (x.raise p .illegalCommand).1 := congrArg Prod.fst hr
    rwa [raise_nextCode, raise_table]
  · exact hm.size hx

theorem step_keeps_memory_wf {s t : State} (hwf : Memory.wf s = true) (h : step s = .next t) : Memory.wf t = true := by
  obtain ⟨henc, hdec⟩ := memory_wf_iff.1 hwf
  obtain ⟨ts, rfl | ⟨b, -, rfl⟩ | ⟨w, ws, y, r, -, -, ha, rfl⟩ | ⟨w, ws, y, r, -, -, ha, rfl⟩⟩ := step_next h
  · exact hwf
  · cases b with
    | true => exact resetWith_memory_wf s.params
    | false => exact hwf
  · exact memory_wf_iff.2 ⟨encAnswer_canonical ha henc, hdec⟩
  · exact memory_wf_iff.2 ⟨henc, decAnswer_size ha hdec⟩

/-- A table operation executed as an instruction of its own keeps the memories in canonical form (R100 to R105). -/
theorem exec_table_keeps_memory_wf {i : Instr} (hi : i.isHostCommand = false) {s t : State} (hwf : Memory.wf s = true)
    (h : exec i s = .next t) : Memory.wf t = true := by
  obtain ⟨henc, hdec⟩ := memory_wf_iff.1 hwf
  cases i with
  | p2cInit => cases h; exact memory_wf_iff.2 ⟨p2cInit_canonical s.enc, hdec⟩
  | p2cLookup q => cases h; exact hwf
  | p2cInsert q => cases h; exact memory_wf_iff.2 ⟨p2cInsert_canonical q henc, hdec⟩
  | c2pInit => cases h; exact memory_wf_iff.2 ⟨henc, c2pInit_size s.dec⟩
  | c2pLookup c => cases h; exact hwf
  | c2pInsert q => cases h; exact memory_wf_iff.2 ⟨henc, c2pInsert_size q hdec⟩
  | _ => cases hi

theorem exec_keeps_memory_wf {i : Instr} {s t : State} (hwf : Memory.wf s = true) (h : exec i s = .next t) :
    Memory.wf t = true := by
  obtain ⟨henc, hdec⟩ := memory_wf_iff.1 hwf
  cases hi : i.isHostCommand with
  | false => exact exec_table_keeps_memory_wf hi hwf h
  | true =>
    rcases isHostCommand_cases hi with hE | hD
    · obtain ⟨y, w, hm, rfl⟩ := exec_enc_next hE h
      exact memory_wf_iff.2 ⟨hm.canonical henc, hdec⟩
    · obtain ⟨y, w, hm, rfl⟩ := exec_dec_next hD h
      exact memory_wf_iff.2 ⟨henc, hm.size hdec⟩

/-- Settles O17: a step by `step_next`, a command by `EncMove.canonical` and `DecMove.size`, a table operation by
`exec_table_keeps_memory_wf`. -/
theorem everyStepKeepsMemoryCanonical : Obligations.EveryStepKeepsMemoryCanonical :=
  ⟨fun _ _ => step_keeps_memory_wf, fun _ _ _ => exec_keeps_memory_wf⟩

/-! ## Reading a table after an INSERT -/

/-- Settles O32: the read-after-write laws of the two tables; C2P's INSERT writes at the end, where the counter stands. -/
theorem tableReadsAfterInsert : Obligations.TableReadsAfterInsert := by
  constructor
  · intro s q
    exact ⟨_, rfl, p2cRead_write_same q s.enc.nextCode s.enc.table,
      fun r hr => p2cRead_write_other hr s.enc.nextCode s.enc.table⟩
  · intro s q hsize
    refine ⟨_, rfl, ?_, fun c hc => c2pRead_write_other hc q hsize.ge⟩
    have := c2pRead_write_at_end q s.dec.table
    rwa [hsize] at this

end Sys2Proof.Machine

/-! ## Decoding and encoding -/

namespace Sys2Proof.Machine

/-- Settles O9: one case per row of the opcode table, each by that row's lemma of `Laws.EncodeDecode`. -/
theorem decodeInvertsEncode : Obligations.DecodeInvertsEncode := by
  intro p i hwf
  cases i with
  | encStart => exact Laws.EncodeDecode.encStart p hwf
  | encSym a => exact Laws.EncodeDecode.encSym a p hwf
  | encEnd => exact Laws.EncodeDecode.encEnd p hwf
  | encRd a => exact Laws.EncodeDecode.encRd a p hwf
  | encStat n => exact Laws.EncodeDecode.encStat n p hwf
  | decStart => exact Laws.EncodeDecode.decStart p hwf
  | decCode c => exact Laws.EncodeDecode.decCode c p hwf
  | decEnd => exact Laws.EncodeDecode.decEnd p hwf
  | decRd a => exact Laws.EncodeDecode.decRd a p hwf
  | decStat n => exact Laws.EncodeDecode.decStat n p hwf
  | p2cInit => exact Laws.EncodeDecode.p2cInit p hwf
  | p2cLookup q => exact Laws.EncodeDecode.p2cLookup q p hwf
  | p2cInsert q => exact Laws.EncodeDecode.p2cInsert q p hwf
  | c2pInit => exact Laws.EncodeDecode.c2pInit p hwf
  | c2pLookup c => exact Laws.EncodeDecode.c2pLookup c p hwf
  | c2pInsert q => exact Laws.EncodeDecode.c2pInsert q p hwf

/-- What the operand field holds fits it (R71, R73). -/
theorem operandFits_operandField (p : Params) (w : Nat) : p.operandFits (operandField p w) = true := by
  unfold Params.operandFits operandField
  cases p.opw with
  | infinite => rfl
  | finite n => simpa using Nat.mod_lt _ (Nat.two_pow_pos n)

/-- The operand field of a word the port can carry is all of the word above its opcode (R71). -/
theorem operandField_of_fits {p : Params} {w : Nat} (h : p.operandFits (w / 16) = true) : operandField p w = w / 16 := by
  unfold Params.operandFits at h
  unfold operandField
  cases hp : p.opw with
  | infinite => rfl
  | finite n =>
    simp only [hp, decide_eq_true_eq] at h
    exact Nat.mod_eq_of_lt h

/-- A word the port can carry is made up of its operand field and its opcode (R71). -/
theorem commandWord_fields {p : Params} {w : Nat} (h : p.operandFits (w / 16) = true) :
    commandWord (operandField p w) (w % 16) = w := by
  rw [operandField_of_fits h, commandWord]
  exact Nat.div_add_mod' w 16

/-- What a word on `enc_cmd` decodes to is well-formed, and encodes to the fields that decoding read (R71, R74). -/
theorem decodeEnc_ok {p : Params} {w : Nat} {i : Instr} (h : decodeEnc p w = .ok i) :
    i.wf p = true ∧ encode i = .command .encCmd (commandWord (operandField p w) (w % 16)) := by
  have hfits := operandFits_operandField p w
  unfold decodeEnc at h
  split at h
  case h_1 hop | h_3 hop =>
    obtain ⟨hz, rfl⟩ := withoutOperand_ok h
    exact ⟨rfl, by rw [hz, hop]; rfl⟩
  case h_2 hop | h_4 hop | h_5 hop =>
    cases h
    exact ⟨hfits, by rw [hop]; rfl⟩
  case h_6 => cases h

/-- What a word on `dec_cmd` decodes to, likewise (R71, R75). -/
theorem decodeDec_ok {p : Params} {w : Nat} {i : Instr} (h : decodeDec p w = .ok i) :
    i.wf p = true ∧ encode i = .command .decCmd (commandWord (operandField p w) (w % 16)) := by
  have hfits := operandFits_operandField p w
  unfold decodeDec at h
  split at h
  case h_1 hop | h_3 hop =>
    obtain ⟨hz, rfl⟩ := withoutOperand_ok h
    exact ⟨rfl, by rw [hz, hop]; rfl⟩
  case h_2 hop | h_4 hop | h_5 hop =>
    cases h
    exact ⟨hfits, by rw [hop]; rfl⟩
  case h_6 => cases h

theorem isHostCommand_of_isEncCommand {i : Instr} (h : i.isEncCommand = true) : i.isHostCommand = true := by
  cases i with
  | encStart | encSym | encEnd | encRd | encStat => rfl
  | _ => cases h

theorem isHostCommand_of_isDecCommand {i : Instr} (h : i.isDecCommand = true) : i.isHostCommand = true :=
  (Bool.and_eq_true_iff.1 h).1

/-- Settles O10: the instruction encodes to the fields that decoding read (`decodeEnc_ok`, `decodeDec_ok`), and these make up
the whole of a word the port can carry (`commandWord_fields`). -/
theorem encodeInvertsDecode : Obligations.EncodeInvertsDecode := by
  intro port p w i h
  cases port with
  | encCmd =>
    obtain ⟨hwf, henc⟩ := decodeEnc_ok h
    exact ⟨hwf, isHostCommand_of_isEncCommand (decodeEnc_isEnc h), fun hfits => by rw [henc, commandWord_fields hfits]⟩
  | decCmd =>
    obtain ⟨hwf, henc⟩ := decodeDec_ok h
    exact ⟨hwf, isHostCommand_of_isDecCommand (decodeDec_isDec h), fun hfits => by rw [henc, commandWord_fields hfits]⟩

/-- Settles O12: each word is a closed case of the decoder. -/
theorem specWordsDecode : Obligations.SpecWordsDecode :=
  ⟨rfl, rfl, rfl, rfl, rfl, rfl, rfl, rfl, rfl, rfl, rfl⟩

/-! ## The response word -/

theorem dataField_of_fits {p : Params} {d : Nat} (h : p.operandFits d = true) : dataField p d = d := by
  unfold Params.operandFits at h
  unfold dataField
  cases hp : p.opw with
  | infinite => rfl
  | finite n =>
    simp only [hp, decide_eq_true_eq] at h
    exact if_pos h

/-- The data field has `OPW` bits, whatever the data (R72). -/
theorem dataField_lt {p : Params} {n : Nat} (hp : p.opw = .finite n) (d : Nat) : dataField p d < 2 ^ n := by
  unfold dataField
  rw [hp]
  by_cases hd : d < 2 ^ n
  · simpa only [if_pos hd] using hd
  · simpa only [if_neg hd] using Nat.mod_lt _ (Nat.two_pow_pos n)

/-- Settles O7: the response is its data field above a 4-bit field that holds the error code, and an error code is below 8
(`err_code_lt`). -/
theorem responseWordLayout : Obligations.ResponseWordLayout := by
  intro p e d
  have he := err_code_lt e
  have hr : respond p e d = dataField p d * 16 + e.code := rfl
  refine ⟨fun hfits => ?_, ?_, ?_, fun n hp => ?_, respond_zero p e⟩
  · rw [hr, dataField_of_fits hfits]
  · omega
  · omega
  · have hd := dataField_lt hp d
    rw [Nat.pow_add]
    omega

/-! ## Handling the next word -/

theorem encHandle_ok {s : State} {w : Nat} {i : Instr} (h : decodeCommand .encCmd s.params w = .ok i) :
    encHandle w s = exec i s := by
  rw [encHandle, h]

theorem decHandle_ok {s : State} {w : Nat} {i : Instr} (h : decodeCommand .decCmd s.params w = .ok i) :
    decHandle w s = exec i s := by
  rw [decHandle, h]

/-- A word that does not decode raises IllegalCommand (R76, R77). -/
theorem encHandle_error {s : State} {w : Nat} {r : DecodeReject} (h : decodeCommand .encCmd s.params w = .error r) :
    encHandle w s = .next (raisedEnc s .illegalCommand) := by
  rw [encHandle, h]
  exact finishEnc_raised s .illegalCommand

/-- A word that does not decode raises IllegalCommand, likewise in DEC. -/
theorem decHandle_error {s : State} {w : Nat} {r : DecodeReject} (h : decodeCommand .decCmd s.params w = .error r) :
    decHandle w s = .next (raisedDec s .illegalCommand) := by
  rw [decHandle, h]
  exact finishDec_raised s .illegalCommand

/-- With `rst` released ENC's move handles the word at the head of its port. -/
theorem encTurn_word {s : State} {w : Nat} {ws : List Nat} (hr : s.rst = false) (hc : s.encCmd = w :: ws) :
    encTurn s = encHandle w { s with encCmd := ws } := by
  simp [encTurn, hr, hc]

/-- With `rst` released DEC's move handles the word at the head of its port. -/
theorem decTurn_word {s : State} {w : Nat} {ws : List Nat} (hr : s.rst = false) (hc : s.decCmd = w :: ws) :
    decTurn s = decHandle w { s with decCmd := ws } := by
  simp [decTurn, hr, hc]

theorem step_encTurn {s : State} {ts : List Turn} (ht : s.turns = .enc :: ts) : step s = encTurn { s with turns := ts } := by
  rw [step, advance, ht]

theorem step_decTurn {s : State} {ts : List Turn} (ht : s.turns = .dec :: ts) : step s = decTurn { s with turns := ts } := by
  rw [step, advance, ht]

/-- With no turn named and a word on `enc_cmd` ENC moves (log 1). -/
theorem step_noTurns_enc {s : State} (ht : s.turns = []) (he : s.encCmd ≠ []) : step s = encTurn s := by
  simp [step, advance, ht, he]

/-- With no turn named and nothing on `enc_cmd` DEC moves (log 1). -/
theorem step_noTurns_dec {s : State} (ht : s.turns = []) (he : s.encCmd = []) : step s = decTurn s := by
  simp [step, advance, ht, he]

/-- A step that ENC is named for, or that nobody is named for, handles the word at the head of `enc_cmd`. -/
theorem step_handles_encWord {s : State} {w : Nat} {ws : List Nat} (ts : List Turn) (hr : s.rst = false)
    (hc : s.encCmd = w :: ws) :
    (s.turns = .enc :: ts → step s = encHandle w { s with turns := ts, encCmd := ws }) ∧
    (s.turns = [] → step s = encHandle w { s with encCmd := ws }) := by
  constructor
  · intro ht
    rw [step_encTurn ht, encTurn_word (s := { s with turns := ts }) hr hc]
  · intro ht
    rw [step_noTurns_enc ht (by simp [hc]), encTurn_word hr hc]

/-- A step that DEC is named for, or that nobody is named for while `enc_cmd` is empty, handles the word at the head of
`dec_cmd`. -/
theorem step_handles_decWord {s : State} {w : Nat} {ws : List Nat} (ts : List Turn) (hr : s.rst = false)
    (hc : s.decCmd = w :: ws) :
    (s.turns = .dec :: ts → step s = decHandle w { s with turns := ts, decCmd := ws }) ∧
    (s.turns = [] → s.encCmd = [] → step s = decHandle w { s with decCmd := ws }) := by
  constructor
  · intro ht
    rw [step_decTurn ht, decTurn_word (s := { s with turns := ts }) hr hc]
  · intro ht he
    rw [step_noTurns_dec ht he, decTurn_word hr hc]

/-- Settles O3: the step handles the word (`step_handles_encWord`, `step_handles_decWord`), and handling it is executing what
it decodes to, or the raise. -/
theorem stepHandlesTheNextWord : Obligations.StepHandlesTheNextWord := by
  intro s w ws ts hr
  constructor
  · intro hc
    obtain ⟨hnamed, hfree⟩ := step_handles_encWord ts hr hc
    exact ⟨fun i hi => ⟨fun ht => (hnamed ht).trans (encHandle_ok hi), fun ht => (hfree ht).trans (encHandle_ok hi)⟩,
      fun r he => ⟨fun ht => (hnamed ht).trans (encHandle_error he), fun ht => (hfree ht).trans (encHandle_error he)⟩⟩
  · intro hc
    obtain ⟨hnamed, hfree⟩ := step_handles_decWord ts hr hc
    exact ⟨fun i hi => ⟨fun ht => (hnamed ht).trans (decHandle_ok hi), fun ht h0 => (hfree ht h0).trans (decHandle_ok hi)⟩,
      fun r he => ⟨fun ht => (hnamed ht).trans (decHandle_error he),
        fun ht h0 => (hfree ht h0).trans (decHandle_error he)⟩⟩

/-! ## Words that are rejected -/

theorem withoutOperand_of_ne_zero {a : Nat} (h : a ≠ 0) (i : Instr) : withoutOperand a i = .error .operandNotZero :=
  if_neg h

theorem decodeEnc_reserved (p : Params) {w : Nat} (h : w % 16 ∉ [1, 2, 3, 4, 5]) :
    decodeEnc p w = .error .reservedOpcode := by
  unfold decodeEnc
  split
  case h_1 hop | h_2 hop | h_3 hop | h_4 hop | h_5 hop => simp [hop] at h
  case h_6 => rfl

theorem decodeDec_reserved (p : Params) {w : Nat} (h : w % 16 ∉ [9, 10, 11, 12, 13]) :
    decodeDec p w = .error .reservedOpcode := by
  unfold decodeDec
  split
  case h_1 hop | h_2 hop | h_3 hop | h_4 hop | h_5 hop => simp [hop] at h
  case h_6 => rfl

/-- An ENC_START or ENC_END word with an operand other than 0 is rejected (R77). -/
theorem decodeEnc_operandNotZero {p : Params} {w : Nat} (hop : w % 16 ∈ [1, 3]) (h : operandField p w ≠ 0) :
    decodeEnc p w = .error .operandNotZero := by
  have hop' : w % 16 = 1 ∨ w % 16 = 3 := by simpa using hop
  unfold decodeEnc
  rcases hop' with hop | hop
  · rw [hop]; exact withoutOperand_of_ne_zero h .encStart
  · rw [hop]; exact withoutOperand_of_ne_zero h .encEnd

/-- A DEC_START or DEC_END word with an operand other than 0 is rejected (R77). -/
theorem decodeDec_operandNotZero {p : Params} {w : Nat} (hop : w % 16 ∈ [9, 11]) (h : operandField p w ≠ 0) :
    decodeDec p w = .error .operandNotZero := by
  have hop' : w % 16 = 9 ∨ w % 16 = 11 := by simpa using hop
  unfold decodeDec
  rcases hop' with hop | hop
  · rw [hop]; exact withoutOperand_of_ne_zero h .decStart
  · rw [hop]; exact withoutOperand_of_ne_zero h .decEnd

/-- Settles O11: each of these words is rejected when decoded, and a word that is rejected raises (`encHandle_error`,
`decHandle_error`). -/
theorem reservedWordsRaiseIllegalCommand : Obligations.ReservedWordsRaiseIllegalCommand := by
  intro s w
  refine ⟨fun hop => ?_, fun hop => ?_, fun hop h => ?_, fun hop h => ?_⟩
  · have hd : decodeCommand .encCmd s.params w = .error .reservedOpcode := decodeEnc_reserved s.params hop
    exact ⟨hd, encHandle_error hd⟩
  · have hd : decodeCommand .decCmd s.params w = .error .reservedOpcode := decodeDec_reserved s.params hop
    exact ⟨hd, decHandle_error hd⟩
  · have hd : decodeCommand .encCmd s.params w = .error .operandNotZero := decodeEnc_operandNotZero hop h
    exact ⟨hd, encHandle_error hd⟩
  · have hd : decodeCommand .decCmd s.params w = .error .operandNotZero := decodeDec_operandNotZero hop h
    exact ⟨hd, decHandle_error hd⟩

/-! ## One response for each command -/

/-- Settles O5: of what a step can do (`step_next`) only a move that answers a word takes one off a port, and it adds one
response. -/
theorem oneResponsePerCommand : Obligations.OneResponsePerCommand := by
  intro s t h
  have enc_idle : ∃ ws rs, s.encCmd = ws ++ s.encCmd ∧ s.encRsp = s.encRsp ++ rs ∧ rs.length = ws.length :=
    ⟨[], [], by simp⟩
  have dec_idle : ∃ ws rs, s.decCmd = ws ++ s.decCmd ∧ s.decRsp = s.decRsp ++ rs ∧ rs.length = ws.length :=
    ⟨[], [], by simp⟩
  obtain ⟨ts, rfl | ⟨b, -, rfl⟩ | ⟨w, ws, y, r, -, hw, -, rfl⟩ | ⟨w, ws, y, r, -, hw, -, rfl⟩⟩ := step_next h
  · exact ⟨enc_idle, dec_idle, rfl⟩
  · cases b <;> exact ⟨enc_idle, dec_idle, rfl⟩
  · exact ⟨⟨[w], [r], hw, rfl, rfl⟩, dec_idle, rfl⟩
  · exact ⟨enc_idle, ⟨[w], [r], hw, rfl, rfl⟩, rfl⟩

/-- Words waiting and responses returned are together as many after a step as before it, on each port. -/
theorem step_words_and_responses {s t : State} (h : step s = .next t) :
    t.encRsp.length + t.encCmd.length = s.encRsp.length + s.encCmd.length ∧
    t.decRsp.length + t.decCmd.length = s.decRsp.length + s.decCmd.length := by
  obtain ⟨⟨we, re, hce, hre, hle⟩, ⟨wd, rd, hcd, hrd, hld⟩, -⟩ := oneResponsePerCommand s t h
  rw [hce, hre, hcd, hrd]
  simp only [List.length_append]
  omega

/-- While a word waits and no turn is named, a step takes one word off a port; it names no turn and leaves `rst` released. -/
theorem step_consumes_waiting_word {s t : State} (hr : s.rst = false) (ht : s.turns = [])
    (hw : 0 < s.encCmd.length + s.decCmd.length) (h : step s = .next t) :
    t.rst = false ∧ t.turns = [] ∧ s.encCmd.length + s.decCmd.length = t.encCmd.length + t.decCmd.length + 1 := by
  cases hc : s.encCmd with
  | cons w ws =>
    rw [step_encWord hr ht hc] at h
    obtain ⟨y, r, -, rfl⟩ := finishEnc_next h
    exact ⟨hr, ht, by simp only [List.length_cons, replyEnc_encCmd, replyEnc_decCmd]; omega⟩
  | nil =>
    cases hd : s.decCmd with
    | nil => simp [hc, hd] at hw
    | cons w ws =>
      rw [step_decWord hr ht hc hd] at h
      obtain ⟨y, r, -, rfl⟩ := finishDec_next h
      exact ⟨hr, ht, by simp [hc]⟩

/-- Settles O6: by induction on the number of words that wait; a step answers one of them (`step_consumes_waiting_word`), with
one response (`step_words_and_responses`), and keeps the invariant (`Inv.step_next`). -/
theorem everyPresentedCommandIsAnswered : Obligations.EveryPresentedCommandIsAnswered := by
  intro s hinv hr ht
  induction hn : s.encCmd.length + s.decCmd.length generalizing s with
  | zero =>
    have he : s.encCmd = [] := List.eq_nil_of_length_eq_zero (by omega)
    have hd : s.decCmd = [] := List.eq_nil_of_length_eq_zero (by omega)
    exact ⟨s, rfl, he, hd, by simp [he], by simp [hd], hinv⟩
  | succ n ih =>
    obtain ⟨u, hu, hinvu⟩ := hinv.step_next
    obtain ⟨hru, htu, hlen⟩ := step_consumes_waiting_word hr ht (by omega) hu
    obtain ⟨henc, hdec⟩ := step_words_and_responses hu
    obtain ⟨t, hrun, hte, htd, hle, hld, hinvt⟩ := ih u hinvu hru htu (by omega)
    exact ⟨t, (run_succ hu n).trans hrun, hte, htd, by omega, by omega, hinvt⟩

end Sys2Proof.Machine

/-! ## Assembling a decimal operand -/

namespace Sys2Proof.Machine.Asm

/-- Every mnemonic is written with mnemonic characters, and there is at least one (R81). -/
theorem opcodeOf_chars {m : List Char} {r : CmdPort × Nat} (h : opcodeOf m = some r) :
    m ≠ [] ∧ ∀ ch ∈ m, isMnemonicChar ch = true := by
  unfold opcodeOf at h
  split at h
  case h_11 => cases h
  all_goals exact ⟨List.cons_ne_nil _ _, List.all_eq_true.1 rfl⟩

/-- A character of a kind that has no white space and no semicolon neither is white space nor starts a comment. -/
theorem visible_of_kind {kind : Char → Bool} (hspace : kind ' ' = false) (htab : kind '\t' = false)
    (hsemi : kind ';' = false) {ch : Char} (h : kind ch = true) : isBlank ch = false ∧ ch ≠ ';' := by
  have hne : ∀ c, kind c = false → ch ≠ c := fun c hc heq => by simp [← heq, h] at hc
  exact ⟨by simp [isBlank, hne ' ' hspace, hne '\t' htab], hne ';' hsemi⟩

theorem isMnemonicChar_visible {ch : Char} (h : isMnemonicChar ch = true) : isBlank ch = false ∧ ch ≠ ';' :=
  visible_of_kind rfl rfl rfl h

theorem isDigit_visible {ch : Char} (h : ch.isDigit = true) : isBlank ch = false ∧ ch ≠ ';' :=
  visible_of_kind rfl rfl rfl h

theorem skipBlanks_cons {ch : Char} (h : isBlank ch = false) (cs : List Char) : skipBlanks (ch :: cs) = ch :: cs := by
  simp [skipBlanks, h]

theorem skipBlanks_space (cs : List Char) : skipBlanks (' ' :: cs) = skipBlanks cs := rfl

theorem atEnd_cons {ch : Char} (h : isBlank ch = false ∧ ch ≠ ';') (cs : List Char) : atEnd (ch :: cs) = false := by
  simp [atEnd, skipBlanks_cons h.1, h.2]

theorem atEnd_space (cs : List Char) : atEnd (' ' :: cs) = atEnd cs := rfl

/-- A character whose value as a hexadecimal digit is below 10 is a decimal digit. -/
theorem isDigit_of_hexDigit {ch : Char} {v : Nat} (h : hexDigit ch = some v) (hv : v < 10) : ch.isDigit = true := by
  unfold hexDigit at h
  split_ifs at h with hdec
  · simpa [Char.isDigit, Char.le_def] using hdec
  · have := Option.some.inj h
    omega
  · have := Option.some.inj h
    omega

/-- What stands for a decimal number is all decimal digits. -/
theorem isDigit_of_digits {cs : List Char} {acc v : Nat} (h : digits 10 acc cs = some v) :
    ∀ ch ∈ cs, ch.isDigit = true := by
  induction cs generalizing acc with
  | nil => simp
  | cons ch cs ih =>
    unfold digits digit at h
    cases hch : hexDigit ch with
    | none => simp [hch] at h
    | some u =>
      by_cases hu : u < 10
      · simp only [hch, if_pos hu] at h
        exact List.forall_mem_cons.2 ⟨isDigit_of_hexDigit hch hu, ih h⟩
      · simp [hch, hu] at h

/-- Decimal digits to the end of the line are a number and leave nothing (R81): the second of them is not the `x` of a
hexadecimal one. -/
theorem number_decimal {ds : List Char} {v : Nat} (hne : ds ≠ []) (h : digits 10 0 ds = some v) :
    number ds = some (v, []) := by
  have hdigit := isDigit_of_digits h
  have hnum : ∀ ch ∈ ds, isNumberChar ch = true := fun ch hch => by simp [isNumberChar, Char.isAlphanum, hdigit ch hch]
  unfold number
  rw [List.takeWhile_eq_self_iff.2 hnum, List.dropWhile_eq_nil_iff.2 hnum]
  split
  · contradiction
  · exact absurd (hdigit 'x' (by simp)) (by decide)
  · simp [h]

/-- Decimal digits to the end of the line are an operand and leave nothing: the first of them is no quote. -/
theorem operand_decimal {ds : List Char} {v : Nat} (hne : ds ≠ []) (h : digits 10 0 ds = some v) :
    operand ds = some (v, []) := by
  unfold operand
  split
  · exact absurd (isDigit_of_digits h '\'' (by simp)) (by decide)
  · exact number_decimal hne h

/-- A line that starts with mnemonic characters and a space is the command of that mnemonic. -/
theorem line_mnemonic {m : List Char} (hne : m ≠ []) (hm : ∀ ch ∈ m, isMnemonicChar ch = true) (cs : List Char) :
    line (m ++ ' ' :: cs) = command m (' ' :: cs) := by
  have htake : (m ++ ' ' :: cs).takeWhile isMnemonicChar = m := by
    rw [List.takeWhile_append_of_pos hm]; exact List.append_nil m
  have hdrop : (m ++ ' ' :: cs).dropWhile isMnemonicChar = ' ' :: cs := List.dropWhile_append_of_pos hm
  have hstart : atEnd (m ++ ' ' :: cs) = false ∧ skipBlanks (m ++ ' ' :: cs) = m ++ ' ' :: cs := by
    obtain ⟨ch, m, rfl⟩ := List.exists_cons_of_ne_nil hne
    have hch := isMnemonicChar_visible (hm ch List.mem_cons_self)
    exact ⟨atEnd_cons hch _, skipBlanks_cons hch.1 _⟩
  simp [line, hstart, htake, hdrop]

/-- A mnemonic, a space and decimal digits give the word `operand * 16 + opcode` (R81). -/
theorem command_decimal {m ds : List Char} {port : CmdPort} {op v : Nat} (hm : opcodeOf m = some (port, op)) (hne : ds ≠ [])
    (h : digits 10 0 ds = some v) : command m (' ' :: ds) = some [(port, commandWord v op)] := by
  have hstart : atEnd ds = false ∧ skipBlanks ds = ds := by
    obtain ⟨d, ds, rfl⟩ := List.exists_cons_of_ne_nil hne
    have hd := isDigit_visible (isDigit_of_digits h d List.mem_cons_self)
    exact ⟨atEnd_cons hd ds, skipBlanks_cons hd.1 ds⟩
  have hend : atEnd [] = true := rfl
  simp [command, hm, atEnd_space, skipBlanks_space, hstart, operand_decimal hne h, hend]

/-- Settles O13: the line is the command of its mnemonic (`line_mnemonic`), and its digits are the operand
(`command_decimal`). -/
theorem assemblerEncodesDecimalOperands : Obligations.AssemblerEncodesDecimalOperands := by
  intro m ds port op v hm hne h
  obtain ⟨hm_ne, hchars⟩ := opcodeOf_chars hm
  rw [line_mnemonic hm_ne hchars, command_decimal hm hne h]

end Sys2Proof.Machine.Asm

/-! ## The table operations as instructions -/

namespace Sys2Proof.Machine

/-- A phrase is any sequence but the empty one (R21). -/
theorem isPhrase_iff {q : Phrase} : Phrase.isPhrase q = true ↔ q ≠ [] := by
  cases q <;> simp [Phrase.isPhrase]

/-- INSERT of a phrase that is no key adds its binding to the table (R102). -/
theorem p2cInsert_of_fresh {q : Phrase} {x : Enc} (h : p2cRead q x.table = none) :
    p2cInsert q x = ({ x with table := x.table ++ [(q, x.nextCode)], nextCode := x.nextCode + 1 }, x.nextCode) := by
  simp only [p2cInsert, p2cWrite_of_fresh h]

/-- The result lines after a LOOKUP on the P2C port show what the table reads (R101). -/
theorem exec_p2cLookup (q : Phrase) (s : State) : exec (.p2cLookup q) s =
    .next { s with p2cResult := .lookup (p2cRead q s.enc.table).isSome (p2cRead q s.enc.table) } := by
  show execP2cLookup q s = _
  rw [execP2cLookup, p2cLookup_eq]

theorem c2pLookup_of_le {c : Nat} {x : Dec} (h : x.nextCode ≤ c) : c2pLookup c x = (false, none) :=
  if_neg h.not_gt

theorem c2pLookup_of_lt {c : Nat} {x : Dec} (h : c < x.nextCode) : c2pLookup c x = (true, c2pRead c x.table) :=
  if_pos h

/-- In a table with entries at exactly the addresses below the counter, INSERT adds its phrase at the end (R105). -/
theorem c2pInsert_at_end (q : Phrase) {x : Dec} (h : x.table.length = x.nextCode) :
    c2pInsert q x = ({ x with table := x.table ++ [q], nextCode := x.nextCode + 1 }, x.nextCode) := by
  have hw : c2pWrite x.nextCode q x.table = x.table ++ [q] := by rw [← h, c2pWrite_at_end]
  simp only [c2pInsert, hw]

theorem exec_c2pLookup (c : Nat) (s : State) : exec (.c2pLookup c) s =
    .next { s with c2pResult := .lookup (c2pLookup c s.dec).1 (c2pLookup c s.dec).2 } := rfl

/-- Settles O30: the selects decode as `encode` writes them, LOOKUP shows what the table reads, a fresh phrase is written at
the end (`p2cInsert_of_fresh`), and the invariant keeps the preload's bindings (`EncInv.read_single`). -/
theorem p2cOperationsInitLookupInsert : Obligations.P2cOperationsInitLookupInsert := by
  intro s
  refine ⟨fun p arg q => ⟨rfl, Laws.EncodeDecode.p2cLookup q p rfl,
    fun hq => Laws.EncodeDecode.p2cInsert q p (isPhrase_iff.2 hq)⟩, rfl, ?_, ?_, ?_, fun p h k => h.read_single k⟩
  · intro q hmiss
    rw [exec_p2cLookup, hmiss]; rfl
  · intro q c hhit
    rw [exec_p2cLookup, hhit]; rfl
  · intro q hfresh
    show execP2cInsert q s = _
    rw [execP2cInsert, p2cInsert_of_fresh hfresh]

/-- Settles O31: the selects decode as `encode` writes them, LOOKUP tests the bound first (`c2pLookup_of_le`,
`c2pLookup_of_lt`), INSERT adds at the end, where the counter stands, and the invariant keeps the preload's entries
(`DecInv.preload_get`). -/
theorem c2pOperationsInitLookupInsert : Obligations.C2pOperationsInitLookupInsert := by
  intro s
  refine ⟨fun p arg q c => ⟨rfl, Laws.EncodeDecode.c2pLookup c p,
    fun hq => Laws.EncodeDecode.c2pInsert q p (isPhrase_iff.2 hq)⟩, rfl, ?_, ?_, ?_, fun p h c hc => h.preload_get hc⟩
  · intro c hc
    rw [exec_c2pLookup, c2pLookup_of_le hc]
  · intro c q hc hq
    rw [exec_c2pLookup, c2pLookup_of_lt hc, hq]
  · intro q hsize
    show execC2pInsert q s = _
    rw [execC2pInsert, c2pInsert_at_end q hsize]

end Sys2Proof.Machine

/-! ## The commands of the encoder engine: the phase test -/

namespace Sys2Proof.Machine

section
variable (a : Nat) (x : Phase)

/-- ENC_START is legal where no run is going on (R83 step 4). -/
theorem legalIn_encStart : legalIn .encStart x = true ↔ x = .idle ∨ x = .done ∨ x = .fault := by
  cases x <;> simp [legalIn]

theorem legalIn_encSym : legalIn (.encSym a) x = decide (x = .run) := by cases x <;> rfl

theorem legalIn_encEnd : legalIn .encEnd x = decide (x = .run) := by cases x <;> rfl

theorem legalIn_encRd : legalIn (.encRd a) x = decide (x = .done) := by cases x <;> rfl
end

/-! ## The command words of the encoder engine -/

section
variable {s : State} {w : Nat}

theorem encHandle_encStart (hop : w % 16 = 1) (h0 : operandField s.params w = 0) : encHandle w s = exec .encStart s :=
  encHandle_ok (by rw [decodeCommand, decodeEnc, hop, h0]; rfl)

theorem encHandle_encSym (hop : w % 16 = 2) : encHandle w s = exec (.encSym (operandField s.params w)) s :=
  encHandle_ok (by rw [decodeCommand, decodeEnc, hop]; rfl)

theorem encHandle_encEnd (hop : w % 16 = 3) (h0 : operandField s.params w = 0) : encHandle w s = exec .encEnd s :=
  encHandle_ok (by rw [decodeCommand, decodeEnc, hop, h0]; rfl)

theorem encHandle_encRd (hop : w % 16 = 4) : encHandle w s = exec (.encRd (operandField s.params w)) s :=
  encHandle_ok (by rw [decodeCommand, decodeEnc, hop]; rfl)

theorem encHandle_encStat (hop : w % 16 = 5) : encHandle w s = exec (.encStat (operandField s.params w)) s :=
  encHandle_ok (by rw [decodeCommand, decodeEnc, hop]; rfl)
end

/-! ## One pass of the encoder's loop, and its last emission -/

section
variable {p : Params} {x : Enc} {a : Symbol}

theorem encPass_of_hit {c : Nat} (h : p2cRead (x.prefixReg ++ [a]) x.table = some c) :
    encPass p a x = .ok ({ x with prefixReg := x.prefixReg ++ [a] }, 0) := by
  simp [encPass, appendSymbol, p2cLookup_eq, h, answered, respond_none_zero]

/-- The first symbol of a run only becomes the prefix: a one-symbol phrase is always a key (R101). -/
theorem EncInv.pass_first (h : EncInv p x) (h0 : x.prefixReg = []) (a : Symbol) :
    encPass p a x = .ok ({ x with prefixReg := [a] }, 0) := by
  have hread : p2cRead (x.prefixReg ++ [a]) x.table = some a.val := by rw [h0]; exact h.read_single a
  rw [encPass_of_hit hread, h0]
  rfl

theorem encPass_of_miss (h : p2cRead (x.prefixReg ++ [a]) x.table = none) :
    encPass p a x = encMiss p a (x.prefixReg ++ [a]) x := by
  simp [encPass, appendSymbol, p2cLookup_eq, h]

theorem encSymFull_eq_false : encSymFull p x = false ↔
    reaches x.out.length p.outCap = false ∧ reaches x.nextCode p.dictCap = false :=
  Bool.or_eq_false_iff

theorem encMiss_of_full {q : Phrase} (h : encSymFull p x = true) : encMiss p a q x = raised p .capacityExhausted x :=
  if_pos h

/-- With room for it a miss emits the prefix's codeword, binds the candidate and restarts the prefix (R121 step 3). -/
theorem encMiss_of_bound {q : Phrase} {c : Nat} (hfull : encSymFull p x = false) (hq : p2cRead q x.table = none)
    (hc : p2cRead x.prefixReg x.table = some c) :
    encMiss p a q x = .ok ({ x with
      out := x.out ++ [c]
      table := x.table ++ [(q, x.nextCode)]
      nextCode := x.nextCode + 1
      prefixReg := [a] }, 0) := by
  simp [encMiss, hfull, p2cLookup_eq, hc, p2cInsert, p2cWrite_of_fresh hq, answered, respond_none_zero]

theorem encMiss_of_unbound {q : Phrase} (hfull : encSymFull p x = false) (hc : p2cRead x.prefixReg x.table = none) :
    encMiss p a q x = .error .unboundPhrase := by
  simp [encMiss, hfull, p2cLookup_eq, hc]

theorem encFlush_of_full (h : reaches x.out.length p.outCap = true) : encFlush p x = raised p .capacityExhausted x :=
  if_pos h

/-- With room for it the last emission is the prefix's codeword (R122). -/
theorem encFlush_of_bound {c : Nat} (hroom : reaches x.out.length p.outCap = false)
    (hc : p2cRead x.prefixReg x.table = some c) :
    encFlush p x =
      .ok ({ x with out := x.out ++ [c], phase := .done }, respond p .none (x.out.length + 1)) := by
  simp [encFlush, encEndFull, hroom, p2cLookup_eq, hc, answered]

theorem encFlush_of_unbound (hroom : reaches x.out.length p.outCap = false) (hc : p2cRead x.prefixReg x.table = none) :
    encFlush p x = .error .unboundPhrase := by
  simp [encFlush, encEndFull, hroom, p2cLookup_eq, hc]
end

/-! ## The encoder's commands in the phases where they are legal -/

section
variable {s : State}

/-- START in a legal phase writes every register of ENC (R120). -/
theorem exec_encStart_legal (h : legalIn .encStart s.enc.phase = true) :
    exec .encStart s =
      .next (s.replyEnc { p2cInit s.enc with prefixReg := [], out := [], err := .none, phase := .run } 0) := by
  rw [exec_enc rfl, encTransition_start s.params h, finishEnc_ok]

/-- ENC_SYM of a symbol in RUN is one pass of the loop (R121). -/
theorem exec_encSym_run (hr : s.enc.phase = .run) (a : Symbol) :
    exec (.encSym a.val) s = s.finishEnc (encPass s.params a s.enc) := by
  rw [exec_enc rfl, encTransition_of_run hr]

/-- ENC_SYM in RUN of an operand that is no symbol raises UnsupportedSymbol (R183). -/
theorem exec_encSym_unsupported (hr : s.enc.phase = .run) {a : Nat} (ha : 256 ≤ a) :
    exec (.encSym a) s = .next (raisedEnc s .unsupportedSymbol) := by
  show execEncSym a s = _
  rw [execEncSym, encCommand, legalIn_encSym, hr, symbolOf_of_ge ha]
  exact finishEnc_raised s .unsupportedSymbol

/-- ENC_END in RUN with nothing left to emit (R122). -/
theorem exec_encEnd_empty (hr : s.enc.phase = .run) (h0 : s.enc.prefixReg = []) :
    exec .encEnd s = .next (s.replyEnc { s.enc with phase := .done } (respond s.params .none s.enc.out.length)) := by
  show execEncEnd s = _
  rw [execEncEnd, encCommand, legalIn_encEnd, hr, if_pos h0]
  rfl

/-- ENC_END in RUN with a prefix to emit (R122). -/
theorem exec_encEnd_flush (hr : s.enc.phase = .run) (hne : s.enc.prefixReg ≠ []) :
    exec .encEnd s = s.finishEnc (encFlush s.params s.enc) := by
  show execEncEnd s = _
  rw [execEncEnd, encCommand, legalIn_encEnd, hr, if_neg hne]
  rfl

/-- ENC_RD in DONE of an index past the end (R123). -/
theorem exec_encRd_past (hd : s.enc.phase = .done) {i : Nat} (hi : s.enc.out.length ≤ i) :
    exec (.encRd i) s = .next (raisedEnc s .illegalCommand) := by
  show execEncRd i s = _
  rw [execEncRd, encCommand, legalIn_encRd, hd, elementAt, List.getElem?_eq_none hi]
  exact finishEnc_raised s .illegalCommand

/-- ENC_RD in DONE of an element of the output (R123). -/
theorem exec_encRd_element (hd : s.enc.phase = .done) {i : Nat} (hi : i < s.enc.out.length) :
    exec (.encRd i) s = .next (s.replyEnc s.enc (respond s.params .none s.enc.out[i])) := by
  show execEncRd i s = _
  rw [execEncRd, encCommand, legalIn_encRd, hd, elementAt, List.getElem?_eq_getElem hi]
  rfl

/-- ENC_STAT of a reserved number (R31, R124). -/
theorem exec_encStat_reserved {n : Nat} (hn : 3 ≤ n) : exec (.encStat n) s = .next (raisedEnc s .illegalCommand) := by
  show execEncStat n s = _
  rw [execEncStat, encCommand, csr_eq_none.2 hn]
  exact finishEnc_raised s .illegalCommand
end

/-- Settles O21: words by `encHandle_encSym`, an illegal phase by `exec_enc_illegal`, and in RUN the cases of one pass:
`encPass_of_hit`, `encMiss_of_full`, `encMiss_of_bound`. -/
theorem encSymConsumesOneSymbol : Obligations.EncSymConsumesOneSymbol := by
  intro s
  refine ⟨fun w => encHandle_encSym, fun a hr => ?_, fun a hr => exec_encSym_unsupported hr, fun a c hr hhit => ?_,
    fun a hr hmiss hcap => ?_, fun a c hr hmiss hout hdict hc => ?_⟩
  · exact exec_enc_illegal rfl (by rw [legalIn_encSym, decide_eq_false hr])
  · rw [exec_encSym_run hr, encPass_of_hit hhit]
    rfl
  · have hfull : encSymFull s.params s.enc = true := Bool.or_eq_true_iff.2 hcap
    rw [exec_encSym_run hr, encPass_of_miss hmiss, encMiss_of_full hfull, finishEnc_raised]
  · have hroom : encSymFull s.params s.enc = false := encSymFull_eq_false.2 ⟨hout, hdict⟩
    rw [exec_encSym_run hr, encPass_of_miss hmiss, encMiss_of_bound hroom hmiss hc]
    rfl

/-- Settles O20: `exec_encStart_legal` in the legal phases, `exec_enc_illegal` in the two others; the words by the opcode
map. -/
theorem encStartBeginsAFreshRun : Obligations.EncStartBeginsAFreshRun := by
  intro s
  refine ⟨fun hx => ?_, fun hx => ?_, fun w hop h0 => encHandle_encStart hop h0, fun w hop h => ?_⟩
  · rw [exec_encStart_legal ((legalIn_encStart _).2 hx)]
    rfl
  · refine exec_enc_illegal rfl ?_
    rcases hx with hx | hx <;> rw [hx] <;> rfl
  · exact encHandle_error (decodeEnc_operandNotZero (by simp [hop]) h)

/-- Settles O22: an illegal phase by `exec_enc_illegal`, and in RUN the cases `exec_encEnd_empty`, `encFlush_of_full` and
`encFlush_of_bound`. -/
theorem encEndCompletesTheRun : Obligations.EncEndCompletesTheRun := by
  intro s
  refine ⟨fun hr => ?_, fun hr h0 => exec_encEnd_empty hr h0, fun hr hne hfull => ?_, fun c hr hne hroom hc => ?_,
    fun w hop h0 => encHandle_encEnd hop h0, fun w hop h => ?_⟩
  · exact exec_enc_illegal rfl (by rw [legalIn_encEnd, decide_eq_false hr])
  · rw [exec_encEnd_flush hr hne, encFlush_of_full hfull, finishEnc_raised]
  · rw [exec_encEnd_flush hr hne, encFlush_of_bound hroom hc]
    rfl
  · exact encHandle_error (decodeEnc_operandNotZero (by simp [hop]) h)

/-- Settles O23: an illegal phase by `exec_enc_illegal`; in DONE `exec_encRd_past` and `exec_encRd_element`. -/
theorem encRdReadsOneCodeword : Obligations.EncRdReadsOneCodeword := by
  intro s i
  refine ⟨fun w => encHandle_encRd, fun hd => ?_, fun hd => exec_encRd_past hd, fun hi hd => exec_encRd_element hd hi⟩
  exact exec_enc_illegal rfl (by rw [legalIn_encRd, decide_eq_false hd])

/-- Settles O24: the three registers are views of the state, read in every phase; the other numbers are reserved. -/
theorem encStatReadsARegister : Obligations.EncStatReadsARegister :=
  fun _ => ⟨fun _ => encHandle_encStat, rfl, rfl, rfl, fun _ => exec_encStat_reserved⟩

/-! ## What a successful command leaves alone -/

section
variable {p : Params} {w : Nat}

theorem EncMove.encSym_frame {a : Nat} {x y : Enc} (hm : EncMove (.encSym a) p x y w) (hf : y.phase ≠ .fault) :
    y.phase = x.phase ∧ y.err = x.err := by
  cases hm with
  | raise e => exact absurd (raise_phase p e x) hf
  | hit | miss => exact ⟨rfl, rfl⟩
  | start hi | finish hi => cases hi
  | read hi => simp at hi

theorem EncMove.encEnd_frame {x y : Enc} (hm : EncMove .encEnd p x y w) (hf : y.phase ≠ .fault) :
    y.prefixReg = x.prefixReg ∧ y.nextCode = x.nextCode ∧ y.table = x.table ∧ y.err = x.err := by
  cases hm with
  | raise e => exact absurd (raise_phase p e x) hf
  | finish => exact ⟨rfl, rfl, rfl, rfl⟩
  | start hi | hit _ hi | miss _ hi => cases hi
  | read hi => simp at hi

/-- RD and STAT of the encoder write nothing of the engine. -/
theorem EncMove.read_frame {i : Instr} {x y : Enc} (hi : (∃ a, i = .encRd a) ∨ ∃ n, i = .encStat n)
    (hm : EncMove i p x y w) (hf : y.phase ≠ .fault) : y = x := by
  cases hm with
  | raise e => exact absurd (raise_phase p e x) hf
  | read => rfl
  | start h | hit _ h | miss _ h | finish h => simp [h] at hi

theorem DecMove.decCode_frame {c : Nat} {x y : Dec} (hm : DecMove (.decCode c) p x y w) (hf : y.phase ≠ .fault) :
    y.err = x.err ∧ y.phase = .run := by
  cases hm with
  | raise e => exact absurd (raise_phase p e x) hf
  | first => exact ⟨rfl, rfl⟩
  | later _ _ hr => exact ⟨rfl, hr⟩
  | start hi | finish hi => cases hi
  | read hi => simp at hi

/-- The first codeword of a run makes no table access (R141 step 2). -/
theorem DecMove.decCode_first_table {c : Nat} {x y : Dec} (hm : DecMove (.decCode c) p x y w)
    (hw : x.phase = .waitFirst) : y.table = x.table ∧ y.nextCode = x.nextCode := by
  cases hm with
  | raise e => exact ⟨raise_table p e x, raise_nextCode p e x⟩
  | first => exact ⟨rfl, rfl⟩
  | later _ _ hr => simp [hw] at hr
  | start hi | finish hi => cases hi
  | read hi => simp at hi

theorem DecMove.decEnd_frame {x y : Dec} (hm : DecMove .decEnd p x y w) (hf : y.phase ≠ .fault) :
    y = { x with phase := .done } := by
  cases hm with
  | raise e => exact absurd (raise_phase p e x) hf
  | finish => rfl
  | start hi | first _ hi | later _ hi => cases hi
  | read hi => simp at hi

/-- RD and STAT of the decoder write nothing of the engine. -/
theorem DecMove.read_frame {i : Instr} {x y : Dec} (hi : (∃ a, i = .decRd a) ∨ ∃ n, i = .decStat n)
    (hm : DecMove i p x y w) (hf : y.phase ≠ .fault) : y = x := by
  cases hm with
  | raise e => exact absurd (raise_phase p e x) hf
  | read => rfl
  | start h | first _ h | later _ h | finish h => simp [h] at hi
end

/-- The move of ENC behind a command that answers a next state, on the engine of that state. -/
theorem encMove_of_exec {i : Instr} (hi : i.isEncCommand = true) {s t : State} (h : exec i s = .next t) :
    ∃ w, EncMove i s.params s.enc t.enc w := by
  obtain ⟨y, w, hm, rfl⟩ := exec_enc_next hi h
  exact ⟨w, hm⟩

/-- The move of DEC behind a command that answers a next state, likewise. -/
theorem decMove_of_exec {i : Instr} (hi : i.isDecCommand = true) {s t : State} (h : exec i s = .next t) :
    ∃ w, DecMove i s.params s.dec t.dec w := by
  obtain ⟨y, w, hm, rfl⟩ := exec_dec_next hi h
  exact ⟨w, hm⟩

/-- Settles O34: each command made one of its engine's moves (`encMove_of_exec`, `decMove_of_exec`), and the frame is that
move's. -/
theorem successfulCommandsLeaveTheRest : Obligations.SuccessfulCommandsLeaveTheRest := by
  intro s t
  refine ⟨fun a h hf => ?_, fun h hf => ?_, fun i h hf => ?_, fun n h hf => ?_, fun c h hf => ?_, fun c hw h => ?_,
    fun h hf => ?_, fun i h hf => ?_, fun n h hf => ?_⟩
  · obtain ⟨w, hm⟩ := encMove_of_exec rfl h
    exact hm.encSym_frame hf
  · obtain ⟨w, hm⟩ := encMove_of_exec rfl h
    exact hm.encEnd_frame hf
  · obtain ⟨w, hm⟩ := encMove_of_exec rfl h
    exact hm.read_frame (.inl ⟨i, rfl⟩) hf
  · obtain ⟨w, hm⟩ := encMove_of_exec rfl h
    exact hm.read_frame (.inr ⟨n, rfl⟩) hf
  · obtain ⟨w, hm⟩ := decMove_of_exec rfl h
    exact hm.decCode_frame hf
  · obtain ⟨w, hm⟩ := decMove_of_exec rfl h
    exact hm.decCode_first_table hw
  · obtain ⟨w, hm⟩ := decMove_of_exec rfl h
    exact hm.decEnd_frame hf
  · obtain ⟨w, hm⟩ := decMove_of_exec rfl h
    exact hm.read_frame (.inl ⟨i, rfl⟩) hf
  · obtain ⟨w, hm⟩ := decMove_of_exec rfl h
    exact hm.read_frame (.inr ⟨n, rfl⟩) hf

/-! ## The counts of a completed encoder run -/

section
variable {p : Params} {x y z : Enc} {ws : List Nat}

/-- Commands after a first one that answers start from the engine it leaves. -/
theorem encTransitions_tail {i : Instr} {is : List Instr} {w : Nat} (hi : encTransition i p x = .ok (y, w))
    (h : encTransitions (i :: is) p x = .ok (z, ws)) : ∃ vs, encTransitions is p y = .ok (z, vs) := by
  simp only [encTransitions, hi] at h
  split at h
  · cases h
  · rename_i z' vs hz
    cases h
    exact ⟨vs, hz⟩

/-- A run that completes has followed the encoder's loop: the other outcome of `encTransitions_loop` ends in FAULT. -/
theorem EncInv.completed (h : EncInv p x) (hr : x.phase = .run) {xs : List Symbol}
    (hz : encTransitions (xs.map (fun s => .encSym s.val) ++ [.encEnd]) p x = .ok (z, ws)) (hd : z.phase = .done) :
    EncInv p z ∧ z.out = encLoop x.table x.nextCode x.prefixReg x.out xs ∧
      x.out.length + (if x.prefixReg = [] ∧ xs = [] then 0 else 1) ≤ z.out.length ∧
      z.out.length ≤ x.out.length + xs.length + 1 := by
  rcases encTransitions_loop xs h hr with ⟨y, hy, -, -, hout, hinv, hge, hle⟩ | ⟨y, vs, hy, hf, -, -⟩
  · cases hy.symm.trans hz
    exact ⟨hinv, hout, hge, hle⟩
  · cases hy.symm.trans hz
    rw [hf] at hd
    cases hd

/-- A completed run of `ENCODE` emits nothing for the empty input, otherwise at least one codeword and at most one for each
symbol: the first symbol only becomes the prefix (R101, R168). -/
theorem encodeExpansion_out_length {xs : List Symbol} (hv : p.valid = true) (hl : legalIn .encStart x.phase = true)
    (h : encTransitions (encodeExpansion (xs.map Fin.val)) p x = .ok (z, ws)) (hd : z.phase = .done) :
    EncInv p z ∧ z.out.length ≤ xs.length ∧ (xs ≠ [] → 1 ≤ z.out.length) := by
  obtain ⟨vs, hvs⟩ := encTransitions_tail (encTransition_start p hl) h
  rw [List.map_map] at hvs
  have hfresh := encStart_inv hv x
  cases xs with
  | nil =>
    obtain ⟨hinv, hout, -, -⟩ := hfresh.completed rfl (xs := []) hvs hd
    exact ⟨hinv, by simp [hout, encLoop], fun h => absurd rfl h⟩
  | cons a rest =>
    have hpass := hfresh.pass_first rfl a
    obtain ⟨y, w, hy, hinv⟩ := hfresh.pass rfl a
    cases hpass.symm.trans hy
    obtain ⟨us, hus⟩ := encTransitions_tail ((encTransition_of_run rfl p a).trans hpass) hvs
    obtain ⟨hinv, -, hge, hle⟩ := hinv.completed rfl (xs := rest) hus hd
    exact ⟨hinv, by simpa using hle, fun _ => by simpa using hge⟩
end

/-- Settles O50: the invariant after the run gives the table's size, the bounds of the codewords and the relation between
entries and codewords; `encodeExpansion_out_length` gives how many codewords there are. -/
theorem completedEncodeCounts : Obligations.CompletedEncodeCounts := by
  intro s t xs hv hl h hd
  obtain ⟨y, ws, hy, ht⟩ := runCommands_enc_next (encodeExpansion_enc _) h
  obtain rfl : t.enc = y := by rw [ht]
  obtain ⟨hinv, hle, hge⟩ := encodeExpansion_out_length hv hl hy hd
  have hfirst := hinv.firstCode_le
  have hcount := hinv.done_count hd
  rw [← List.length_eq_zero_iff] at hcount
  refine ⟨hinv.length_eq, ?_, fun hne => ?_,
    fun k c hk => ⟨hinv.out_bound k c hk, hinv.out_codes c (List.mem_of_getElem? hk)⟩⟩
  · rintro rfl
    rw [List.length_nil] at hle
    exact ⟨List.length_eq_zero_iff.1 (by omega), by omega⟩
  · have hpos := hge hne
    exact ⟨t.enc.out.length - 1, by omega, by omega, by omega⟩

/-! ## The reads that never happen -/

section
variable {p : Params} {x : Dec}

/-- DEC_CODE in RUN is a later codeword (R141 step 3). -/
theorem exec_decCode_run {s : State} (hr : s.dec.phase = .run) (c : Nat) :
    exec (.decCode c) s = s.finishDec (decLater s.params c s.dec) := by
  rw [exec_dec rfl, decTransition_of_run hr]

theorem decLater_unbound {c : Nat} (hlt : c < x.nextCode) (hc : c2pRead c x.table = none) :
    decLater p c x = .error .unboundCodeword := by
  rw [decLater, c2pLookup_of_lt hlt, hc]

theorem decLater_bound {c : Nat} {q : Phrase} (hlt : c < x.nextCode) (hc : c2pRead c x.table = some q) :
    decLater p c x = decPhrase p q x := by
  rw [decLater, c2pLookup_of_lt hlt, hc]

/-- The special case reads the first symbol of the prefix (R142). -/
theorem decLater_special_noPrefix (h0 : x.prefixReg = []) : decLater p x.nextCode x = .error .noFirstSymbol := by
  rw [decLater, c2pLookup_of_le (Nat.le_refl x.nextCode)]
  simp [decSpecial, h0, firstSymbol]

theorem decPhrase_nil (hfull : decCodeFull p x [] = false) : decPhrase p [] x = .error .noFirstSymbol := by
  simp [decPhrase, hfull, firstSymbol]
end

theorem finishEnc_ne_refused (s : State) (x : Except Fault (Enc × Nat)) (r : Refusal) : s.finishEnc x ≠ .refused r := by
  intro h
  cases x <;> cases h

theorem finishDec_ne_refused (s : State) (x : Except Fault (Dec × Nat)) (r : Refusal) : s.finishDec x ≠ .refused r := by
  intro h
  cases x <;> cases h

/-- No instruction is refused: a command ends its engine's transition, a table operation answers a next state. -/
theorem exec_ne_refused (i : Instr) (s : State) (r : Refusal) : exec i s ≠ .refused r := by
  cases hi : i.isHostCommand with
  | true =>
    rcases isHostCommand_cases hi with hE | hD
    · rw [exec_enc hE]; exact finishEnc_ne_refused s _ r
    · rw [exec_dec hD]; exact finishDec_ne_refused s _ r
  | false =>
    cases i with
    | p2cInit | p2cLookup | p2cInsert | c2pInit | c2pLookup | c2pInsert => intro h; cases h
    | _ => cases hi

/-- Settles O19: each stop is the transition that ends in the named fault (`encMiss_of_unbound`, `encFlush_of_unbound`,
`decLater_unbound`, `decLater_special_noPrefix`, `decPhrase_nil`); no refusal by `exec_ne_refused`. -/
theorem impossibleReadsStopByName : Obligations.ImpossibleReadsStopByName := by
  refine ⟨fun s a hr hmiss hout hdict hc => ?_, fun s hr hne hroom hc => ?_, fun s c hr hlt hc => ?_,
    fun s hr h0 => ?_, fun s c hr hlt hc hout hdict => ?_, exec_ne_refused⟩
  · rw [exec_encSym_run hr, encPass_of_miss hmiss, encMiss_of_unbound (encSymFull_eq_false.2 ⟨hout, hdict⟩) hc,
      finishEnc_error]
  · rw [exec_encEnd_flush hr hne, encFlush_of_unbound hroom hc, finishEnc_error]
  · rw [exec_decCode_run hr, decLater_unbound hlt hc, finishDec_error]
  · rw [exec_decCode_run hr, decLater_special_noPrefix h0, finishDec_error]
  · have hroom : decCodeFull s.params s.dec [] = false := Bool.or_eq_false_iff.2 ⟨hout, hdict⟩
    rw [exec_decCode_run hr, decLater_bound hlt hc, decPhrase_nil hroom, finishDec_error]

end Sys2Proof.Machine

/-! ## The commands of the decoder engine: the phase test -/

namespace Sys2Proof.Machine

section
variable (a : Nat) (x : Phase)

/-- DEC_START is legal where no run is going on (R83 step 4). -/
theorem legalIn_decStart : legalIn .decStart x = true ↔ x = .idle ∨ x = .done ∨ x = .fault := by
  cases x <;> simp [legalIn]

theorem legalIn_decCode : legalIn (.decCode a) x = decide (x = .waitFirst ∨ x = .run) := by cases x <;> rfl

theorem legalIn_decEnd : legalIn .decEnd x = decide (x = .waitFirst ∨ x = .run) := by cases x <;> rfl

theorem legalIn_decRd : legalIn (.decRd a) x = decide (x = .done) := by cases x <;> rfl
end

/-! ## The command words of the decoder engine -/

section
variable {s : State} {w : Nat}

theorem decHandle_decStart (hop : w % 16 = 9) (h0 : operandField s.params w = 0) : decHandle w s = exec .decStart s :=
  decHandle_ok (by rw [decodeCommand, decodeDec, hop, h0]; rfl)

theorem decHandle_decCode (hop : w % 16 = 10) : decHandle w s = exec (.decCode (operandField s.params w)) s :=
  decHandle_ok (by rw [decodeCommand, decodeDec, hop]; rfl)

theorem decHandle_decEnd (hop : w % 16 = 11) (h0 : operandField s.params w = 0) : decHandle w s = exec .decEnd s :=
  decHandle_ok (by rw [decodeCommand, decodeDec, hop, h0]; rfl)

theorem decHandle_decRd (hop : w % 16 = 12) : decHandle w s = exec (.decRd (operandField s.params w)) s :=
  decHandle_ok (by rw [decodeCommand, decodeDec, hop]; rfl)

theorem decHandle_decStat (hop : w % 16 = 13) : decHandle w s = exec (.decStat (operandField s.params w)) s :=
  decHandle_ok (by rw [decodeCommand, decodeDec, hop]; rfl)
end

/-! ## The decoder's step on one codeword -/

section
variable {p : Params} {x : Dec} {c : Nat} {q : Phrase}

/-- A first codeword below 256 is the symbol it stands for, and the table is not read (R141 step 2). -/
theorem decFirst_of_lt (h : c < 256) :
    decFirst p c x = .ok ({ x with out := [⟨c, h⟩], prefixReg := [⟨c, h⟩], phase := .run }, 0) := by
  rw [decFirst, symbolOf_of_lt h]
  simp only [answered, respond_none_zero]

theorem decFirst_of_ge (h : 256 ≤ c) : decFirst p c x = raised p .invalidCodeword x := by
  rw [decFirst, symbolOf_of_ge h]

theorem decLater_invalid (h : x.nextCode < c) : decLater p c x = raised p .invalidCodeword x := by
  rw [decLater, c2pLookup_of_le h.le]
  exact if_neg h.ne'

/-- The next codeword to be assigned stands for the prefix and its first symbol (R142). -/
theorem decLater_special {g : Symbol} (hg : firstSymbol x.prefixReg = some g) :
    decLater p x.nextCode x = decPhrase p (x.prefixReg ++ [g]) x := by
  rw [decLater, c2pLookup_of_le (Nat.le_refl x.nextCode)]
  simp [decSpecial, hg, appendSymbol]

/-- A codeword that is not above the counter is decoded as its phrase, bound or special (R141 step 3). -/
theorem decLater_of_phrase (h : (c < x.nextCode ∧ c2pRead c x.table = some q) ∨
    (c = x.nextCode ∧ ∃ g, firstSymbol x.prefixReg = some g ∧ q = x.prefixReg ++ [g])) :
    decLater p c x = decPhrase p q x := by
  rcases h with ⟨hlt, hq⟩ | ⟨rfl, g, hg, rfl⟩
  · exact decLater_bound hlt hq
  · exact decLater_special hg

theorem decPhrase_of_full (h : decCodeFull p x q = true) : decPhrase p q x = raised p .capacityExhausted x :=
  if_pos h

/-- With room for it a phrase goes to the output and becomes the prefix, and the old prefix with the phrase's first symbol is
the table's next entry (R141 step 3). -/
theorem decPhrase_of_room {f : Symbol} (hsize : x.table.length = x.nextCode) (hroom : decCodeFull p x q = false)
    (hf : firstSymbol q = some f) :
    decPhrase p q x = .ok ({ x with
      out := x.out ++ q
      table := x.table ++ [x.prefixReg ++ [f]]
      nextCode := x.nextCode + 1
      prefixReg := q }, 0) := by
  have hins := c2pInsert_at_end (x.prefixReg ++ [f]) (x := { x with out := x.out ++ q }) hsize
  simp [decPhrase, hroom, hf, appendSymbol, hins, answered, respond_none_zero]
end

/-! ## The decoder's commands in the phases where they are legal -/

section
variable {s : State}

/-- START in a legal phase writes every register of DEC (R140). -/
theorem exec_decStart_legal (h : legalIn .decStart s.dec.phase = true) :
    exec .decStart s =
      .next (s.replyDec { c2pInit s.dec with prefixReg := [], out := [], err := .none, phase := .waitFirst } 0) := by
  rw [exec_dec rfl, decTransition_start s.params h, finishDec_ok]

/-- DEC_CODE in WAIT_FIRST is the first codeword of a run (R141 step 2). -/
theorem exec_decCode_waitFirst (hw : s.dec.phase = .waitFirst) (c : Nat) :
    exec (.decCode c) s = s.finishDec (decFirst s.params c s.dec) := by
  show execDecCode c s = _
  rw [execDecCode, decCommand, legalIn_decCode, hw]
  rfl

/-- DEC_END before any codeword (R144). -/
theorem exec_decEnd_waitFirst (hw : s.dec.phase = .waitFirst) : exec .decEnd s = .next (raisedDec s .emptyInput) := by
  show execDecEnd s = _
  rw [execDecEnd, decCommand, legalIn_decEnd, hw]
  exact finishDec_raised s .emptyInput

/-- DEC_END in RUN completes the run (R144). -/
theorem exec_decEnd_run (hr : s.dec.phase = .run) :
    exec .decEnd s = .next (s.replyDec { s.dec with phase := .done } (respond s.params .none s.dec.out.length)) := by
  show execDecEnd s = _
  rw [execDecEnd, decCommand, legalIn_decEnd, hr]
  rfl

/-- DEC_RD in DONE of an index past the end (R145). -/
theorem exec_decRd_past (hd : s.dec.phase = .done) {i : Nat} (hi : s.dec.out.length ≤ i) :
    exec (.decRd i) s = .next (raisedDec s .illegalCommand) := by
  show execDecRd i s = _
  rw [execDecRd, decCommand, legalIn_decRd, hd, elementAt, List.getElem?_eq_none hi]
  exact finishDec_raised s .illegalCommand

/-- DEC_RD in DONE of an element of the output (R145). -/
theorem exec_decRd_element (hd : s.dec.phase = .done) {i : Nat} (hi : i < s.dec.out.length) :
    exec (.decRd i) s = .next (s.replyDec s.dec (respond s.params .none s.dec.out[i].val)) := by
  show execDecRd i s = _
  rw [execDecRd, decCommand, legalIn_decRd, hd, elementAt, List.getElem?_eq_getElem hi]
  rfl

/-- DEC_STAT of a reserved number (R31, R146). -/
theorem exec_decStat_reserved {n : Nat} (hn : 3 ≤ n) : exec (.decStat n) s = .next (raisedDec s .illegalCommand) := by
  show execDecStat n s = _
  rw [execDecStat, decCommand, csr_eq_none.2 hn]
  exact finishDec_raised s .illegalCommand
end

/-- Settles O26: words by `decHandle_decCode`, an illegal phase by `exec_dec_illegal`, the first codeword by `decFirst_of_ge`
and `decFirst_of_lt`, a later one by `decLater_invalid`, or as its phrase (`decLater_of_phrase`), for which there is room or
not (`decPhrase_of_full`, `decPhrase_of_room`). -/
theorem decCodeConsumesOneCodeword : Obligations.DecCodeConsumesOneCodeword := by
  intro s c hsize
  refine ⟨fun w => decHandle_decCode, fun hw hr => ?_, fun hw hc => ?_, fun hc hw => ?_, fun hr hc => ?_,
    fun q f hr hf hq => ⟨fun hcap => ?_, fun hout hdict => ?_⟩⟩
  · exact exec_dec_illegal rfl (by rw [legalIn_decCode, decide_eq_false (not_or.2 ⟨hw, hr⟩)])
  · rw [exec_decCode_waitFirst hw, decFirst_of_ge hc, finishDec_raised]
  · rw [exec_decCode_waitFirst hw, decFirst_of_lt hc]
    rfl
  · rw [exec_decCode_run hr, decLater_invalid hc, finishDec_raised]
  · have hfull : decCodeFull s.params s.dec q = true := Bool.or_eq_true_iff.2 hcap
    rw [exec_decCode_run hr, decLater_of_phrase hq, decPhrase_of_full hfull, finishDec_raised]
  · have hroom : decCodeFull s.params s.dec q = false := Bool.or_eq_false_iff.2 ⟨hout, hdict⟩
    rw [exec_decCode_run hr, decLater_of_phrase hq, decPhrase_of_room hsize hroom hf]
    rfl

/-- Settles O25: `exec_decStart_legal` in the legal phases, `exec_dec_illegal` in the two others; the words by the opcode
map. -/
theorem decStartBeginsAFreshRun : Obligations.DecStartBeginsAFreshRun := by
  intro s
  refine ⟨fun hx => ?_, fun hx => ?_, fun w hop h0 => decHandle_decStart hop h0, fun w hop h => ?_⟩
  · rw [exec_decStart_legal ((legalIn_decStart _).2 hx)]
    rfl
  · refine exec_dec_illegal rfl ?_
    rcases hx with hx | hx <;> rw [hx] <;> rfl
  · exact decHandle_error (decodeDec_operandNotZero (by simp [hop]) h)

/-- Settles O27: an illegal phase by `exec_dec_illegal`, `exec_decEnd_waitFirst` and `exec_decEnd_run`; the invariant keeps
the output of a run from being empty. -/
theorem decEndCompletesTheRunOrReportsEmptyInput : Obligations.DecEndCompletesTheRunOrReportsEmptyInput := by
  intro s
  refine ⟨fun hw hr => ?_, exec_decEnd_waitFirst, exec_decEnd_run, fun w hop h0 => decHandle_decEnd hop h0,
    fun w hop h => ?_, fun p hinv hr => hinv.out_nonempty (.inl hr)⟩
  · exact exec_dec_illegal rfl (by rw [legalIn_decEnd, decide_eq_false (not_or.2 ⟨hw, hr⟩)])
  · exact decHandle_error (decodeDec_operandNotZero (by simp [hop]) h)

/-- Settles O28: an illegal phase by `exec_dec_illegal`; in DONE `exec_decRd_past` and `exec_decRd_element`. -/
theorem decRdReadsOneSymbol : Obligations.DecRdReadsOneSymbol := by
  intro s i
  refine ⟨fun w => decHandle_decRd, fun hd => ?_, fun hd => exec_decRd_past hd, fun hi hd => exec_decRd_element hd hi⟩
  exact exec_dec_illegal rfl (by rw [legalIn_decRd, decide_eq_false hd])

/-- Settles O29: the three registers are views of the state, read in every phase; the other numbers are reserved. -/
theorem decStatReadsARegister : Obligations.DecStatReadsARegister :=
  fun _ => ⟨fun _ => decHandle_decStat, rfl, rfl, rfl, fun _ => exec_decStat_reserved⟩

end Sys2Proof.Machine

/-! ## Runs of one engine's commands, from one part to the next -/

namespace Sys2Proof.Machine

section
variable {i : Instr} {is js : List Instr} {p : Params} {w : Nat} {ws vs : List Nat}

theorem encTransitions_cons {x y z : Enc} (hi : encTransition i p x = .ok (y, w))
    (his : encTransitions is p y = .ok (z, ws)) : encTransitions (i :: is) p x = .ok (z, w :: ws) := by
  simp only [encTransitions, hi, his]

theorem decTransitions_cons {x y z : Dec} (hi : decTransition i p x = .ok (y, w))
    (his : decTransitions is p y = .ok (z, ws)) : decTransitions (i :: is) p x = .ok (z, w :: ws) := by
  simp only [decTransitions, hi, his]

theorem decTransitions_append {x y z : Dec} (his : decTransitions is p x = .ok (y, ws))
    (hjs : decTransitions js p y = .ok (z, vs)) : decTransitions (is ++ js) p x = .ok (z, ws ++ vs) := by
  induction is generalizing x ws with
  | nil => cases his; exact hjs
  | cons i is ih =>
    simp only [decTransitions] at his
    split at his
    · cases his
    · rename_i u r hu
      split at his
      · cases his
      · rename_i u' rs hrest
        cases his
        exact decTransitions_cons hu (ih hrest)

/-- ENC's transitions on a list of its commands, put into the machine. -/
theorem runCommands_enc_of_transitions {s : State} {y : Enc} (hi : ∀ i ∈ is, i.isEncCommand = true)
    (h : encTransitions is s.params s.enc = .ok (y, ws)) :
    runCommands is s = .next { s with enc := y, encRsp := s.encRsp ++ ws } := by
  rw [runCommands_enc hi, h]

/-- DEC's transitions on a list of its commands, put into the machine. -/
theorem runCommands_dec_of_transitions {s : State} {y : Dec} (hi : ∀ i ∈ is, i.isDecCommand = true)
    (h : decTransitions is s.params s.dec = .ok (y, ws)) :
    runCommands is s = .next { s with dec := y, decRsp := s.decRsp ++ ws } := by
  rw [runCommands_dec hi, h]
end

theorem mem_encData {as : List Nat} {j : Instr} (h : j ∈ as.map Instr.encSym ++ [.encEnd]) :
    (∃ a, j = .encSym a) ∨ j = .encEnd := by
  simp only [List.mem_append, List.mem_map, List.mem_singleton] at h
  rcases h with ⟨a, -, rfl⟩ | rfl
  · exact .inl ⟨a, rfl⟩
  · exact .inr rfl

theorem mem_decData {cs : List Nat} {j : Instr} (h : j ∈ cs.map Instr.decCode ++ [.decEnd]) :
    (∃ c, j = .decCode c) ∨ j = .decEnd := by
  simp only [List.mem_append, List.mem_map, List.mem_singleton] at h
  rcases h with ⟨c, -, rfl⟩ | rfl
  · exact .inl ⟨c, rfl⟩
  · exact .inr rfl

/-! ## ENCODE, as transitions of the encoder engine -/

section
variable {p : Params} {x : Enc}

/-- ENC's transitions on `ENCODE`: it completes with `enc xs` as output, or one of the capacities is finite and it ran out
of it (R160). -/
theorem encodeExpansion_cases (hv : p.valid = true) (hl : legalIn .encStart x.phase = true) (xs : List Symbol) :
    (∃ z, encTransitions (encodeExpansion (xs.map Fin.val)) p x =
        .ok (z, List.replicate (xs.length + 1) 0 ++ [respond p .none z.out.length]) ∧
        z.phase = .done ∧ z.err = .none ∧ z.out = enc xs) ∨
    (∃ z ws, encTransitions (encodeExpansion (xs.map Fin.val)) p x = .ok (z, ws) ∧ z.phase = .fault ∧
        (p.dictCap ≠ .infinite ∨ p.outCap ≠ .infinite)) := by
  have hstart := encTransition_start p hl
  rw [encodeExpansion, List.map_map]
  rcases encTransitions_loop xs (encStart_inv hv x) rfl with ⟨z, hz, hd, he, hout, -⟩ | ⟨z, ws, hz, hf, -, hcap⟩
  · exact .inl ⟨z, encTransitions_cons hstart hz, hd, he, hout⟩
  · exact .inr ⟨z, 0 :: ws, encTransitions_cons hstart hz, hf, hcap⟩

/-- With infinite capacities a symbol is consumed and the run goes on (R121, R185). -/
theorem EncInv.pass_of_infinite (h : EncInv p x) (hr : x.phase = .run) (hdict : p.dictCap = .infinite)
    (hcap : p.outCap = .infinite) (s : Symbol) : ∃ y w, encPass p s x = .ok (y, w) ∧ EncInv p y ∧ y.phase = .run := by
  obtain ⟨y, w, hy, hinv⟩ := h.pass hr s
  refine ⟨y, w, hy, hinv, ?_⟩
  rcases encPass_cases h hr s with ⟨-, he⟩ | ⟨-, hfull, -⟩ | ⟨pc, -, -, -, he⟩
  · cases hy.symm.trans he; exact hr
  · simp [encSymFull, hdict, hcap] at hfull
  · cases hy.symm.trans he; exact hr

theorem encTransition_unsupported (hr : x.phase = .run) {a : Nat} (ha : 256 ≤ a) :
    encTransition (.encSym a) p x = .ok ({ x with out := [], err := .unsupportedSymbol, phase := .fault }, 3) := by
  have hnf : x.phase ≠ .fault := by simp [hr]
  rw [encTransition, if_pos (by rw [hr]; rfl)]
  simp only [symbolOf_of_ge ha, raised, raise_of_not_fault p _ x hnf, respond_zero]
  rfl

/-- With infinite capacities a run over operands of which one is no symbol faults at the first such operand, and the
commands after it leave it so (R160, R187). -/
theorem encTransitions_unsupported (hdict : p.dictCap = .infinite) (hcap : p.outCap = .infinite) (as : List Nat)
    (h : EncInv p x) (hr : x.phase = .run) (ha : ∃ a ∈ as, 256 ≤ a) :
    ∃ y ws, encTransitions (as.map .encSym ++ [.encEnd]) p x = .ok (y, ws) ∧ y.phase = .fault ∧
      y.err = .unsupportedSymbol ∧ y.out = [] := by
  induction as generalizing x with
  | nil => simp at ha
  | cons a rest ih =>
    rcases Nat.lt_or_ge a 256 with hlt | hge
    · obtain ⟨y, w, hy, hinv, hrun⟩ := h.pass_of_infinite hr hdict hcap ⟨a, hlt⟩
      have hrest : ∃ b ∈ rest, 256 ≤ b := by
        obtain ⟨b, hb, hb256⟩ := ha
        rcases List.mem_cons.1 hb with rfl | hb
        · omega
        · exact ⟨b, hb, hb256⟩
      obtain ⟨z, ws, hz, hfault⟩ := ih hinv hrun hrest
      exact ⟨z, w :: ws, encTransitions_cons ((encTransition_of_run hr p ⟨a, hlt⟩).trans hy) hz, hfault⟩
    · exact ⟨_, _, encTransitions_cons (encTransition_unsupported hr hge)
        (encTransitions_fault _ p rfl fun _ => mem_encData), rfl, rfl, rfl⟩
end

/-! ## ENCODE, as words on the port -/

theorem respond_normative (d : Nat) : respond .normative .none d = d * 16 := rfl

/-- With the normative parameters, the steps that consume the words of `ENCODE` (R82, R160). -/
theorem run_encodeExpansion {s : State} {as rest ws : List Nat} {y : Enc} (hp : s.params = .normative) (hr : s.rst = false)
    (ht : s.turns = []) (hc : s.encCmd = wordsOf (encodeExpansion as) ++ rest)
    (h : encTransitions (encodeExpansion as) s.params s.enc = .ok (y, ws)) :
    Host.Core.run Sys2Proof.core (as.length + 2) s =
      .next { s with enc := y, encCmd := rest, encRsp := s.encRsp ++ ws } := by
  have hlen : (encodeExpansion as).length = as.length + 2 := by simp [encodeExpansion]
  rw [← hlen]
  refine run_encWords _ (encodeExpansion_enc as) (fun i hi => ?_) hr ht hc h
  rw [hp]
  exact wf_normative (isHostCommand_of_isEncCommand (encodeExpansion_enc as i hi))

/-- Settles O45: `run_encodeExpansion` turns the steps into ENC's transitions, which follow the loop of `enc`
(`encodeExpansion_cases`) or meet an operand that is no symbol (`encTransitions_unsupported`). -/
theorem encodeRunContract : Obligations.EncodeRunContract := by
  constructor
  · intro s xs rest hp hr ht hx hc
    have hv : s.params.valid = true := by rw [hp]; rfl
    rcases encodeExpansion_cases hv ((legalIn_encStart _).2 hx) xs with ⟨z, hz, hd, he, hout⟩ | ⟨_, _, _, _, hcap⟩
    · have hrun := run_encodeExpansion hp hr ht hc hz
      rw [List.length_map] at hrun
      refine ⟨_, hrun, hd, he, hout, rfl, ?_, rfl, rfl, rfl⟩
      rw [hp, respond_normative, hout]
    · simp [hp, Params.normative] at hcap
  · intro s as rest hp hr ht hx ha hc
    have hv : s.params.valid = true := by rw [hp]; rfl
    obtain ⟨y, ws, hy, hf, he, hout⟩ := encTransitions_unsupported (p := s.params) (by rw [hp]; rfl) (by rw [hp]; rfl) as
      (encStart_inv hv s.enc) rfl ha
    have hall := encTransitions_cons (encTransition_start s.params ((legalIn_encStart _).2 hx)) hy
    exact ⟨_, run_encodeExpansion hp hr ht hc hall, hf, he, hout, rfl⟩

/-! ## DECODE, as transitions of the decoder engine -/

section
variable {p : Params} {x : Dec}

theorem decTransition_of_waitFirst (hw : x.phase = .waitFirst) (p : Params) (c : Nat) :
    decTransition (.decCode c) p x = decFirst p c x := by
  rw [decTransition, if_pos (by rw [hw]; rfl)]
  exact if_pos hw

theorem decTransition_end_of_run (hr : x.phase = .run) (p : Params) :
    decTransition .decEnd p x = .ok ({ x with phase := .done }, respond p .none x.out.length) := by
  rw [decTransition, if_pos (by rw [hr]; rfl)]
  exact if_neg (by simp [hr])

theorem decTransition_end_of_waitFirst (hw : x.phase = .waitFirst) (p : Params) :
    decTransition .decEnd p x = .ok ({ x with out := [], err := .emptyInput, phase := .fault }, 1) := by
  have hnf : x.phase ≠ .fault := by simp [hw]
  rw [decTransition, if_pos (by rw [hw]; rfl)]
  simp only [if_pos hw, raised, raise_of_not_fault p _ x hnf, respond_zero]
  rfl

/-- The sequences a decoder run accepts (R161): the first codeword is a symbol's, and the codeword at index `k >= 1` is at
most `256 + k - 1`. -/
theorem validCodes_iff {cs : List Nat} : validCodes cs = true ↔
    cs ≠ [] ∧ (∀ c, cs[0]? = some c → c < 256) ∧ ∀ k c, 1 ≤ k → cs[k]? = some c → c ≤ 256 + k - 1 := by
  cases cs with
  | nil => simp [validCodes]
  | cons c rest =>
    simp only [validCodes, Bool.and_eq_true, decide_eq_true_eq, laterValid_iff]
    constructor
    · rintro ⟨hc, hlater⟩
      refine ⟨by simp, by simpa using hc, fun k d hk hd => ?_⟩
      obtain ⟨j, rfl⟩ : ∃ j, k = j + 1 := ⟨k - 1, by omega⟩
      exact hlater j d hd
    · rintro ⟨-, hc, hlater⟩
      exact ⟨hc c rfl, fun k d hd => hlater (k + 1) d (by omega) hd⟩

/-- DEC's transitions on the first two commands of `DECODE`: START, and a first codeword below 256 (R140, R141). -/
theorem decTransition_start_first (hv : p.valid = true) (hl : legalIn .decStart x.phase = true) {c : Nat} (hc : c < 256) :
    ∃ u y, decTransition .decStart p x = .ok (u, 0) ∧ decTransition (.decCode c) p u = .ok (y, 0) ∧ DecInv p y ∧
      y = { phase := .run, err := .none, prefixReg := [⟨c, hc⟩], nextCode := 256, out := [⟨c, hc⟩], table := c2pPreload } := by
  have hfirst := decFirst_of_lt (p := p)
    (x := { c2pInit x with prefixReg := [], out := [], err := .none, phase := .waitFirst }) hc
  obtain ⟨y, w, hy, hinv⟩ := (decStart_inv hv x).first hv rfl c
  cases hfirst.symm.trans hy
  exact ⟨_, _, decTransition_start p hl, (decTransition_of_waitFirst rfl p c).trans hfirst, hinv, rfl⟩

/-- DEC's transitions on `DECODE` of no codeword (R161 (a)). -/
theorem decodeExpansion_nil (hl : legalIn .decStart x.phase = true) :
    ∃ y ws, decTransitions (decodeExpansion []) p x = .ok (y, ws) ∧ y.phase = .fault ∧ y.err = .emptyInput ∧ y.out = [] :=
  ⟨_, _, decTransitions_cons (decTransition_start p hl)
    (decTransitions_cons (decTransition_end_of_waitFirst rfl p) rfl), rfl, rfl, rfl⟩

/-- DEC's transitions on `DECODE` of some codewords: it completes with `dec cs` as output if they are valid, raises
InvalidCodeword if they are not, or one of the capacities is finite and it ran out of it (R161). -/
theorem decodeExpansion_cases (hv : p.valid = true) (hl : legalIn .decStart x.phase = true) {cs : List Nat} (hne : cs ≠ []) :
    (validCodes cs = true ∧ ∃ y, decTransitions (decodeExpansion cs) p x =
        .ok (y, List.replicate (cs.length + 1) 0 ++ [respond p .none y.out.length]) ∧
        y.phase = .done ∧ y.err = .none ∧ y.out = dec cs) ∨
    (validCodes cs = false ∧ ∃ y ws, decTransitions (decodeExpansion cs) p x = .ok (y, ws) ∧
        y.phase = .fault ∧ y.err = .invalidCodeword ∧ y.out = []) ∨
    (∃ y ws, decTransitions (decodeExpansion cs) p x = .ok (y, ws) ∧ y.phase = .fault ∧ y.err = .capacityExhausted ∧
        (p.dictCap ≠ .infinite ∨ p.outCap ≠ .infinite)) := by
  cases cs with
  | nil => exact absurd rfl hne
  | cons c rest =>
    rcases Nat.lt_or_ge c 256 with hc | hc
    · obtain ⟨u, y, hu, hy, hinv, rfl⟩ := decTransition_start_first hv hl hc
      have hvalid : validCodes (c :: rest) = laterValid 256 rest := by simp [validCodes, hc]
      have hphrase : phraseAt c2pPreload c = [⟨c, hc⟩] := phraseAt_of_get (c2pPreload_of_lt hc)
      rw [hvalid]
      rcases decTransitions_loop rest hinv rfl with ⟨hok, z, hz, hd, he, hout, -⟩ | ⟨hbad, z, ws, hz, hfault⟩ |
        ⟨z, ws, hz, hfault⟩
      · refine .inl ⟨hok, z, decTransitions_cons hu (decTransitions_cons hy hz), hd, he, ?_⟩
        rw [hout, dec, hphrase]
      · exact .inr (.inl ⟨hbad, z, _, decTransitions_cons hu (decTransitions_cons hy hz), hfault⟩)
      · exact .inr (.inr ⟨z, _, decTransitions_cons hu (decTransitions_cons hy hz), hfault⟩)
    · have hvalid : validCodes (c :: rest) = false := by simp [validCodes, Nat.not_lt.2 hc]
      have hfirst : decTransition (.decCode c) p
          { c2pInit x with prefixReg := [], out := [], err := .none, phase := .waitFirst } =
          .ok ({ c2pInit x with prefixReg := [], out := [], err := .invalidCodeword, phase := .fault }, 2) := by
        rw [decTransition_of_waitFirst rfl, decFirst_of_ge hc, raised, raise_of_not_fault _ _ _ (by simp), respond_zero]
        rfl
      exact .inr (.inl ⟨hvalid, _, _, decTransitions_cons (decTransition_start p hl) (decTransitions_cons hfirst
        (decTransitions_fault _ p rfl fun _ => mem_decData)), rfl, rfl, rfl⟩)
end

/-! ## DECODE, as words on the port -/

/-- With the normative parameters and nothing on `enc_cmd`, the steps that consume the words of `DECODE` (R82, R161). -/
theorem run_decodeExpansion {s : State} {cs rest ws : List Nat} {y : Dec} (hp : s.params = .normative) (hr : s.rst = false)
    (ht : s.turns = []) (he : s.encCmd = []) (hc : s.decCmd = wordsOf (decodeExpansion cs) ++ rest)
    (h : decTransitions (decodeExpansion cs) s.params s.dec = .ok (y, ws)) :
    Host.Core.run Sys2Proof.core (cs.length + 2) s =
      .next { s with dec := y, decCmd := rest, decRsp := s.decRsp ++ ws } := by
  have hlen : (decodeExpansion cs).length = cs.length + 2 := by simp [decodeExpansion]
  rw [← hlen]
  refine run_decWords _ (decodeExpansion_dec cs) (fun i hi => ?_) hr ht he hc h
  rw [hp]
  exact wf_normative (isHostCommand_of_isDecCommand (decodeExpansion_dec cs i hi))

/-- Some codeword is too large for its place exactly when a non-empty sequence is not valid (R161 (b)). -/
theorem not_validCodes_of_too_large {cs : List Nat}
    (h : (∃ c, cs[0]? = some c ∧ 256 ≤ c) ∨ ∃ k c, 1 ≤ k ∧ cs[k]? = some c ∧ 256 + k - 1 < c) :
    cs ≠ [] ∧ validCodes cs = false := by
  constructor
  · rintro rfl
    simp at h
  · rw [← Bool.not_eq_true, validCodes_iff]
    rintro ⟨-, hfirst, hlater⟩
    rcases h with ⟨c, hc, hge⟩ | ⟨k, c, hk, hc, hlt⟩
    · have := hfirst c hc
      omega
    · have := hlater k c hk hc
      omega

/-- Settles O46: `run_decodeExpansion` turns the steps into DEC's transitions, which are `decodeExpansion_nil` or one of
`decodeExpansion_cases`; the capacities are infinite, and validity is `validCodes_iff`. -/
theorem decodeRunContract : Obligations.DecodeRunContract := by
  intro s cs rest hp hr ht hempty hx hc
  have hv : s.params.valid = true := by rw [hp]; rfl
  have hl := (legalIn_decStart _).2 hx
  by_cases hnil : cs = []
  · subst hnil
    obtain ⟨y, ws, hy, hfault⟩ := decodeExpansion_nil (p := s.params) hl
    exact ⟨_, run_decodeExpansion hp hr ht hempty hc hy, rfl, rfl, rfl, fun _ => hfault,
      fun hlarge => absurd rfl (not_validCodes_of_too_large hlarge).1, fun hne => absurd rfl hne⟩
  · rcases decodeExpansion_cases hv hl hnil with ⟨hok, y, hy, hd, he, hout⟩ | ⟨hbad, y, ws, hy, hfault⟩ | ⟨_, _, _, _, _, hcap⟩
    · refine ⟨_, run_decodeExpansion hp hr ht hempty hc hy, rfl, rfl, rfl, fun h => absurd h hnil, fun hlarge => ?_,
        fun _ _ _ => ⟨hd, he, hout, ?_⟩⟩
      · simp [(not_validCodes_of_too_large hlarge).2] at hok
      · rw [hp, respond_normative, hout]
    · refine ⟨_, run_decodeExpansion hp hr ht hempty hc hy, rfl, rfl, rfl, fun h => absurd h hnil, fun _ => hfault,
        fun _ hfirst hlater => ?_⟩
      simp [validCodes_iff.2 ⟨hnil, hfirst, hlater⟩] at hbad
    · simp [hp, Params.normative] at hcap

/-! ## The round trip -/

/-- The encoder's output is a sequence the decoder accepts, and decodes to the encoder's input. -/
theorem enc_validCodes {xs : List Symbol} (hxs : xs ≠ []) :
    enc xs ≠ [] ∧ validCodes (enc xs) = true ∧ dec (enc xs) = xs := by
  obtain ⟨c, rest, henc, hc, hlater, hdec⟩ := dec_enc hxs
  refine ⟨by simp [henc], ?_, hdec⟩
  rw [henc, validCodes, decide_eq_true hc, hlater]
  rfl

/-- Settles O47: `ENCODE` completes with `enc xs` or lacks capacity (`encodeExpansion_cases`); `enc xs` is valid and decodes
to `xs` (`enc_validCodes`), so that `DECODE` of it completes or lacks capacity (`decodeExpansion_cases`). -/
theorem decodeOfEncodeIsTheInput : Obligations.DecodeOfEncodeIsTheInput := by
  intro s xs hv hxs hle hld
  obtain ⟨hne, hvalid, hdec⟩ := enc_validCodes hxs
  rcases encodeExpansion_cases hv hle xs with ⟨z, hz, hd, -, hout⟩ | ⟨z, ws, hz, hf, hcap⟩
  · refine ⟨_, runCommands_enc_of_transitions (encodeExpansion_enc _) hz, fun _ _ => hd, fun _ => ?_⟩
    rw [← hout] at hne hvalid hdec
    rcases decodeExpansion_cases hv hld hne with ⟨-, y, hy, hyd, -, hyout⟩ | ⟨hbad, -⟩ | ⟨y, vs, hy, hyf⟩
    · exact ⟨_, runCommands_dec_of_transitions (decodeExpansion_dec _) hy, .inl ⟨hyd, hyout.trans hdec⟩⟩
    · rw [hvalid] at hbad
      cases hbad
    · exact ⟨_, runCommands_dec_of_transitions (decodeExpansion_dec _) hy, .inr hyf⟩
  · refine ⟨_, runCommands_enc_of_transitions (encodeExpansion_enc _) hz, fun hdict hout => ?_, fun hd => ?_⟩
    · simp [hdict, hout] at hcap
    · exact absurd (hf.symm.trans hd) (by simp)

/-! ## The phrases of the encoder's codewords -/

section
variable {p : Params} {x z : Enc}

/-- A codeword below the counter is bound to the phrase that stands at it (R35 (b)). -/
theorem EncInv.phraseAt_mem (h : EncInv p x) {c : Nat} (hc : c < x.nextCode) :
    (phraseAt (x.table.map Prod.fst) c, c) ∈ x.table := by
  have hlt : c < (x.table.map Prod.fst).length := by rwa [List.length_map, h.length_eq]
  refine mem_of_getElem? h.codes_range ?_
  rw [phraseAt, List.getElem?_eq_getElem hlt]
  rfl

/-- A completed run of `ENCODE`: the phrases of its codewords make up the input and are chained through the table (R166). -/
theorem encodeExpansion_emitted {xs : List Symbol} {ws : List Nat} (hv : p.valid = true)
    (hl : legalIn .encStart x.phase = true) (h : encTransitions (encodeExpansion (xs.map Fin.val)) p x = .ok (z, ws))
    (hd : z.phase = .done) : (emitted z).flatten = xs ∧ Chained (z.table.map Prod.fst) (emitted z) := by
  obtain ⟨vs, hvs⟩ := encTransitions_tail (encTransition_start p hl) h
  rw [List.map_map] at hvs
  exact (consumed_start x).finish xs (encStart_inv hv x) rfl hvs hd
end

/-- Settles O48: (a) and (b) by `encodeExpansion_emitted`; a codeword emitted is below the counter, so it is bound to its
phrase (`EncInv.phraseAt_mem`). -/
theorem emittedPhrasesMakeUpTheInput : Obligations.EmittedPhrasesMakeUpTheInput := by
  intro s t xs hv hl h hd
  obtain ⟨z, ws, hz, ht⟩ := runCommands_enc_next (encodeExpansion_enc _) h
  obtain rfl : t.enc = z := by rw [ht]
  obtain ⟨hinv, -, -⟩ := encodeExpansion_out_length hv hl hz hd
  obtain ⟨hall, hchain⟩ := encodeExpansion_emitted hv hl hz hd
  refine ⟨hall, fun c hc => hinv.read_iff.2 (hinv.phraseAt_mem (hinv.out_codes c hc)), fun j c d hc hdj => ?_⟩
  have hentry := hchain j _ _ (by rw [emitted, List.getElem?_map, hc]; rfl) (by rw [emitted, List.getElem?_map, hdj]; rfl)
  exact hinv.read_iff.2 (mem_of_getElem? hinv.codes_range hentry)

/-! ## The decoder one step behind the encoder -/

/-- DEC after the codeword at index `k` of a completed encoder's output (R166 (c)). -/
structure OneBehind (z : Enc) (k : Nat) (x : Dec) : Prop where
  phase : x.phase = .run
  out : x.out = ((emitted z).take (k + 1)).flatten
  prefix_phrase : (emitted z)[k]? = some x.prefixReg
  table : x.table = (z.table.map Prod.fst).take (256 + k)

/-- A decoder that holds the first `n` entries of a table decodes a codeword up to `n` to its phrase in that table, if the
entry at `n` is `q` with the first symbol of that phrase (R142, R166). -/
theorem decodedPhrase_take {t : C2pTable} {n c : Nat} {q : Phrase} (hq : q ≠ []) (hc : c ≤ n)
    (hn : t[n]? = some (q ++ (phraseAt t c).take 1)) : decodedPhrase (t.take n) q c = phraseAt t c := by
  have hlen : (t.take n).length = n := by
    rw [List.length_take, Nat.min_eq_left (List.getElem?_eq_some_iff.1 hn).1.le]
  rcases Nat.lt_or_eq_of_le hc with hlt | rfl
  · rw [decodedPhrase, if_pos (by rwa [hlen]), phraseAt, phraseAt, List.getElem?_take, if_pos hlt]
  · have hself : phraseAt t c = q ++ (phraseAt t c).take 1 := phraseAt_of_get hn
    have hhead : (phraseAt t c).take 1 = q.take 1 := by
      rw [hself, List.take_append_of_le_length (List.length_pos_iff.2 hq)]
    rw [decodedPhrase, if_neg (by rw [hlen]; exact Nat.lt_irrefl c), ← hhead, ← hself]

section
variable {p : Params} {z : Enc} {x : Dec}

theorem EncInv.emitted_ne_nil (hz : EncInv p z) {k : Nat} {q : Phrase} (hq : (emitted z)[k]? = some q) : q ≠ [] := by
  rw [emitted, List.getElem?_map, Option.map_eq_some_iff] at hq
  obtain ⟨c, hc, rfl⟩ := hq
  have hmem := hz.phraseAt_mem (hz.out_codes c (List.mem_of_getElem? hc))
  exact List.length_pos_iff.1 (hz.length_le hmem).1

/-- After the first codeword the decoder holds the preload, which is the encoder's first 256 entries. -/
theorem oneBehind_first (hz : EncInv p z) {c : Nat} (hc : z.out[0]? = some c) (h256 : c < 256) :
    OneBehind z 0 { phase := .run, err := .none, prefixReg := [⟨c, h256⟩], nextCode := 256, out := [⟨c, h256⟩],
                    table := c2pPreload } := by
  have hpre : (z.table.map Prod.fst).take 256 = c2pPreload := by
    rw [← List.map_take, hz.preload]
    simp [p2cPreload, c2pPreload]
  have hphrase : phraseAt (z.table.map Prod.fst) c = [⟨c, h256⟩] := by
    refine phraseAt_of_get ?_
    rw [← c2pPreload_of_lt h256, ← hpre, List.getElem?_take, if_pos h256]
  have hget : (emitted z)[0]? = some [⟨c, h256⟩] := by rw [emitted, List.getElem?_map, hc, ← hphrase]; rfl
  refine ⟨rfl, ?_, hget, hpre.symm⟩
  rw [List.take_add_one, hget]
  rfl

/-- The decoder's next codeword keeps it one step behind, with infinite capacities: it decodes to its phrase in the encoder's
table (`decodedPhrase_take`), and what DEC inserts is the entry that stands next there. -/
theorem OneBehind.next {k : Nat} (hk : OneBehind z k x) (hx : DecInv p x) (hdict : p.dictCap = .infinite)
    (hcap : p.outCap = .infinite) (hz : EncInv p z) (hchain : Chained (z.table.map Prod.fst) (emitted z)) {c : Nat}
    (hc : z.out[k + 1]? = some c) :
    ∃ y w, decTransition (.decCode c) p x = .ok (y, w) ∧ DecInv p y ∧ OneBehind z (k + 1) y := by
  obtain ⟨y, w, hy, hinv⟩ := hx.later hk.phase c
  refine ⟨y, w, (decTransition_of_run hk.phase p c).trans hy, hinv, ?_⟩
  have hget : (emitted z)[k + 1]? = some (phraseAt (z.table.map Prod.fst) c) := by
    rw [emitted, List.getElem?_map, hc]; rfl
  have hentry := hchain k _ _ hk.prefix_phrase hget
  have hbound := hz.out_bound (k + 1) c hc
  have hphrase : decodedPhrase x.table x.prefixReg c = phraseAt (z.table.map Prod.fst) c := by
    rw [hk.table]
    exact decodedPhrase_take (hz.emitted_ne_nil hk.prefix_phrase) (by omega) hentry
  have hnext : x.nextCode = 256 + k := by
    rw [← hx.size, hk.table, List.length_take, Nat.min_eq_left (List.getElem?_eq_some_iff.1 hentry).1.le]
  rcases decLater_cases hx hk.phase c with ⟨hlt, -⟩ | ⟨-, hfull, -⟩ | ⟨-, -, he⟩
  · omega
  · simp [decCodeFull, hdict, hcap] at hfull
  · cases hy.symm.trans he
    rw [hphrase]
    have hout : ((emitted z).take (k + 1 + 1)).flatten = x.out ++ phraseAt (z.table.map Prod.fst) c := by
      rw [List.take_add_one, hget, hk.out]
      simp
    have htable : (z.table.map Prod.fst).take (256 + (k + 1)) =
        x.table ++ [x.prefixReg ++ (phraseAt (z.table.map Prod.fst) c).take 1] := by
      rw [← Nat.add_assoc, List.take_add_one, hentry, hk.table]
      rfl
    exact ⟨hk.phase, hout.symm, hget, htable.symm⟩

/-- By induction on the index: DEC is one step behind after every codeword of the encoder's output. -/
theorem decTransitions_oneBehind (hv : p.valid = true) (hdict : p.dictCap = .infinite) (hcap : p.outCap = .infinite)
    (hz : EncInv p z) (hchain : Chained (z.table.map Prod.fst) (emitted z)) (hl : legalIn .decStart x.phase = true)
    {k : Nat} (hk : k < z.out.length) :
    ∃ y ws, decTransitions (.decStart :: (z.out.take (k + 1)).map .decCode) p x = .ok (y, ws) ∧ DecInv p y ∧
      OneBehind z k y := by
  induction k with
  | zero =>
    have hc := List.getElem?_eq_getElem hk
    have h256 : z.out[0] < 256 := Nat.lt_succ_of_le (hz.out_bound 0 _ hc)
    obtain ⟨u, y, hu, hy, hinv, rfl⟩ := decTransition_start_first hv hl h256
    rw [List.take_add_one, hc]
    exact ⟨_, _, decTransitions_cons hu (decTransitions_cons hy rfl), hinv, oneBehind_first hz hc h256⟩
  | succ k ih =>
    have hc := List.getElem?_eq_getElem hk
    obtain ⟨y, ws, hy, hinv, hbehind⟩ := ih (by omega)
    obtain ⟨y', w, hy', hinv', hbehind'⟩ := hbehind.next hinv hdict hcap hz hchain hc
    rw [List.take_add_one, hc, Option.toList_some, List.map_append, ← List.cons_append]
    exact ⟨y', _, decTransitions_append hy (decTransitions_cons hy' rfl), hinv', hbehind'⟩

/-- After the last codeword the decoder's table is the whole of the encoder's. -/
theorem OneBehind.last (hz : EncInv p z) (hd : z.phase = .done) {k : Nat} (hk : k + 1 = z.out.length)
    (hbehind : OneBehind z k x) (hx : DecInv p x) :
    x.table = z.table.map Prod.fst ∧ x.nextCode = z.nextCode := by
  have hcount : z.nextCode = 256 + k := by
    rcases hz.done_count hd with ⟨h0, -⟩ | h
    · simp [h0] at hk
    · omega
  have htable : x.table = z.table.map Prod.fst := by
    rw [hbehind.table, List.take_of_length_le (by rw [List.length_map, hz.length_eq, hcount])]
  exact ⟨htable, by rw [← hx.size, htable, List.length_map, hz.length_eq]⟩
end

/-- Settles O49: with infinite capacities `ENCODE` completes, and DEC follows its output one step behind
(`decTransitions_oneBehind`), up to the last codeword (`OneBehind.last`). -/
theorem decoderIsOneStepBehind : Obligations.DecoderIsOneStepBehind := by
  intro s t xs hp hle hld hxs h
  have hv : s.params.valid = true := by rw [hp]; rfl
  have hdict : s.params.dictCap = .infinite := by rw [hp]; rfl
  have hcap : s.params.outCap = .infinite := by rw [hp]; rfl
  obtain ⟨z, ws, hz, rfl⟩ := runCommands_enc_next (encodeExpansion_enc _) h
  have hd : z.phase = .done := by
    rcases encodeExpansion_cases hv hle xs with ⟨z', hz', hd, -⟩ | ⟨_, _, -, -, hfin⟩
    · cases hz'.symm.trans hz; exact hd
    · simp [hdict, hcap] at hfin
  obtain ⟨hinv, -, hne⟩ := encodeExpansion_out_length hv hle hz hd
  obtain ⟨-, hchain⟩ := encodeExpansion_emitted hv hle hz hd
  have hpos := hne hxs
  constructor
  · intro k c hc
    obtain ⟨y, vs, hy, -, hbehind⟩ := decTransitions_oneBehind hv hdict hcap hinv hchain hld
      (List.getElem?_eq_some_iff.1 hc).1
    have hall : ∀ i ∈ Instr.decStart :: (z.out.take (k + 1)).map .decCode, i.isDecCommand = true :=
      List.forall_mem_cons.2 ⟨rfl, List.forall_mem_map.2 fun _ _ => rfl⟩
    have hprefix : (emitted z)[k]? = some (phraseAt (z.table.map Prod.fst) c) := by
      rw [emitted, List.getElem?_map, hc]; rfl
    refine ⟨_, runCommands_dec_of_transitions hall hy, hbehind.phase, ?_, ?_, hbehind.table⟩
    · rw [List.map_take]; exact hbehind.out
    · exact Option.some.inj (hbehind.prefix_phrase.symm.trans hprefix)
  · obtain ⟨y, vs, hy, hyinv, hbehind⟩ := decTransitions_oneBehind hv hdict hcap hinv hchain hld
      (k := z.out.length - 1) (by omega)
    rw [Nat.sub_add_cancel hpos, List.take_length] at hy
    have hend := decTransitions_append hy
      (decTransitions_cons (is := []) (decTransition_end_of_run hbehind.phase s.params) rfl)
    have hlast := hbehind.last hinv hd (Nat.sub_add_cancel hpos) hyinv
    exact ⟨_, runCommands_dec_of_transitions (decodeExpansion_dec _) hend, hlast⟩

/-! ## The moves of the phase -/

/-- What a raise does to an engine whose phase it changes (R186). -/
theorem raise_phase_move {α τ : Type} {p : Params} {e : Err} {x : Engine α τ} (h : (x.raise p e).1.phase ≠ x.phase) :
    x.phase ≠ .fault ∧ (x.raise p e).1.phase = .fault ∧ (x.raise p e).1.out = [] := by
  have hf : x.phase ≠ .fault := fun hf => h ((raise_phase p e x).trans hf.symm)
  exact ⟨hf, raise_phase p e x, raise_out fun h => absurd h hf⟩

/-- The moves of ENC that change its phase (R171). -/
theorem EncMove.phase_move {i : Instr} {p : Params} {x y : Enc} {w : Nat} (hm : EncMove i p x y w) (h : y.phase ≠ x.phase) :
    ((i = .encStart ∧ (x.phase = .idle ∨ x.phase = .done ∨ x.phase = .fault) ∧ y.phase = .run) ∨
      (i = .encEnd ∧ x.phase = .run ∧ y.phase = .done)) ∨
    (x.phase ≠ .fault ∧ y.phase = .fault ∧ y.out = []) := by
  cases hm with
  | raise e => exact .inr (raise_phase_move h)
  | start hi hx => exact .inl (.inl ⟨hi, hx, rfl⟩)
  | finish hi hx => exact .inl (.inr ⟨hi, hx, rfl⟩)
  | hit | miss | read => exact absurd rfl h

/-- The moves of DEC that change its phase (R171). -/
theorem DecMove.phase_move {i : Instr} {p : Params} {x y : Dec} {w : Nat} (hm : DecMove i p x y w) (h : y.phase ≠ x.phase) :
    ((i = .decStart ∧ (x.phase = .idle ∨ x.phase = .done ∨ x.phase = .fault) ∧ y.phase = .waitFirst) ∨
      ((∃ c, c < 256 ∧ i = .decCode c) ∧ x.phase = .waitFirst ∧ y.phase = .run) ∨
      (i = .decEnd ∧ x.phase = .run ∧ y.phase = .done)) ∨
    (x.phase ≠ .fault ∧ y.phase = .fault ∧ y.out = []) := by
  cases hm with
  | raise e => exact .inr (raise_phase_move h)
  | start hi hx => exact .inl (.inl ⟨hi, hx, rfl⟩)
  | first c hi hc hx => exact .inl (.inr (.inl ⟨⟨c, hc, hi⟩, hx, rfl⟩))
  | finish hi hx => exact .inl (.inr (.inr ⟨hi, hx, rfl⟩))
  | later | read => exact absurd rfl h

/-- Settles O40: of what a step can do (`step_next`) only the `rst` line and ENC's answer to a word reach ENC's phase; an
answer is a raise or one of `EncMove.phase_move`. -/
theorem encPhaseMovesAsTheTableSays : Obligations.EncPhaseMovesAsTheTableSays := by
  intro s t hst h
  obtain ⟨ts, rfl | ⟨b, hts, rfl⟩ | ⟨w, ws, y, r, -, hw, ha, rfl⟩ | ⟨w, ws, y, r, -, -, -, rfl⟩⟩ := step_next hst
  · exact absurd rfl h
  · cases b with
    | true => exact .inl ⟨⟨ts, hts⟩, rfl⟩
    | false => exact absurd rfl h
  · rcases encAnswer_cases ha with ⟨-, hraise⟩ | ⟨i, hi, -, hm⟩
    · obtain ⟨rfl, -⟩ := Prod.mk.inj hraise
      exact .inr (.inr (raise_phase_move h))
    · rcases hm.phase_move h with hmove | hfault
      · exact .inr (.inl ⟨w, ws, i, hw, hi, hmove⟩)
      · exact .inr (.inr hfault)
  · exact absurd rfl h

/-- Settles O41: likewise for DEC, by `DecMove.phase_move`. -/
theorem decPhaseMovesAsTheTableSays : Obligations.DecPhaseMovesAsTheTableSays := by
  intro s t hst h
  obtain ⟨ts, rfl | ⟨b, hts, rfl⟩ | ⟨w, ws, y, r, -, -, -, rfl⟩ | ⟨w, ws, y, r, -, hw, ha, rfl⟩⟩ := step_next hst
  · exact absurd rfl h
  · cases b with
    | true => exact .inl ⟨⟨ts, hts⟩, rfl⟩
    | false => exact absurd rfl h
  · exact absurd rfl h
  · rcases decAnswer_cases ha with ⟨-, hraise⟩ | ⟨i, hi, -, hm⟩
    · obtain ⟨rfl, -⟩ := Prod.mk.inj hraise
      exact .inr (.inr (raise_phase_move h))
    · rcases hm.phase_move h with hmove | hfault
      · exact .inr (.inl ⟨w, ws, i, hw, hi, hmove⟩)
      · exact .inr (.inr hfault)

/-! ## The moves of the counter -/

section
variable {p : Params} {w : Nat}

theorem EncMove.encStart_nextCode {x y : Enc} (hm : EncMove .encStart p x y w) (hf : y.phase ≠ .fault) :
    y.nextCode = 256 := by
  cases hm with
  | raise e => exact absurd (raise_phase p e x) hf
  | start => rfl
  | hit _ hi | miss _ hi | finish hi => cases hi
  | read hi => simp at hi

/-- ENC_SYM moves the counter exactly when the output grows (R167); a raise leaves it and empties the output. -/
theorem EncMove.encSym_nextCode {a : Nat} {x y : Enc} (hm : EncMove (.encSym a) p x y w) :
    (y.out.length = x.out.length + 1 ∧ y.nextCode = x.nextCode + 1) ∨
    (y.out.length ≠ x.out.length + 1 ∧ y.nextCode = x.nextCode) := by
  cases hm with
  | raise e =>
    refine .inr ⟨?_, raise_nextCode p e x⟩
    by_cases hx : x.phase = .fault
    · simp [raise_of_fault p e x hx]
    · simp [raise_of_not_fault p e x hx]
  | hit => exact .inr ⟨by simp, rfl⟩
  | miss => exact .inl ⟨by simp, rfl⟩
  | start hi | finish hi => cases hi
  | read hi => simp at hi

theorem EncMove.nextCode_eq {i : Instr} {x y : Enc} (hi : i = .encEnd ∨ (∃ k, i = .encRd k) ∨ ∃ n, i = .encStat n)
    (hm : EncMove i p x y w) : y.nextCode = x.nextCode := by
  cases hm with
  | raise e => exact raise_nextCode p e x
  | finish | read => rfl
  | start h | hit _ h | miss _ h => simp [h] at hi

theorem DecMove.decStart_nextCode {x y : Dec} (hm : DecMove .decStart p x y w) (hf : y.phase ≠ .fault) :
    y.nextCode = 256 := by
  cases hm with
  | raise e => exact absurd (raise_phase p e x) hf
  | start => rfl
  | first _ hi | later _ hi | finish hi => cases hi
  | read hi => simp at hi

/-- DEC_CODE moves the counter on every codeword but the first (R167); a raise leaves it. -/
theorem DecMove.decCode_nextCode {c : Nat} {x y : Dec} (hm : DecMove (.decCode c) p x y w) :
    (x.phase = .run ∧ y.phase = .run ∧ y.nextCode = x.nextCode + 1) ∨
    ((x.phase ≠ .run ∨ y.phase = .fault) ∧ y.nextCode = x.nextCode) := by
  cases hm with
  | raise e => exact .inr ⟨.inr (raise_phase p e x), raise_nextCode p e x⟩
  | first _ _ _ hx => exact .inr ⟨.inl (by simp [hx]), rfl⟩
  | later _ _ hx => exact .inl ⟨hx, hx, rfl⟩
  | start hi | finish hi => cases hi
  | read hi => simp at hi

theorem DecMove.nextCode_eq {i : Instr} {x y : Dec} (hi : i = .decEnd ∨ (∃ k, i = .decRd k) ∨ ∃ n, i = .decStat n)
    (hm : DecMove i p x y w) : y.nextCode = x.nextCode := by
  cases hm with
  | raise e => exact raise_nextCode p e x
  | finish | read => rfl
  | start h | first _ h | later _ h => simp [h] at hi
end

@[simp] theorem csr_two {α τ : Type} (x : Engine α τ) : x.csr 2 = some x.nextCode := rfl

/-- Settles O42: each command made one of its engine's moves, and CSR 2 is the counter (`csr_two`). -/
theorem nextCodeMovesByOne : Obligations.NextCodeMovesByOne := by
  intro s t
  simp only [csr_two, Option.some.injEq]
  refine ⟨fun h hf => ?_, fun a h => ?_, fun i hi h => ?_, fun h hf => ?_, fun c h => ?_, fun i hi h => ?_⟩
  · obtain ⟨w, hm⟩ := encMove_of_exec rfl h
    exact hm.encStart_nextCode hf
  · obtain ⟨w, hm⟩ := encMove_of_exec rfl h
    exact hm.encSym_nextCode
  · have henc : i.isEncCommand = true := by rcases hi with rfl | ⟨k, rfl⟩ | ⟨n, rfl⟩ <;> rfl
    obtain ⟨w, hm⟩ := encMove_of_exec henc h
    exact hm.nextCode_eq hi
  · obtain ⟨w, hm⟩ := decMove_of_exec rfl h
    exact hm.decStart_nextCode hf
  · obtain ⟨w, hm⟩ := decMove_of_exec rfl h
    exact hm.decCode_nextCode
  · have hdec : i.isDecCommand = true := by rcases hi with rfl | ⟨k, rfl⟩ | ⟨n, rfl⟩ <;> rfl
    obtain ⟨w, hm⟩ := decMove_of_exec hdec h
    exact hm.nextCode_eq hi

end Sys2Proof.Machine

/-! ## Into FAULT -/

namespace Sys2Proof.Machine

section
variable {α τ : Type} {p : Params} {x : Engine α τ}

/-- Outside FAULT a raise discards the output, stores the cause and reports it (R186, R190). -/
theorem raise_into_fault (hx : x.phase ≠ .fault) (e : Err) :
    x.raise p e = ({ x with out := [], err := e, phase := .fault }, e.code) := by
  rw [raise_of_not_fault p e x hx, respond_zero]

/-- A raise stores its cause or keeps the sticky error (R186, R187), so an error that is neither is not there after it. -/
theorem raise_err_ne {e c : Err} (hx : x.err ≠ c) (he : e ≠ c) : (x.raise p e).1.err ≠ c := by
  by_cases hf : x.phase = .fault
  · rwa [raise_of_fault p e x hf]
  · rwa [raise_of_not_fault p e x hf]
end

section
variable {i : Instr} {p : Params} {w r : Nat}

/-- The only move of ENC into FAULT is a raise (R171). -/
theorem EncMove.raise_of_into_fault {x y : Enc} (hm : EncMove i p x y r) (hx : x.phase ≠ .fault) (hy : y.phase = .fault) :
    ∃ e, e ≠ .none ∧ (y, r) = x.raise p e := by
  cases hm with
  | raise e he => exact ⟨e, he, rfl⟩
  | start | finish => cases hy
  | hit | miss | read => exact absurd hy hx

/-- The only move of DEC into FAULT is a raise (R171). -/
theorem DecMove.raise_of_into_fault {x y : Dec} (hm : DecMove i p x y r) (hx : x.phase ≠ .fault) (hy : y.phase = .fault) :
    ∃ e, e ≠ .none ∧ (y, r) = x.raise p e := by
  cases hm with
  | raise e he => exact ⟨e, he, rfl⟩
  | start | first | finish => cases hy
  | later | read => exact absurd hy hx

/-- An answer that takes ENC into FAULT is a raise of a cause, whether the word decodes or not. -/
theorem encAnswer_into_fault {x y : Enc} (h : encAnswer p w x = .ok (y, r)) (hx : x.phase ≠ .fault) (hy : y.phase = .fault) :
    ∃ e, e ≠ .none ∧ (y, r) = x.raise p e := by
  rcases encAnswer_cases h with ⟨-, hraise⟩ | ⟨i, -, -, hm⟩
  · exact ⟨.illegalCommand, by decide, hraise⟩
  · exact hm.raise_of_into_fault hx hy

/-- An answer that takes DEC into FAULT, likewise. -/
theorem decAnswer_into_fault {x y : Dec} (h : decAnswer p w x = .ok (y, r)) (hx : x.phase ≠ .fault) (hy : y.phase = .fault) :
    ∃ e, e ≠ .none ∧ (y, r) = x.raise p e := by
  rcases decAnswer_cases h with ⟨-, hraise⟩ | ⟨i, -, -, hm⟩
  · exact ⟨.illegalCommand, by decide, hraise⟩
  · exact hm.raise_of_into_fault hx hy
end

/-- Settles O37: an answer that enters FAULT is a raise (`encAnswer_into_fault`, `decAnswer_into_fault`), which outside FAULT
does what `raise_into_fault` says; the machine around the engine gets the response word alone. -/
theorem raisesChangeNothingElse : Obligations.RaisesChangeNothingElse := by
  intro w s t
  refine ⟨fun h hx hy => ?_, fun h hx hy => ?_⟩
  · rw [encHandle_eq] at h
    obtain ⟨y, r, ha, rfl⟩ := finishEnc_next h
    obtain ⟨e, he, hraise⟩ := encAnswer_into_fault ha hx hy
    rw [raise_into_fault hx] at hraise
    obtain ⟨rfl, rfl⟩ := Prod.mk.inj hraise
    exact ⟨he, rfl⟩
  · rw [decHandle_eq] at h
    obtain ⟨y, r, ha, rfl⟩ := finishDec_next h
    obtain ⟨e, he, hraise⟩ := decAnswer_into_fault ha hx hy
    rw [raise_into_fault hx] at hraise
    obtain ⟨rfl, rfl⟩ := Prod.mk.inj hraise
    exact ⟨he, rfl⟩

/-! ## In FAULT -/

/-- In FAULT the phase test of an ENC command passes for START and STAT alone (R83 step 4). -/
theorem legalIn_fault_enc {i : Instr} (hi : i.isEncCommand = true) (hstart : i ≠ .encStart) (hstat : ∀ n, i ≠ .encStat n) :
    legalIn i .fault = false := by
  cases i with
  | encStart => exact absurd rfl hstart
  | encStat n => exact absurd rfl (hstat n)
  | encSym | encEnd | encRd => rfl
  | _ => cases hi

/-- In FAULT the phase test of a DEC command passes for START and STAT alone (R83 step 4). -/
theorem legalIn_fault_dec {i : Instr} (hi : i.isDecCommand = true) (hstart : i ≠ .decStart) (hstat : ∀ n, i ≠ .decStat n) :
    legalIn i .fault = false := by
  cases i with
  | decStart => exact absurd rfl hstart
  | decStat n => exact absurd rfl (hstat n)
  | decCode | decEnd | decRd => rfl
  | _ => cases hi

/-- The registers 0 to 2 are there (R31). -/
theorem exists_csr {α τ : Type} (x : Engine α τ) {n : Nat} (hn : n ≤ 2) : ∃ v, x.csr n = some v :=
  Option.ne_none_iff_exists'.1 fun h => absurd (csr_eq_none.1 h) (by omega)

section
variable {s : State}

/-- ENC_STAT of a register answers its value in every phase and writes nothing (R124). -/
theorem exec_encStat_register {n v : Nat} (hv : s.enc.csr n = some v) :
    exec (.encStat n) s = .next (s.replyEnc s.enc (respond s.params .none v)) := by
  show execEncStat n s = _
  rw [execEncStat, encCommand, hv]
  rfl

/-- DEC_STAT of a register answers its value in every phase and writes nothing (R146). -/
theorem exec_decStat_register {n v : Nat} (hv : s.dec.csr n = some v) :
    exec (.decStat n) s = .next (s.replyDec s.dec (respond s.params .none v)) := by
  show execDecStat n s = _
  rw [execDecStat, decCommand, hv]
  rfl

/-- A raise in FAULT only reports the sticky error (R187). -/
theorem raisedEnc_of_fault (hf : s.enc.phase = .fault) (e : Err) :
    raisedEnc s e = { s with encRsp := s.encRsp ++ [s.enc.err.code] } := if_pos hf

theorem raisedDec_of_fault (hf : s.dec.phase = .fault) (e : Err) :
    raisedDec s e = { s with decRsp := s.decRsp ++ [s.dec.err.code] } := if_pos hf

/-- In FAULT every ENC command but START and a STAT of a register raises (R187). -/
theorem exec_enc_of_fault {i : Instr} (hi : i.isEncCommand = true) (hf : s.enc.phase = .fault) (hstart : i ≠ .encStart)
    (hstat : ∀ n, n ≤ 2 → i ≠ .encStat n) : exec i s = .next (raisedEnc s .illegalCommand) := by
  by_cases hread : ∃ n, i = .encStat n
  · obtain ⟨n, rfl⟩ := hread
    exact exec_encStat_reserved (Nat.lt_of_not_le fun hn => hstat n hn rfl)
  · refine exec_enc_illegal hi ?_
    rw [hf]
    exact legalIn_fault_enc hi hstart fun n hn => hread ⟨n, hn⟩

/-- In FAULT every DEC command but START and a STAT of a register raises (R187). -/
theorem exec_dec_of_fault {i : Instr} (hi : i.isDecCommand = true) (hf : s.dec.phase = .fault) (hstart : i ≠ .decStart)
    (hstat : ∀ n, n ≤ 2 → i ≠ .decStat n) : exec i s = .next (raisedDec s .illegalCommand) := by
  by_cases hread : ∃ n, i = .decStat n
  · obtain ⟨n, rfl⟩ := hread
    exact exec_decStat_reserved (Nat.lt_of_not_le fun hn => hstat n hn rfl)
  · refine exec_dec_illegal hi ?_
    rw [hf]
    exact legalIn_fault_dec hi hstart fun n hn => hread ⟨n, hn⟩
end

/-- Settles O38: a word that does not decode raises (`encHandle_error`, `decHandle_error`), as does one that decodes to
another command than START and a STAT of a register (`exec_enc_of_fault`, `exec_dec_of_fault`); in FAULT a raise only reports
the sticky error. -/
theorem faultIsSticky : Obligations.FaultIsSticky := by
  intro s w
  refine ⟨fun hf hstart hstat => ?_, fun n _ hn hd => ?_, fun hf hstart hstat => ?_, fun n _ hn hd => ?_⟩
  · rw [← raisedEnc_of_fault hf .illegalCommand]
    cases hd : decodeCommand .encCmd s.params w with
    | error e => exact encHandle_error hd
    | ok i =>
      rw [encHandle_ok hd]
      exact exec_enc_of_fault (decodeEnc_isEnc hd) hf (fun hi => hstart (hi ▸ hd)) fun n hn hi => hstat n hn (hi ▸ hd)
  · obtain ⟨v, hv⟩ := exists_csr s.enc hn
    exact ⟨_, (encHandle_ok hd).trans (exec_encStat_register hv)⟩
  · rw [← raisedDec_of_fault hf .illegalCommand]
    cases hd : decodeCommand .decCmd s.params w with
    | error e => exact decHandle_error hd
    | ok i =>
      rw [decHandle_ok hd]
      exact exec_dec_of_fault (decodeDec_isDec hd) hf (fun hi => hstart (hi ▸ hd)) fun n hn hi => hstat n hn (hi ▸ hd)
  · obtain ⟨v, hv⟩ := exists_csr s.dec hn
    exact ⟨_, (decHandle_ok hd).trans (exec_decStat_register hv)⟩

/-! ## Out of FAULT -/

section
variable {p : Params} {w r : Nat}

/-- The only move of ENC out of FAULT is START, with the whole state after it (R188). -/
theorem EncMove.start_of_leaves_fault {i : Instr} {x y : Enc} (hm : EncMove i p x y r) (hx : x.phase = .fault)
    (hy : y.phase ≠ .fault) :
    i = .encStart ∧ y = { p2cInit x with prefixReg := [], out := [], err := .none, phase := .run } := by
  cases hm with
  | raise e => exact absurd (raise_phase p e x) hy
  | start hi => exact ⟨hi, rfl⟩
  | hit | miss | read => exact absurd hx hy
  | finish _ hr => simp [hx] at hr

/-- The only move of DEC out of FAULT is START, with the whole state after it (R188). -/
theorem DecMove.start_of_leaves_fault {i : Instr} {x y : Dec} (hm : DecMove i p x y r) (hx : x.phase = .fault)
    (hy : y.phase ≠ .fault) :
    i = .decStart ∧ y = { c2pInit x with prefixReg := [], out := [], err := .none, phase := .waitFirst } := by
  cases hm with
  | raise e => exact absurd (raise_phase p e x) hy
  | start hi => exact ⟨hi, rfl⟩
  | first _ _ _ hr | finish _ hr => simp [hx] at hr
  | later | read => exact absurd hx hy

/-- An answer that takes ENC out of FAULT is that to START, since a word that does not decode raises. -/
theorem encAnswer_leaves_fault {x y : Enc} (h : encAnswer p w x = .ok (y, r)) (hx : x.phase = .fault) (hy : y.phase ≠ .fault) :
    decodeEnc p w = .ok .encStart ∧ y = { p2cInit x with prefixReg := [], out := [], err := .none, phase := .run } := by
  rcases encAnswer_cases h with ⟨-, hraise⟩ | ⟨i, hd, -, hm⟩
  · obtain ⟨rfl, -⟩ := Prod.mk.inj hraise
    exact absurd (raise_phase p _ x) hy
  · obtain ⟨rfl, rfl⟩ := hm.start_of_leaves_fault hx hy
    exact ⟨hd, rfl⟩

/-- An answer that takes DEC out of FAULT, likewise. -/
theorem decAnswer_leaves_fault {x y : Dec} (h : decAnswer p w x = .ok (y, r)) (hx : x.phase = .fault) (hy : y.phase ≠ .fault) :
    decodeDec p w = .ok .decStart ∧
      y = { c2pInit x with prefixReg := [], out := [], err := .none, phase := .waitFirst } := by
  rcases decAnswer_cases h with ⟨-, hraise⟩ | ⟨i, hd, -, hm⟩
  · obtain ⟨rfl, -⟩ := Prod.mk.inj hraise
    exact absurd (raise_phase p _ x) hy
  · obtain ⟨rfl, rfl⟩ := hm.start_of_leaves_fault hx hy
    exact ⟨hd, rfl⟩
end

/-- Settles O39: of what a step can do (`step_next`) an assertion of `rst` is one way out; releasing `rst`, a used-up turn and
the other engine's answer leave the engine in FAULT; its own answer is START (`encAnswer_leaves_fault`,
`decAnswer_leaves_fault`). -/
theorem onlyStartOrResetLeavesFault : Obligations.OnlyStartOrResetLeavesFault := by
  intro s t hst
  obtain ⟨ts, rfl | ⟨b, hts, rfl⟩ | ⟨w, ws, y, r, -, hw, ha, rfl⟩ | ⟨w, ws, y, r, -, hw, ha, rfl⟩⟩ := step_next hst
  · exact ⟨fun hx hy => absurd hx hy, fun hx hy => absurd hx hy⟩
  · cases b with
    | true => exact ⟨fun _ _ => .inl ⟨ts, hts⟩, fun _ _ => .inl ⟨ts, hts⟩⟩
    | false => exact ⟨fun hx hy => absurd hx hy, fun hx hy => absurd hx hy⟩
  · refine ⟨fun hx hy => .inr ?_, fun hx hy => absurd hx hy⟩
    obtain ⟨hd, rfl⟩ := encAnswer_leaves_fault ha hx hy
    exact ⟨w, ws, hw, hd, rfl, rfl, rfl⟩
  · refine ⟨fun hx hy => absurd hx hy, fun hx hy => .inr ?_⟩
    obtain ⟨hd, rfl⟩ := decAnswer_leaves_fault ha hx hy
    exact ⟨w, ws, hw, hd, rfl, rfl, rfl⟩

/-! ## CapacityExhausted -/

section
variable {p : Params} {w r : Nat}

/-- With infinite capacities no move of ENC raises CapacityExhausted (R5, R185). -/
theorem EncMove.err_ne_capacityExhausted {i : Instr} {x y : Enc} (hm : EncMove i p x y r) (hdict : p.dictCap = .infinite)
    (hout : p.outCap = .infinite) (hx : x.err ≠ .capacityExhausted) : y.err ≠ .capacityExhausted := by
  cases hm with
  | raise e _ _ hcap => exact raise_err_ne hx fun he => (hcap he).elim (absurd hdict) (absurd hout)
  | start => nofun
  | hit | miss | finish | read => exact hx

/-- With infinite capacities no move of DEC raises CapacityExhausted (R5, R185). -/
theorem DecMove.err_ne_capacityExhausted {i : Instr} {x y : Dec} (hm : DecMove i p x y r) (hdict : p.dictCap = .infinite)
    (hout : p.outCap = .infinite) (hx : x.err ≠ .capacityExhausted) : y.err ≠ .capacityExhausted := by
  cases hm with
  | raise e _ _ hcap => exact raise_err_ne hx fun he => (hcap he).elim (absurd hdict) (absurd hout)
  | start => nofun
  | first | later | finish | read => exact hx

theorem encAnswer_err_ne_capacityExhausted {x y : Enc} (h : encAnswer p w x = .ok (y, r)) (hdict : p.dictCap = .infinite)
    (hout : p.outCap = .infinite) (hx : x.err ≠ .capacityExhausted) : y.err ≠ .capacityExhausted := by
  rcases encAnswer_cases h with ⟨-, hraise⟩ | ⟨i, -, -, hm⟩
  · obtain ⟨rfl, -⟩ := Prod.mk.inj hraise
    exact raise_err_ne hx (by decide)
  · exact hm.err_ne_capacityExhausted hdict hout hx

theorem decAnswer_err_ne_capacityExhausted {x y : Dec} (h : decAnswer p w x = .ok (y, r)) (hdict : p.dictCap = .infinite)
    (hout : p.outCap = .infinite) (hx : x.err ≠ .capacityExhausted) : y.err ≠ .capacityExhausted := by
  rcases decAnswer_cases h with ⟨-, hraise⟩ | ⟨i, -, -, hm⟩
  · obtain ⟨rfl, -⟩ := Prod.mk.inj hraise
    exact raise_err_ne hx (by decide)
  · exact hm.err_ne_capacityExhausted hdict hout hx
end

/-- Settles O43: of what a step can do (`step_next`) only an engine's answer stores an error, and a move that raises
CapacityExhausted needs a finite capacity (`EncMove.raise`, `DecMove.raise`). -/
theorem infiniteCapacityIsNeverExhausted : Obligations.InfiniteCapacityIsNeverExhausted := by
  intro s t hdict hout hst
  obtain ⟨ts, rfl | ⟨b, -, rfl⟩ | ⟨w, ws, y, r, -, -, ha, rfl⟩ | ⟨w, ws, y, r, -, -, ha, rfl⟩⟩ := step_next hst
  · exact ⟨id, id⟩
  · cases b with
    | true => exact ⟨fun _ => nofun, fun _ => nofun⟩
    | false => exact ⟨id, id⟩
  · exact ⟨encAnswer_err_ne_capacityExhausted ha hdict hout, id⟩
  · exact ⟨id, decAnswer_err_ne_capacityExhausted ha hdict hout⟩

end Sys2Proof.Machine

/-! ## Waiting, and the reset line -/

namespace Sys2Proof.Machine

section
variable {s : State} {ts : List Turn}

/-- ENC's move changes nothing while `rst` is asserted (R210) or while no word is presented (R215). -/
theorem encTurn_waits (h : s.rst = true ∨ s.encCmd = []) : encTurn s = .next s := by
  rcases encTurn_cases s with ⟨he, -⟩ | ⟨w, ws, hr, hw, -⟩
  · exact he
  · simp [hr, hw] at h

/-- DEC's move changes nothing, likewise. -/
theorem decTurn_waits (h : s.rst = true ∨ s.decCmd = []) : decTurn s = .next s := by
  rcases decTurn_cases s with ⟨he, -⟩ | ⟨w, ws, hr, hw, -⟩
  · exact he
  · simp [hr, hw] at h

/-- A turn of ENC that waits only uses up the turn. -/
theorem step_encTurn_waits (ht : s.turns = .enc :: ts) (h : s.rst = true ∨ s.encCmd = []) :
    step s = .next { s with turns := ts } :=
  (step_encTurn ht).trans (encTurn_waits h)

/-- A turn of DEC that waits only uses up the turn. -/
theorem step_decTurn_waits (ht : s.turns = .dec :: ts) (h : s.rst = true ∨ s.decCmd = []) :
    step s = .next { s with turns := ts } :=
  (step_decTurn ht).trans (decTurn_waits h)

/-- With no turn named a step changes nothing if both engines wait, whichever of them log 1 lets move. -/
theorem step_noTurns_waits (ht : s.turns = []) (henc : s.rst = true ∨ s.encCmd = [])
    (hdec : s.rst = true ∨ s.decCmd = []) : step s = .next s := by
  by_cases he : s.encCmd = []
  · exact (step_noTurns_dec ht he).trans (decTurn_waits hdec)
  · exact (step_noTurns_enc ht he).trans (encTurn_waits henc)

/-- A turn of the `rst` line drives the line (log 5). -/
theorem step_rstTurn {level : Bool} (ht : s.turns = .rst level :: ts) :
    step s = .next (State.driveRst { s with turns := ts } level) := by
  rw [step, advance, ht]
end

/-- Settles O2: a turn of the line drives it (`step_rstTurn`), and both engines wait while it is asserted. -/
theorem resetLineResetsBothEngines : Obligations.ResetLineResetsBothEngines := by
  intro s ts
  refine ⟨step_rstTurn, step_rstTurn, ?_, ?_⟩
  · rintro hr (ht | ht)
    · exact step_encTurn_waits ht (.inl hr)
    · exact step_decTurn_waits ht (.inl hr)
  · exact fun hr ht => step_noTurns_waits ht (.inl hr) (.inl hr)

/-- Settles O4: an engine whose port holds no word waits, on its own turn and with no turn named. -/
theorem engineWaitsForItsNextCommand : Obligations.EngineWaitsForItsNextCommand := by
  intro s ts
  exact ⟨fun ht hc => step_encTurn_waits ht (.inr hc), fun ht hc => step_decTurn_waits ht (.inr hc),
    fun ht he hd => step_noTurns_waits ht (.inr he) (.inr hd)⟩

end Sys2Proof.Machine
